-- ==== Sys2Proof/Word.lean ====
section
/-! DEFINITION. The word types of SPIFRAME (00_scope.md R10: bytes of 8 bits, words of 16 bits, all values unsigned). -/

namespace Sys2Proof

/-- A byte, 8 bits (R10); also one bus transfer unit (`UNIT_BITS` = 8, R8). -/
abbrev Byte := BitVec 8

/-- A word in the spec's sense, `WORD_BITS` = 16 bits (R8, R10). -/
abbrev HalfWord := BitVec 16

/-- A command word `CW` or a response word `RSP`, 32 bits (R38, R86, R90). -/
abbrev CmdWord := BitVec 32

/-- A BusConfig as the `CFG` register holds it, 24 bits (R22). -/
abbrev BusConfig := BitVec 24

end Sys2Proof
end

