-- ==== Sys2Proof/Config.lean ====
section
/-! DEFINITION. The configuration of one block (00_scope.md R8) as plain data, and the free values of the model: opaque
constants without a body, one for each parameter the spec leaves OPEN and one for each kind of draw (R10). -/

namespace Sys2Proof

/-- `CFG_LEGAL`, the set of BusConfig values the platform accepts (R8, R26: an OPEN predicate). Every predicate on 24 bits is
the table of the values it accepts; `standard` is the default predicate of R26, written out (DESIGN CHOICE, log entry 4). -/
inductive LegalSet where
  /-- R26's default: any mode, any bit order, `wordSize = 8`, `clockDivider >= 1`. -/
  | standard
  /-- The platform accepts exactly these values. -/
  | table (accepted : List BusConfig)
  deriving DecidableEq, Repr

/-- The outcome the environment draws for one platform transaction of n units (41_bus_transport.md R112). -/
inductive TxDraw where
  /-- All n units are exchanged. -/
  | ok
  /-- The first `p` units are exchanged, then the platform reports failure; every `p` from 0 to n is admitted, and a `p`
  above n stands for n. -/
  | fail (p : Nat)
  deriving DecidableEq, Repr, Inhabited

/-- The parameters of R8, all fifteen rows of its table. No operation changes them. They are carried in `State.config`, so that a
statement over all states is a statement over all their values. -/
structure Config where
  /-- `CHANNEL.index`: which physical link (OPEN). -/
  channelIndex : Nat
  /-- `CHANNEL.csLine`: which chip-select line of that link (OPEN). -/
  csLine : Nat
  /-- `SEL_CW`: selector of a command write. -/
  selCW : Byte
  /-- `SEL_SR`: selector of a status read. -/
  selSR : Byte
  /-- `SEL_DW`: selector of a data write. -/
  selDW : Byte
  /-- `SEL_DR`: selector of a data read. -/
  selDR : Byte
  /-- `DUMMY`: the byte sent while a read payload is received (R83). -/
  dummy : Byte
  /-- `CHUNK`: where a large write is cut into platform transactions (R118). -/
  chunk : Nat
  /-- `BUF_MAX`: capacity of `BUF` in bytes (OPEN). -/
  bufMax : Nat
  /-- `WORD_BITS`: width of the value moved by XFERW and WDATAW. -/
  wordBits : Nat
  /-- `WORD_HIGH_FIRST`: a word goes on the wire high byte first. -/
  wordHighFirst : Bool
  /-- `UNIT_BITS`: width of one bus transfer unit. -/
  unitBits : Nat
  /-- `CFG_LEGAL` (OPEN). -/
  cfgLegal : LegalSet
  /-- `DIV_BITS`: width of the clock-divider field. -/
  divBits : Nat
  /-- `CS_ACTIVE_LOW`: electrical sense of the chip-select pin. -/
  csActiveLow : Bool
  deriving DecidableEq, Repr

/-- What the spec requires of the parameters: the four selectors pairwise different (R9), `1 <= BUF_MAX <= 2^23 - 1` (R8), a
chunk that holds the 2-byte payload of WDATAW, which R141 says is one transaction (DEDUCED, log entry 21), and the three widths
at the values R8 gives them, which the fields of R22, R32, R54, R86 and R111 have (log entry 17). `WORD_HIGH_FIRST` and
`CS_ACTIVE_LOW` may be either. -/
abbrev Config.wf (c : Config) : Prop :=
  [c.selCW, c.selSR, c.selDW, c.selDR].Nodup ∧ 1 ≤ c.bufMax ∧ c.bufMax ≤ 8388607 ∧ 2 ≤ c.chunk ∧
    c.wordBits = 16 ∧ c.unitBits = 8 ∧ c.divBits = 16

/-- `CHANNEL.index` of the block after reset: OPEN in R8. -/
opaque Config.openChannelIndex : Nat

/-- `CHANNEL.csLine` of the block after reset: OPEN in R8. -/
opaque Config.openCsLine : Nat

/-- `BUF_MAX - 1` of the block after reset: OPEN in R8 within `1 <= BUF_MAX <= 2^23 - 1`, hence a number below 8388607. -/
opaque Config.openBufMax : Fin 8388607

/-- The BusConfig values the platform accepts, for the block after reset: OPEN in R8 and R26. -/
opaque Config.openLegal : List BusConfig

/-- FREE VALUE: the byte the device answers at draw position k (R111 `draw byte`). -/
opaque Config.freeMiso : Nat → Byte

/-- FREE VALUE: the outcome of the platform transaction at draw position k (R112). -/
opaque Config.freeTx : Nat → TxDraw

/-- FREE VALUE: whether the platform lets the INIT at draw position k succeed (R113). -/
opaque Config.freeInit : Nat → Bool

/-- FREE VALUE: the byte sent from a byte of `BUF` that has no value, at draw position k (R31). -/
opaque Config.freeUnwritten : Nat → Byte

/-- The configuration `State.reset` carries: the values and defaults R8 gives, and an opaque constant for each OPEN parameter
(PRESUMED selectors, log entry 16; log entry 3). -/
def Config.afterReset : Config where
  channelIndex := Config.openChannelIndex
  csLine := Config.openCsLine
  selCW := 0x80
  selSR := 0xC0
  selDW := 0x00
  selDR := 0x40
  dummy := 0x00
  chunk := 4096
  bufMax := Config.openBufMax.val + 1
  wordBits := 16
  wordHighFirst := true
  unitBits := 8
  cfgLegal := .table Config.openLegal
  divBits := 16
  csActiveLow := true

end Sys2Proof
end

