-- ==== Sys2Proof/Syntax.lean ====
section
/-! DEFINITION. The fifteen operations of SPIFRAME, one constructor per row of spec/opcode_table.json (30_encoding.md R88,
R92). ASSERT, RELEASE and TRANSFER are other spellings and have no opcode of their own (R94). -/

namespace Sys2Proof

/-- One operation the host issues (R3, R92), its operands in the order R92 shows them. -/
inductive Instr where
  /-- INIT mode, bitOrder, wordSize, clockDivider (R113). -/
  | init (mode : BitVec 2) (bitOrder : BitVec 1) (wordSize : BitVec 5) (clockDivider : BitVec 16)
  /-- BEGIN, also called ASSERT (R116). -/
  | beginFrame
  /-- END, also called RELEASE (R117). -/
  | endFrame
  /-- WRITE size, hold: `size` is a count of bytes (R118). -/
  | write (size : Nat) (hold : Bool)
  /-- XFERB b (R119). -/
  | xferb (b : Byte)
  /-- XFERW w (R120). -/
  | xferw (w : HalfWord)
  /-- WCMD addr (R142). -/
  | wcmd (addr : Byte)
  /-- WDATA v (R143). -/
  | wdata (v : Byte)
  /-- WDATAN n: `n` is a count of bytes (R144). -/
  | wdatan (n : Nat)
  /-- WDATAW w (R145). -/
  | wdataw (w : HalfWord)
  /-- RDATA (R146). -/
  | rdata
  /-- RSTATUS (R147). -/
  | rstatus
  /-- WREG addr, v (R150). -/
  | wreg (addr v : Byte)
  /-- WREG16 addr, v16 (R151). -/
  | wreg16 (addr : Byte) (v16 : HalfWord)
  /-- RREG addr (R152). -/
  | rreg (addr : Byte)
  deriving DecidableEq, Repr

end Sys2Proof
end

