-- ==== Sys2Proof/WellFormed.lean ====
section
/-! DEFINITION. Which operation terms have a command word: a count fits its 23-bit field (30_encoding.md R86, format FN).
Every other operand has exactly its field's width by its type. -/

namespace Sys2Proof

/-- The operation has an encoding. A count too large for `BUF_MAX`, a zero count or a WREG16 address 0xFF is well-formed: it
is an argument error, not an illegal encoding (R91). -/
def Instr.wellFormed : Instr → Bool
  | .write size _ => decide (size < 2 ^ 23)
  | .wdatan n => decide (n < 2 ^ 23)
  | .init _ _ _ _ | .beginFrame | .endFrame | .xferb _ | .xferw _ | .wcmd _ | .wdata _ | .wdataw _ | .rdata | .rstatus
  | .wreg _ _ | .wreg16 _ _ | .rreg _ => true

end Sys2Proof
end

