-- ==== Sys2Proof/Decode.lean ====
section
/-! DEFINITION. Command words (30_encoding.md R86 to R93): the opcode map, the seven formats with their must-be-zero bits, the
decoder, and after it the encoder. A command word is one 32-bit word on the port CMD[31:0] (10_state.md R38), so it has no
byte order. -/

namespace Sys2Proof

/-- The fifteen opcodes of R88. -/
inductive Opcode where
  | init | beginFrame | endFrame | write | xferb | xferw
  | wcmd | wdata | wdatan | wdataw | rdata | rstatus
  | wreg | wreg16 | rreg
  deriving DecidableEq, Repr

/-- The opcode map of R88. -/
def Opcode.code : Opcode → BitVec 8
  | .init => 0x01
  | .beginFrame => 0x02
  | .endFrame => 0x03
  | .write => 0x04
  | .xferb => 0x05
  | .xferw => 0x06
  | .wcmd => 0x10
  | .wdata => 0x11
  | .wdatan => 0x12
  | .wdataw => 0x13
  | .rdata => 0x14
  | .rstatus => 0x15
  | .wreg => 0x18
  | .wreg16 => 0x19
  | .rreg => 0x1A

/-- Every row of R88, in the table's order. -/
def Opcode.all : List Opcode :=
  [.init, .beginFrame, .endFrame, .write, .xferb, .xferw, .wcmd, .wdata, .wdatan, .wdataw, .rdata, .rstatus,
   .wreg, .wreg16, .rreg]

/-- The row of R88 whose opcode is `b`, if there is one. -/
def Opcode.ofByte (b : BitVec 8) : Option Opcode :=
  Opcode.all.find? fun o => o.code == b

/-- The operand formats of R86; `fnSize` is format FN as WDATAN uses it, with bit 23 must-be-zero. -/
inductive CmdFormat where
  | f0 | fb | fw | fr | fr16 | fn | fnSize | fi
  deriving DecidableEq, Repr

/-- The format of each opcode (R88). -/
def Opcode.format : Opcode → CmdFormat
  | .init => .fi
  | .beginFrame | .endFrame | .rdata | .rstatus => .f0
  | .write => .fn
  | .wdatan => .fnSize
  | .xferb | .wcmd | .wdata | .rreg => .fb
  | .xferw | .wdataw => .fw
  | .wreg => .fr
  | .wreg16 => .fr16

/-- The must-be-zero bits of each format (R86). -/
def CmdFormat.mbz : CmdFormat → CmdWord
  | .f0 => 0x00FFFFFF
  | .fb => 0x00FFFF00
  | .fw => 0x00FF0000
  | .fr => 0x00FF0000
  | .fr16 => 0x00000000
  | .fn => 0x00000000
  | .fnSize => 0x00800000
  | .fi => 0x00000000

/-- Why a command word is illegal (R91). -/
inductive Illegal where
  /-- The opcode is not in the table of R88. -/
  | reservedOpcode (opcode : BitVec 8)
  /-- A must-be-zero bit of the opcode's format is 1. -/
  | mbzSet (opcode : Opcode)
  deriving DecidableEq, Repr

/-- The operands of a legal word, taken from the fields R86 and R87 give. -/
def Opcode.build (o : Opcode) (w : CmdWord) : Instr :=
  match o with
  | .init => .init (w.extractLsb' 22 2) (w.extractLsb' 21 1) (w.extractLsb' 16 5) (w.extractLsb' 0 16)
  | .beginFrame => .beginFrame
  | .endFrame => .endFrame
  | .write => .write (w.extractLsb' 0 23).toNat (w.getLsbD 23)
  | .xferb => .xferb (w.extractLsb' 0 8)
  | .xferw => .xferw (w.extractLsb' 0 16)
  | .wcmd => .wcmd (w.extractLsb' 0 8)
  | .wdata => .wdata (w.extractLsb' 0 8)
  | .wdatan => .wdatan (w.extractLsb' 0 23).toNat
  | .wdataw => .wdataw (w.extractLsb' 0 16)
  | .rdata => .rdata
  | .rstatus => .rstatus
  | .wreg => .wreg (w.extractLsb' 8 8) (w.extractLsb' 0 8)
  | .wreg16 => .wreg16 (w.extractLsb' 16 8) (w.extractLsb' 0 16)
  | .rreg => .rreg (w.extractLsb' 0 8)

/-- The decoder of R93: look the opcode up, check the format's must-be-zero bits, extract the fields. It depends on no state. -/
def decode (w : CmdWord) : Except Illegal Instr :=
  match Opcode.ofByte (w.extractLsb' 24 8) with
  | none => .error (.reservedOpcode (w.extractLsb' 24 8))
  | some o => if w &&& o.format.mbz = 0 then .ok (o.build w) else .error (.mbzSet o)

/-- The command word of a well-formed operation (R86 to R88). -/
def encode : Instr → CmdWord
  | .init mode bitOrder wordSize clockDivider => (0x01#8 ++ mode ++ bitOrder ++ wordSize ++ clockDivider : BitVec 32)
  | .beginFrame => (0x02#8 ++ 0#24 : BitVec 32)
  | .endFrame => (0x03#8 ++ 0#24 : BitVec 32)
  | .write size hold => (0x04#8 ++ BitVec.ofBool hold ++ BitVec.ofNat 23 size : BitVec 32)
  | .xferb b => (0x05#8 ++ 0#16 ++ b : BitVec 32)
  | .xferw w => (0x06#8 ++ 0#8 ++ w : BitVec 32)
  | .wcmd addr => (0x10#8 ++ 0#16 ++ addr : BitVec 32)
  | .wdata v => (0x11#8 ++ 0#16 ++ v : BitVec 32)
  | .wdatan n => (0x12#8 ++ 0#1 ++ BitVec.ofNat 23 n : BitVec 32)
  | .wdataw w => (0x13#8 ++ 0#8 ++ w : BitVec 32)
  | .rdata => (0x14#8 ++ 0#24 : BitVec 32)
  | .rstatus => (0x15#8 ++ 0#24 : BitVec 32)
  | .wreg addr v => (0x18#8 ++ 0#8 ++ addr ++ v : BitVec 32)
  | .wreg16 addr v16 => (0x19#8 ++ addr ++ v16 : BitVec 32)
  | .rreg addr => (0x1A#8 ++ 0#16 ++ addr : BitVec 32)

/-- The command word whose low `nbits` bits are `w`'s and whose other bits are 0. Every row of the opcode table has 32 bits. -/
def tableWord (nbits w : Nat) : CmdWord :=
  BitVec.ofNat 32 (w % 2 ^ nbits)

/-- What the decoder reads from a word numbered as spec/opcode_table.json numbers it: bit 0 is bit 0 of the command word. -/
def decodeTableWord (nbits w : Nat) : Option Instr :=
  match decode (tableWord nbits w) with
  | .ok i => some i
  | .error _ => none

end Sys2Proof
end

