-- ==== Sys2Proof/Machine/State.lean ====
section
/-! DEFINITION. The state of SPIFRAME as plain data (10_state.md R20, R21, R33, R36), the host's pending actions, the draws,
the state after reset (70_reset_and_hazards.md R203), and the reasons a step can stop. -/

namespace Sys2Proof.Machine

/-- `ST`, the lifecycle of the channel (R21). -/
inductive Lifecycle where
  /-- CLOSED: not initialised since reset. -/
  | closed
  /-- OPEN: the last INIT succeeded; traffic is allowed. -/
  | opened
  /-- FAILED: an INIT failed; left only by reset. -/
  | failed
  /-- FATAL: a platform transaction failed; left only by reset. -/
  | fatal
  deriving DecidableEq, Repr

/-- The status codes of 60_exceptions.md R170; their numbers are `Status.code`. -/
inductive Status where
  | ok | initFail | fatal | errCmd | errState | errSeq | errArg | errDead
  deriving DecidableEq, Repr

/-- The trace alphabet of R33. -/
inductive Event where
  /-- CFGAPPLIED(cfg): a BusConfig was applied to the link. -/
  | cfgApplied (cfg : BusConfig)
  /-- CSA: chip-select went from deasserted to asserted. -/
  | csa
  /-- CSR: chip-select went from asserted to deasserted. -/
  | csr
  /-- X(o, i): one 8-bit unit, byte `o` sent and byte `i` received. -/
  | x (o i : Byte)
  deriving DecidableEq, Repr

/-- `SEQ` (R36): idle, or the operation the sequencer executes. The model makes an operation one transition, so the only
position inside an operation that a state can show is its first step (DEDUCED, log entry 1). -/
inductive Seq where
  | idle
  | running (op : Instr)
  deriving DecidableEq, Repr

/-- The four status registers of R37, by number. -/
inductive StatusReg where
  | s0 | s1 | s2 | s3
  deriving DecidableEq, Repr

/-- What the outside can do to the block (R31, R38, R200; DESIGN CHOICE, log entries 2 and 14). -/
inductive HostAction where
  /-- The host puts a command word on CMD. -/
  | command (w : CmdWord)
  /-- The host writes one byte of `BUF` (only between operations, R31). -/
  | bufWrite (i : Nat) (b : Byte)
  /-- The block is reset between two operations (R200). -/
  | reset
  /-- The host puts a command word on CMD and the block is reset during the operation, after `k` of its events (R200). -/
  | resetDuring (w : CmdWord) (k : Nat)
  deriving DecidableEq, Repr

/-- The environment's draws (00_scope.md R10): for each kind a list of scripted draws and the position of the next one. Past
the end of a list the draw is an opaque constant of Config applied to the position. These are the model's own fields
(DESIGN CHOICE, log entries 5 to 8). -/
structure Env where
  /-- Bytes the device answers on MISO (R111). -/
  miso : List Byte
  misoAt : Nat
  /-- Outcomes of platform transactions (R112). -/
  tx : List TxDraw
  txAt : Nat
  /-- Whether the platform lets an INIT succeed (R113). -/
  inits : List Bool
  initAt : Nat
  /-- Bytes sent from bytes of `BUF` that have no value (R31). -/
  unwritten : List Byte
  unwrittenAt : Nat
  deriving DecidableEq, Repr

/-- The state. R20's eight fields are `st` to `trace`; `config` is the configuration of R8, which no operation changes; the
last four fields are the model's own. -/
structure State where
  /-- The parameters of the block (R8; log entry 3). -/
  config : Config
  /-- `ST` (R21). -/
  st : Lifecycle
  /-- `CFG`, the BusConfig in force; `none` is the spec's "no value" (R27, R113, R176, R203; log entry 9). -/
  cfg : Option BusConfig
  /-- `CS`, true = asserted (R28). -/
  cs : Bool
  /-- `BUF` (R31): sorted by index; an index not listed has no value (log entry 11). -/
  buf : List Host.Cell
  /-- `RESULT` (R32); `none` is the spec's "no value" before the first write (R32, R203; log entry 10). -/
  result : Option HalfWord
  /-- `LASTST` (R34). -/
  lastst : Status
  /-- `SEQ` (R36). -/
  seq : Seq
  /-- `TRACE` (R33), oldest event first. -/
  trace : List Event
  /-- The response words put out since reset, oldest first (R38, R90; DESIGN CHOICE, log entry 13). -/
  rsps : List CmdWord
  /-- What the host does next, first action first (DESIGN CHOICE, log entry 2). -/
  host : List HostAction
  /-- The closed traces of earlier reset-to-reset epochs, oldest first (R200; DESIGN CHOICE, log entry 12). -/
  epochs : List (List Event)
  /-- The draws. -/
  env : Env
  deriving DecidableEq, Repr

/-- Reasons a step stops with a fault. No operation raises one. -/
inductive Fault where
  /-- The host writes `BUF` at an index at or past `BUF_MAX`, which does not exist (R31, R50). Raised by the host action
  `bufWrite` only. Safe: the model stops where the spec gives no effect (DESIGN CHOICE, log entry 15). -/
  | bufIndex (i : Nat)
  deriving DecidableEq, Repr

/-- Reasons an instruction is refused by the model. The spec's own refusals (R172) are not these: they are next states. -/
inductive Refusal where
  /-- The instruction has no meaning yet. Raised by an arm of exec only. Safe: the model stops. -/
  | notModelled (mnemonic : String)
  deriving DecidableEq, Repr

/-- The draws at the start: nothing scripted, every position 0. -/
def Env.start : Env where
  miso := []
  misoAt := 0
  tx := []
  txAt := 0
  inits := []
  initAt := 0
  unwritten := []
  unwrittenAt := 0

/-- The state after reset (R203), with no host action pending. -/
def State.reset : State where
  config := Config.afterReset
  st := .closed
  cfg := none
  cs := false
  buf := []
  result := none
  lastst := .ok
  seq := .idle
  trace := []
  rsps := []
  host := []
  epochs := []
  env := Env.start

end Sys2Proof.Machine
end

