-- ==== Sys2Proof/Machine/Operands.lean ====
section
/-! DEFINITION. Operand assembly (30_encoding.md R89): the bytes of a word on the wire, the result of received units, the
address of the high byte of a 16-bit register, and the cutting of a large write into chunks. -/

namespace Sys2Proof.Machine

/-- `lo8(v) = v[7:0]` (00_scope.md R10). -/
def lo8 (v : HalfWord) : Byte := v.extractLsb' 0 8

/-- `hi8(v) = v[15:8]` (R10). -/
def hi8 (v : HalfWord) : Byte := v.extractLsb' 8 8

/-- `zext_16(b)` (R10). -/
def zext16 (b : Byte) : HalfWord := b.setWidth 16

/-- A word of `WORD_BITS` bits as units of `UNIT_BITS` bits, high one first where `WORD_HIGH_FIRST` holds (20_memory.md R54, R8): with
R8's widths `hi8(w)` then `lo8(w)`. -/
def wordUnits (p : Config) (w : HalfWord) : List Byte :=
  let lowFirst := (List.range (p.wordBits / p.unitBits)).map fun j => w.extractLsb' (p.unitBits * j) 8
  if p.wordHighFirst then lowFirst.reverse else lowFirst

/-- The word assembled from received units in the same order (R54, R89: with R8's values `i0 ++ i1`). -/
def wordResult (p : Config) (rcv : List Byte) : HalfWord :=
  (if p.wordHighFirst then rcv else rcv.reverse).foldl (fun w i => w <<< p.unitBits ||| i.setWidth 16) 0

/-- The byte a read payload received, zero-extended (R89). A payload of one unit receives exactly one byte (R112), so the last
arm is not taken while CHUNK is at least 1 (log entry 24). -/
def byteResult : List Byte → HalfWord
  | [i] => zext16 i
  | _ => 0

/-- `addr + 1`, where WREG16 puts the high byte (R89, R151; `addr = 0xFF` is refused before this is used). -/
def nextAddr (addr : Byte) : Byte := addr + 1

/-- `ceil(size / CHUNK)` (R10, R118). -/
def chunkCount (chunk size : Nat) : Nat := (size + chunk - 1) / chunk

/-- The first index of chunk `k` (R118: `lo := k * CHUNK`). -/
def chunkLo (chunk k : Nat) : Nat := k * chunk

/-- How many bytes chunk `k` has (R118: from `lo` to `hi = min(size, lo + CHUNK) - 1`). -/
def chunkLen (chunk size k : Nat) : Nat := min size (chunkLo chunk k + chunk) - chunkLo chunk k

/-- `cfg := mode ++ bitOrder ++ wordSize ++ clockDivider` (R113). -/
def initConfig (mode : BitVec 2) (bitOrder : BitVec 1) (wordSize : BitVec 5) (clockDivider : BitVec 16) : BusConfig :=
  mode ++ bitOrder ++ wordSize ++ clockDivider

end Sys2Proof.Machine
end

