-- ==== Sys2Proof/Machine/Flags.lean ====
section
/-! DEFINITION. Status codes and the response word (60_exceptions.md R170, 30_encoding.md R90), the fields of `CFG` and the
predicate `CFG_LEGAL` (10_state.md R22 to R26), and the status registers S0 to S3 (R37). No arithmetic flag exists (R29). -/

namespace Sys2Proof.Machine

/-- The 8-bit code of a status (R170). -/
def Status.code : Status → BitVec 8
  | .ok => 0x00
  | .initFail => 0x01
  | .fatal => 0x02
  | .errCmd => 0x03
  | .errState => 0x04
  | .errSeq => 0x05
  | .errArg => 0x06
  | .errDead => 0x07

/-- The response word (R90): status code in [31:24], zero in [23:16], the result in [15:0], 0 where there is none. -/
def response (c : Status) (result : Option HalfWord) : CmdWord :=
  (c.code ++ 0#8 ++ result.getD 0 : BitVec 32)

/-- `CFG.mode` (R22, R23). -/
def cfgMode (c : BusConfig) : BitVec 2 := c.extractLsb' 22 2

/-- `CFG.bitOrder` (R22, R24). -/
def cfgBitOrder (c : BusConfig) : BitVec 1 := c.extractLsb' 21 1

/-- `CFG.wordSize` (R22, R25). -/
def cfgWordSize (c : BusConfig) : BitVec 5 := c.extractLsb' 16 5

/-- `CFG.clockDivider` (R22, R25), a field of `DIV_BITS` bits (R8). -/
def cfgClockDivider (divBits : Nat) (c : BusConfig) : BitVec divBits := c.extractLsb' 0 divBits

/-- `CFG_LEGAL(cfg)` (R26). -/
def legal (p : Config) (c : BusConfig) : Bool :=
  match p.cfgLegal with
  | .standard => cfgWordSize c == 8 && cfgClockDivider p.divBits c != 0
  | .table accepted => accepted.contains c

/-- The two bits that stand for `ST` in S0 (R37). -/
def lifecycleBits : Lifecycle → BitVec 2
  | .closed => 0
  | .opened => 1
  | .failed => 2
  | .fatal => 3

/-- Busy: `SEQ` is not idle (R37). -/
def busy (s : State) : Bool := s.seq != .idle

/-- S0 STATUS (R37): [1:0] `ST`, [2] `CS`, [3] busy, [7:4] zero. -/
def statusS0 (s : State) : BitVec 8 :=
  0#4 ++ BitVec.ofBool (busy s) ++ BitVec.ofBool s.cs ++ lifecycleBits s.st

/-- S1 CFG (R37); `none` where it has no value. -/
def statusS1 (s : State) : Option (BitVec 24) := s.cfg

/-- S2 RESULT (R37); `none` where it has no value. -/
def statusS2 (s : State) : Option (BitVec 16) := s.result

/-- S3 LASTST (R34, R37). -/
def statusS3 (s : State) : BitVec 8 := s.lastst.code

/-- What the host reads from a status register, widened with zeros to the widest of the four; `none` where the register has no
value. Reading changes nothing and no operation writes these registers directly (R37). -/
def statusRead (r : StatusReg) (s : State) : Option (BitVec 24) :=
  match r with
  | .s0 => some ((statusS0 s).setWidth 24)
  | .s1 => statusS1 s
  | .s2 => (statusS2 s).map (·.setWidth 24)
  | .s3 => some ((statusS3 s).setWidth 24)

end Sys2Proof.Machine
end

