-- ==== Sys2Proof/Machine/Memory.lean ====
section
/-! DEFINITION. The transfer buffer `BUF` as a list of cells (10_state.md R31): sorted by index, no index twice, and an index
that is not listed has no value. -/

namespace Sys2Proof.Machine

/-- The canonical form: indexes strictly rising. An unlisted index has no value and a cell always has one, so no cell equals
what an unlisted index reads as. -/
abbrev Memory.wf (m : List Host.Cell) : Prop :=
  m.Pairwise fun a b => a.1 < b.1

/-- Byte `i`, or `none` where it has no value. -/
def Memory.get : List Host.Cell → Nat → Option Byte
  | [], _ => none
  | (a, b) :: m, i => if a = i then some b else Memory.get m i

/-- Byte `i` takes the value `b`. -/
def Memory.set : List Host.Cell → Nat → Byte → List Host.Cell
  | [], i, b => [(i, b)]
  | (a, c) :: m, i, b =>
    if i < a then (i, b) :: (a, c) :: m else if i = a then (i, b) :: m else (a, c) :: Memory.set m i b

/-- The bytes from index `lo` on take the values of the list, in increasing index (20_memory.md R56). -/
def Memory.setRange (m : List Host.Cell) (lo : Nat) : List Byte → List Host.Cell
  | [] => m
  | b :: bs => Memory.setRange (Memory.set m lo b) (lo + 1) bs

/-- The `n` bytes from index `lo` on lose their value (41_bus_transport.md R118: `BUF[lo..hi] <- no value`). -/
def Memory.forget (m : List Host.Cell) (lo n : Nat) : List Host.Cell :=
  m.filter fun c => !(decide (lo ≤ c.1) && decide (c.1 < lo + n))

end Sys2Proof.Machine
end

