-- ==== Sys2Proof/Machine/Trace.lean ====
section
/-! DEFINITION. Reading a trace (10_state.md R33, R41): whether chip-select is asserted at its end, whether its events are in
an order the wire allows, which BusConfig was applied last, and its frames. -/

namespace Sys2Proof.Machine

/-- Chip-select after a trace: asserted exactly when the last of CSA and CSR is CSA (R41 d). -/
def traceCs (t : List Event) : Bool :=
  t.foldl (fun cs e => match e with
    | .csa => true
    | .csr => false
    | .x _ _ => cs
    | .cfgApplied _ => cs) false

/-- One event after a prefix that leaves chip-select at `cs`: the new level, or `none` where the wire does not allow the event.
CSA needs it deasserted, CSR and a unit need it asserted, a BusConfig is applied only between frames (R33, R41 c). -/
def wireStep (cs : Bool) : Event → Option Bool
  | .csa => if cs then none else some true
  | .csr => if cs then some false else none
  | .x _ _ => if cs then some true else none
  | .cfgApplied _ => if cs then none else some false

/-- Chip-select after a trace from level `cs`, or `none` where some event is out of order (R41 c). -/
def wireScan (cs : Bool) : List Event → Option Bool
  | [] => some cs
  | e :: t => match wireStep cs e with
    | none => none
    | some cs' => wireScan cs' t

/-- The BusConfig of the last CFGAPPLIED of a trace (R41 e). -/
def lastApplied (t : List Event) : Option BusConfig :=
  t.foldl (fun c e => match e with
    | .cfgApplied cfg => some cfg
    | .csa => c
    | .csr => c
    | .x _ _ => c) none

/-- A frame's units, sent and received byte of each, oldest first (R12, R33). -/
abbrev FrameUnits := List (Byte × Byte)

/-- The closed frames of a trace, oldest first; `cur` holds the units since the last CSA. -/
def framesFrom (cur : FrameUnits) : List Event → List FrameUnits
  | [] => []
  | .csa :: t => framesFrom [] t
  | .x o i :: t => framesFrom (cur ++ [(o, i)]) t
  | .csr :: t => cur :: framesFrom [] t
  | .cfgApplied _ :: t => framesFrom cur t

/-- The closed frames of a trace (R33: maximal segments CSA, X..., CSR). -/
def frames (t : List Event) : List FrameUnits := framesFrom [] t

/-- A trace with its open frame closed: what a model that reasons across a reset appends (70_reset_and_hazards.md R200). -/
def closeTrace (t : List Event) : List Event :=
  if traceCs t then t ++ [.csr] else t

end Sys2Proof.Machine
end

