-- ==== Sys2Proof/Machine/Ops.lean ====
section
/-! DEFINITION. The shared operations of the block: the draws, the pseudocode primitives of 00_scope.md R11 (emit, Unit,
Transact, Select, Release, refuse, Fatal, return), the ordered checks of 60_exceptions.md R178, and the register-protocol
frame of 42_register_protocol.md R141. -/

namespace Sys2Proof.Machine

/-! ### Draws (R10) -/

/-- The byte the device answers at draw position `k` (R111). -/
def Env.misoByte (e : Env) (k : Nat) : Byte := (e.miso[k]?).getD (Config.freeMiso k)

/-- The outcome of the platform transaction at draw position `k` (R112). -/
def Env.txDraw (e : Env) (k : Nat) : TxDraw := (e.tx[k]?).getD (Config.freeTx k)

/-- Whether the platform lets the INIT at draw position `k` succeed (R113). -/
def Env.initDraw (e : Env) (k : Nat) : Bool := (e.inits[k]?).getD (Config.freeInit k)

/-- The byte sent from a byte of `BUF` without value, at draw position `k` (R31). -/
def Env.unwrittenByte (e : Env) (k : Nat) : Byte := (e.unwritten[k]?).getD (Config.freeUnwritten k)

/-! ### The wire -/

/-- `emit e` (R11, R33). -/
def emit (e : Event) (s : State) : State := { s with trace := s.trace ++ [e] }

/-- `Select()` (R114). -/
def select (s : State) : State := emit .csa { s with cs := true }

/-- `Release()` (R115): nothing where chip-select is not asserted. -/
def release (s : State) : State := if s.cs then emit .csr { s with cs := false } else s

/-- `Unit(o) -> i` (R111): the received byte is drawn and the event appended. -/
def exchangeUnit (o : Byte) (s : State) : State × Byte :=
  let i := s.env.misoByte s.env.misoAt
  (emit (.x o i) { s with env := { s.env with misoAt := s.env.misoAt + 1 } }, i)

/-- Units back to back, in index order (R112). -/
def exchangeUnits : List Byte → State → State × List Byte
  | [], s => (s, [])
  | o :: os, s =>
    let (s1, i) := exchangeUnit o s
    let (s2, is) := exchangeUnits os s1
    (s2, i :: is)

/-- What a platform transaction answers (R112). -/
inductive TxResult where
  | ok (i : List Byte)
  | fail
  deriving DecidableEq, Repr

/-- `Transact(o[0..n-1])` (R112): its outcome is drawn; on failure the first p units were exchanged, p at most n. -/
def transact (o : List Byte) (s : State) : State × TxResult :=
  let s1 := { s with env := { s.env with txAt := s.env.txAt + 1 } }
  match s.env.txDraw s.env.txAt with
  | .ok =>
    let (s2, i) := exchangeUnits o s1
    (s2, .ok i)
  | .fail p => ((exchangeUnits (o.take p) s1).1, .fail)

/-! ### The end of an operation -/

/-- The operation ends with status `c` (R34, R90, R170): `LASTST` and the response word; a result goes to `RESULT` (R32);
the sequencer is idle again (R36). -/
def finish (c : Status) (r : Option HalfWord) (s : State) : State :=
  { s with
    lastst := c
    seq := .idle
    result := r.or s.result
    rsps := s.rsps ++ [response c r] }

/-- `return` (R171). -/
def ret (s : State) : State := finish .ok none s

/-- `return v` (R171). -/
def retValue (v : HalfWord) (s : State) : State := finish .ok (some v) s

/-- `refuse(code)` (R172): nothing but `LASTST` and the response. -/
def refuse (c : Status) (s : State) : State := finish c none s

/-- `Fatal()` (R176): release chip-select, enter FATAL, lose `CFG`, end the operation with ST_FATAL. -/
def fatalEntry (s : State) : State :=
  finish .fatal none { release s with st := .fatal, cfg := none }

/-! ### Checks (R110, R174, R175, R178) -/

/-- The checks after decoding, in R178's order: FATAL, lifecycle, chip-select, arguments. `cs` is the level the operation needs,
if it needs one. The answer is the status of the first check that fails. -/
def firstFailure (lifecycleOk : Bool) (cs : Option Bool) (argsOk : Bool) (s : State) : Option Status :=
  if s.st = .fatal then some .errDead
  else if !lifecycleOk then some .errState
  else if cs.any (· != s.cs) then some .errSeq
  else if !argsOk then some .errArg
  else none

/-- An operation behind its checks: refused by the first that fails, else `run`. -/
def checked (failure : Option Status) (run : State → State) (s : State) : State :=
  match failure with
  | some c => refuse c s
  | none => run s

/-- The checks of an operation that needs `ST = OPEN` (R174, R175). -/
def trafficFailure (cs : Option Bool) (argsOk : Bool) (s : State) : Option Status :=
  firstFailure (decide (s.st = .opened)) cs argsOk s

/-- The checks of INIT (R113): `ST` is CLOSED or OPEN, `CS = 0`. -/
def initFailure (s : State) : Option Status :=
  firstFailure (decide (s.st = .closed) || decide (s.st = .opened)) (some false) true s

/-- The argument check of WRITE and WDATAN: `1 <= size <= BUF_MAX` (R118, R144, R175). -/
def sizeOk (size : Nat) (s : State) : Bool := decide (1 ≤ size) && decide (size ≤ s.config.bufMax)

/-! ### Sequences of transactions -/

/-- A part of an operation: it went through, with the bytes received, or the operation ended in the fatal entry. -/
inductive Flow where
  | going (s : State) (rcv : List Byte)
  | dead (s : State)
  deriving DecidableEq, Repr

/-- Go on with `k` unless the operation has ended. -/
def Flow.andThen (f : Flow) (k : State → List Byte → Flow) : Flow :=
  match f with
  | .going s rcv => k s rcv
  | .dead s => .dead s

/-- End the operation with `k` unless it has ended. -/
def Flow.close (f : Flow) (k : State → List Byte → State) : State :=
  match f with
  | .going s rcv => k s rcv
  | .dead s => s

/-- A transaction whose failure is the fatal entry (R112: every failure is handled so). -/
def transfer (o : List Byte) (s : State) : Flow :=
  match transact o s with
  | (s1, .ok i) => .going s1 i
  | (s1, .fail) => .dead (fatalEntry s1)

/-- The byte of `BUF` sent from index `i`: its value, or a draw where it has none (R31). -/
def fetchByte (i : Nat) (s : State) : State × Byte :=
  match Memory.get s.buf i with
  | some b => (s, b)
  | none => ({ s with env := { s.env with unwrittenAt := s.env.unwrittenAt + 1 } }, s.env.unwrittenByte s.env.unwrittenAt)

/-- The `n` bytes sent from index `lo` on, in increasing index (R56). -/
def fetchBytes : (lo n : Nat) → State → State × List Byte
  | _, 0, s => (s, [])
  | lo, n + 1, s =>
    let (s1, b) := fetchByte lo s
    let (s2, bs) := fetchBytes (lo + 1) n s1
    (s2, b :: bs)

/-- One chunk of a write from `BUF` (R118): the bytes from `lo` on are exchanged in one transaction; the echo overwrites them,
or on failure they lose their value before the fatal entry. -/
def sendChunk (lo n : Nat) (s : State) : Flow :=
  let (s1, o) := fetchBytes lo n s
  match transact o s1 with
  | (s2, .ok i) => .going { s2 with buf := Memory.setRange s2.buf lo i } i
  | (s2, .fail) => .dead (fatalEntry { s2 with buf := Memory.forget s2.buf lo n })

/-- The chunks of a write from `BUF` (R118), `left` of them still to send, the next being chunk `k`: after a chunk chip-select
is released when `holdk = 0`, and `holdk` is 1 for every chunk but the last, where it is `hold`. -/
def sendChunks (hold : Bool) (chunk size : Nat) : (left k : Nat) → State → Flow
  | 0, _, s => .going s []
  | left + 1, k, s =>
    (sendChunk (chunkLo chunk k) (chunkLen chunk size k) s).andThen fun s1 _ =>
      let holdk := if left = 0 then hold else true
      sendChunks hold chunk size left (k + 1) (if holdk then s1 else release s1)

/-- `write(BUF[0..size-1], size, hold)` (R118), with chip-select asserted. -/
def sendBuffer (size : Nat) (hold : Bool) (s : State) : Flow :=
  sendChunks hold s.config.chunk size (chunkCount s.config.chunk size) 0 s

/-- A payload of given bytes cut at multiples of `chunk` (R141), `left` transactions still to make, `rcv` received so far. -/
def sendPieces (chunk : Nat) : (left : Nat) → (pay rcv : List Byte) → State → Flow
  | 0, _, rcv, s => .going s rcv
  | left + 1, pay, rcv, s =>
    (transfer (pay.take chunk) s).andThen fun s1 i => sendPieces chunk left (pay.drop chunk) (rcv ++ i) s1

/-- A payload of given bytes (R141). -/
def sendBytes (pay : List Byte) (s : State) : Flow :=
  sendPieces s.config.chunk (chunkCount s.config.chunk pay.length) pay [] s

/-- `Frame` (R141): assert select, the selector with select held, the payload, release; the closing release finds chip-select
deasserted. The byte received with the selector is discarded; the answer is what the payload received. -/
def frameWith (sel : Byte) (payload : State → Flow) (s : State) : Flow :=
  (transfer [sel] (select s)).andThen fun s1 _ =>
    (payload s1).andThen fun s2 rcv => .going (release (release s2)) rcv

/-- `Frame(sel, pay)` with a payload of given bytes (R141, R142, R143, R145 to R147). -/
def frame (sel : Byte) (pay : List Byte) (s : State) : Flow :=
  frameWith sel (sendBytes pay) s

/-- `Frame(sel, BUF[0..n-1])`, its payload echoed into `BUF` (R144). -/
def frameBuffer (sel : Byte) (n : Nat) (s : State) : Flow :=
  frameWith sel (sendBuffer n true) s

/-- The checks every register-protocol operation makes (R140), with its argument check. -/
def protocolOp (argsOk : Bool) (run : State → State) (s : State) : State :=
  checked (trafficFailure (some false) argsOk s) run s

/-! ### Reset and the host's window on BUF -/

/-- Reset (R200, R203). The configuration, the host's pending actions and the environment are outside the block and go on; the
epoch's trace is closed and kept. -/
def resetBlock (s : State) : State :=
  { State.reset with
    config := s.config
    host := s.host
    env := s.env
    epochs := s.epochs ++ [closeTrace s.trace] }

/-- A reset during an operation (R200): `before` is the state in which the operation was issued, `done` the state it would have
ended in, and `k` of its events had happened. The operation is abandoned without a response. -/
def resetDuringOp (before done : State) (k : Nat) : State :=
  { State.reset with
    config := before.config
    host := before.host
    env := done.env
    epochs := before.epochs ++
      [closeTrace (before.trace ++ (done.trace.drop before.trace.length).take k)] }

/-- The host writes one byte of `BUF` (R31). -/
def hostBufWrite (i : Nat) (b : Byte) (s : State) : State := { s with buf := Memory.set s.buf i b }

/-- The value of one byte of `BUF` as the host sees it between operations; `none` where it has none (R31). The spec says nothing of a
read at or past `BUF_MAX`; the view has no check of its own and answers `none` there while `BUF` lies inside `BUF_MAX` (DESIGN
CHOICE, log entry 22). -/
def hostBufRead (i : Nat) (s : State) : Option Byte := Memory.get s.buf i

end Sys2Proof.Machine
end

