-- ==== Sys2Proof/Machine/BusTransport.lean ====
section
/-! DEFINITION. The Bus Transport operations: INIT, BEGIN, END, WRITE, XFERB, XFERW (41_bus_transport.md). -/

namespace Sys2Proof.Machine

/-- INIT once its checks pass (R113): the draw can succeed only for a BusConfig in `CFG_LEGAL`. -/
def runInit (c : BusConfig) (s : State) : State :=
  let s1 := { s with env := { s.env with initAt := s.env.initAt + 1 } }
  if s.env.initDraw s.env.initAt && legal s.config c then
    ret (emit (.cfgApplied c) { s1 with cfg := some c, st := .opened })
  else
    finish .initFail none { s1 with st := .failed, cfg := none }

/-- INIT mode, bitOrder, wordSize, clockDivider (R113). -/
def execInit (mode : BitVec 2) (bitOrder : BitVec 1) (wordSize : BitVec 5) (clockDivider : BitVec 16) (s : State) :
    Host.Outcome State Fault Refusal :=
  .next (checked (initFailure s) (runInit (initConfig mode bitOrder wordSize clockDivider)) s)

/-- BEGIN (R116). -/
def execBegin (s : State) : Host.Outcome State Fault Refusal :=
  .next (checked (trafficFailure (some false) true s) (fun s => ret (select s)) s)

/-- END (R117): no chip-select check. -/
def execEnd (s : State) : Host.Outcome State Fault Refusal :=
  .next (checked (trafficFailure none true s) (fun s => ret (release s)) s)

/-- WRITE size, hold (R118). -/
def execWrite (size : Nat) (hold : Bool) (s : State) : Host.Outcome State Fault Refusal :=
  .next (checked (trafficFailure (some true) (sizeOk size s) s)
    (fun s => (sendBuffer size hold s).close fun s _ => ret s) s)

/-- XFERB b (R119). -/
def execXferb (b : Byte) (s : State) : Host.Outcome State Fault Refusal :=
  .next (checked (trafficFailure (some true) true s)
    (fun s => (transfer [b] s).close fun s rcv => retValue (byteResult rcv) s) s)

/-- XFERW w (R120): both units in one transaction. -/
def execXferw (w : HalfWord) (s : State) : Host.Outcome State Fault Refusal :=
  .next (checked (trafficFailure (some true) true s)
    (fun s => (transfer (wordUnits s.config w) s).close fun s rcv => retValue (wordResult s.config rcv) s) s)

end Sys2Proof.Machine
end

