-- ==== Sys2Proof/Machine/RegisterProtocol.lean ====
section
/-! DEFINITION. The Register Protocol operations: the primitives WCMD, WDATA, WDATAN, WDATAW, RDATA, RSTATUS and the composites
WREG, WREG16, RREG (42_register_protocol.md). -/

namespace Sys2Proof.Machine

/-- The write-command frame (R82, R142). -/
def commandFrame (addr : Byte) (s : State) : Flow := frame s.config.selCW [addr] s

/-- The write-data frame with one byte (R82, R143). -/
def dataFrame (v : Byte) (s : State) : Flow := frame s.config.selDW [v] s

/-- The read-data frame (R82, R146). -/
def readFrame (s : State) : Flow := frame s.config.selDR [s.config.dummy] s

/-- The two frames of a register write (R84, R150). -/
def registerWrite (addr v : Byte) (s : State) : Flow :=
  (commandFrame addr s).andThen fun s _ => dataFrame v s

/-- WCMD addr (R142). -/
def execWcmd (addr : Byte) (s : State) : Host.Outcome State Fault Refusal :=
  .next (protocolOp true (fun s => (commandFrame addr s).close fun s _ => ret s) s)

/-- WDATA v (R143). -/
def execWdata (v : Byte) (s : State) : Host.Outcome State Fault Refusal :=
  .next (protocolOp true (fun s => (dataFrame v s).close fun s _ => ret s) s)

/-- WDATAN n (R144). -/
def execWdatan (n : Nat) (s : State) : Host.Outcome State Fault Refusal :=
  .next (protocolOp (sizeOk n s) (fun s => (frameBuffer s.config.selDW n s).close fun s _ => ret s) s)

/-- WDATAW w (R145): both bytes in one frame, high byte first (`WORD_HIGH_FIRST`). -/
def execWdataw (w : HalfWord) (s : State) : Host.Outcome State Fault Refusal :=
  .next (protocolOp true (fun s => (frame s.config.selDW (wordUnits s.config w) s).close fun s _ => ret s) s)

/-- RDATA (R146). -/
def execRdata (s : State) : Host.Outcome State Fault Refusal :=
  .next (protocolOp true (fun s => (readFrame s).close fun s rcv => retValue (byteResult rcv) s) s)

/-- RSTATUS (R147). -/
def execRstatus (s : State) : Host.Outcome State Fault Refusal :=
  .next (protocolOp true
    (fun s => (frame s.config.selSR [s.config.dummy] s).close fun s rcv => retValue (byteResult rcv) s) s)

/-- WREG addr, v (R150). -/
def execWreg (addr v : Byte) (s : State) : Host.Outcome State Fault Refusal :=
  .next (protocolOp true (fun s => (registerWrite addr v s).close fun s _ => ret s) s)

/-- WREG16 addr, v16 (R151): low byte to `addr`, then high byte to `addr + 1`; `addr = 0xFF` is refused. -/
def execWreg16 (addr : Byte) (v16 : HalfWord) (s : State) : Host.Outcome State Fault Refusal :=
  .next (protocolOp (decide (addr.toNat ≤ 0xFE))
    (fun s => ((registerWrite addr (lo8 v16) s).andThen fun s _ =>
      registerWrite (nextAddr addr) (hi8 v16) s).close fun s _ => ret s) s)

/-- RREG addr (R152). -/
def execRreg (addr : Byte) (s : State) : Host.Outcome State Fault Refusal :=
  .next (protocolOp true
    (fun s => ((commandFrame addr s).andThen fun s _ => readFrame s).close fun s rcv =>
      retValue (byteResult rcv) s) s)

end Sys2Proof.Machine
end

