-- ==== Sys2Proof/Machine/Dispatch.lean ====
section
/-! DEFINITION. One arm per operation. -/

namespace Sys2Proof.Machine

def exec (i : Instr) (s : State) : Host.Outcome State Fault Refusal :=
  match i with
  | .init mode bitOrder wordSize clockDivider => Sys2Proof.Machine.execInit mode bitOrder wordSize clockDivider s
  | .beginFrame => Sys2Proof.Machine.execBegin s
  | .endFrame => Sys2Proof.Machine.execEnd s
  | .write size hold => Sys2Proof.Machine.execWrite size hold s
  | .xferb b => Sys2Proof.Machine.execXferb b s
  | .xferw w => Sys2Proof.Machine.execXferw w s
  | .wcmd addr => Sys2Proof.Machine.execWcmd addr s
  | .wdata v => Sys2Proof.Machine.execWdata v s
  | .wdatan n => Sys2Proof.Machine.execWdatan n s
  | .wdataw w => Sys2Proof.Machine.execWdataw w s
  | .rdata => Sys2Proof.Machine.execRdata s
  | .rstatus => Sys2Proof.Machine.execRstatus s
  | .wreg addr v => Sys2Proof.Machine.execWreg addr v s
  | .wreg16 addr v16 => Sys2Proof.Machine.execWreg16 addr v16 s
  | .rreg addr => Sys2Proof.Machine.execRreg addr s

end Sys2Proof.Machine
end

