-- ==== Sys2Proof/Machine/HostPort.lean ====
section
/-! DEFINITION. The host side of the block (10_state.md R38): taking the host's next action, decoding a command word once
(20_memory.md R66), refusing an illegal one (60_exceptions.md R173), reset (70_reset_and_hazards.md R200). -/

namespace Sys2Proof.Machine

/-- The operation of a decoded command word: `SEQ` leaves idle (R36) and the operation runs to its end (R60). -/
def issue (i : Instr) (s : State) : Host.Outcome State Fault Refusal :=
  exec i { s with seq := .running i }

/-- A command word on CMD (R38, R91, R93): an illegal word is refused with ST_ERRCMD before any state is looked at (R173). -/
def command (w : CmdWord) (s : State) : Host.Outcome State Fault Refusal :=
  match decode w with
  | .ok i => issue i s
  | .error _ => .next (refuse .errCmd s)

/-- A command word on CMD and a reset after `k` events of its operation (R200). -/
def commandThenReset (w : CmdWord) (k : Nat) (s : State) : Host.Outcome State Fault Refusal :=
  match command w s with
  | .next done => .next (resetDuringOp s done k)
  | .fault f => .fault f
  | .refused r => .refused r

/-- The host's next action on an idle block. With no action pending the block stays idle (R184). -/
def hostAction (s : State) : Host.Outcome State Fault Refusal :=
  match s.host with
  | [] => .next s
  | .command w :: rest => command w { s with host := rest }
  | .bufWrite i b :: rest =>
    if i < s.config.bufMax then .next (hostBufWrite i b { s with host := rest }) else .fault (.bufIndex i)
  | .reset :: rest => .next (resetBlock { s with host := rest })
  | .resetDuring w k :: rest => commandThenReset w k { s with host := rest }

/-- One step of the block: an operation the sequencer holds runs to its end and nothing else is accepted (R38); an idle block
takes the host's next action. -/
def stepBlock (s : State) : Host.Outcome State Fault Refusal :=
  match s.seq with
  | .running i => exec i s
  | .idle => hostAction s

/-- The command word `w` is the host's next action and the block is idle, so that the next step runs it. -/
def present (w : CmdWord) (s : State) : State :=
  { s with seq := .idle, host := .command w :: s.host }

end Sys2Proof.Machine
end

