-- ==== Sys2Proof/Machine/Step.lean ====
section
/-! DEFINITION. One step of the machine, and placing a command word where the next step takes it. -/

namespace Sys2Proof.Machine

/-- One step (R38, R60): one host action, an operation run to completion. -/
def step (s : State) : Host.Outcome State Fault Refusal := stepBlock s

/-- `s` with the command word of `nbits` bits `w` as the host's next action (log entry 2). -/
def State.withFetchWord (s : State) (nbits w : Nat) : State := present (tableWord nbits w) s

end Sys2Proof.Machine
end

