-- ==== Sys2Proof/Machine/Pins.lean ====
section
/-! DEFINITION. The device side of the block as a view of its state (10_state.md R39), and the bits of one unit on the wire
in the order `CFG.bitOrder` (R24, R35, R55; R35 is informative and no rule depends on it; log entry 18). -/

namespace Sys2Proof.Machine

/-- `CS_n`: low while `CS = 1` (R39), `CS_ACTIVE_LOW` having R8's value true; the other way round where it is false (DEDUCED, PRESUMED: log
entries 17 and 18). -/
def pinCsN (s : State) : Bool := if s.config.csActiveLow then !s.cs else s.cs

/-- The level of `SCLK` between units: `CFG.mode[1]` (R23, R35); `none` where `CFG` has no value and the level is unspecified
(70_reset_and_hazards.md R203). -/
def pinSclkRest (s : State) : Option Bool := s.cfg.map fun c => (cfgMode c).getLsbD 1

/-- The bits of a byte on `MOSI` in the order of the clock periods: most significant first when `bitOrder = 0`, least significant
first when 1 (R24, R35). -/
def serialBits (unitBits : Nat) (bitOrder : BitVec 1) (b : Byte) : List Bool :=
  (List.range unitBits).map fun k => b.getLsbD (if bitOrder = 0 then unitBits - 1 - k else k)

/-- The byte whose bits `MISO` gave in the order of the clock periods (R35). -/
def fromSerialBits (unitBits : Nat) (bitOrder : BitVec 1) (bits : List Bool) : Byte :=
  (List.range unitBits).foldl (fun b k =>
    b ||| (BitVec.setWidth 8 (BitVec.ofBool ((bits[if bitOrder = 0 then unitBits - 1 - k else k]?).getD false)) <<< k)) 0

/-! ### The order in force (R55): `CFG.bitOrder` -/

/-- The bit order of the units the block exchanges: `CFG.bitOrder` (R24, R55); `none` where `CFG` has no value (R27), in states in which
no unit is exchanged. -/
def serialOrder (s : State) : Option (BitVec 1) := s.cfg.map cfgBitOrder

/-- The bits the block puts on `MOSI` for the byte `o`, in the order of the clock periods (R35, R55). -/
def mosiBits (o : Byte) (s : State) : Option (List Bool) :=
  (serialOrder s).map fun order => serialBits s.config.unitBits order o

/-- The byte the block takes from the bits on `MISO`, given in the order of the clock periods (R35, R55). -/
def misoByte (bits : List Bool) (s : State) : Option Byte :=
  (serialOrder s).map fun order => fromSerialBits s.config.unitBits order bits

/-- One unit X(o, i) bit by bit under the BusConfig `c`: the bits on `MOSI` and the bits on `MISO` (R35, R55). -/
def serialUnit (unitBits : Nat) (c : BusConfig) (o i : Byte) : List Bool × List Bool :=
  (serialBits unitBits (cfgBitOrder c) o, serialBits unitBits (cfgBitOrder c) i)

/-- The units of a trace bit by bit, each in the order of the BusConfig in force when it was exchanged: the last CFGAPPLIED before it,
or `cfg` where the trace holds none (R33, R55); `none` for a unit without a BusConfig in force, which no operation exchanges. -/
def serialFrom (unitBits : Nat) (cfg : Option BusConfig) : List Event → List (Option (List Bool × List Bool))
  | [] => []
  | .cfgApplied c :: t => serialFrom unitBits (some c) t
  | .x o i :: t => (cfg.map fun c => serialUnit unitBits c o i) :: serialFrom unitBits cfg t
  | .csa :: t => serialFrom unitBits cfg t
  | .csr :: t => serialFrom unitBits cfg t

/-- All the units since reset bit by bit (R55; `CFG` has no value after reset, R203). -/
def serialTrace (s : State) : List (Option (List Bool × List Bool)) := serialFrom s.config.unitBits none s.trace

end Sys2Proof.Machine
end

