-- ==== Sys2Proof/Machine/RefDevice.lean ====
section
/-! DEFINITION. The reference device of 20_memory.md R64, for simulation only: a checker that says whether a trace is one that
device would produce. It makes no claim about the real controller, and the block's state holds none of it (R40). -/

namespace Sys2Proof.Machine

/-- The reference device's state: the remembered register address, the registers, the status byte. -/
structure RefDevice where
  /-- `DEV.ptr`, no value at start. -/
  ptr : Option Byte
  /-- `DEV.REG[0..255]`, no value at start: sorted by address, an address not listed has no value. -/
  reg : List Host.Cell
  /-- `DEV.status`, a draw. R64 does not say whether it is drawn once or at each status read: here it is one byte for the whole run
  (DESIGN CHOICE, log entry 19). -/
  status : Byte
  deriving DecidableEq, Repr

/-- Why the reference device refuses a run (R64). -/
inductive RefFault where
  /-- A frame with no defined effect. -/
  | undefinedFrame
  /-- A data frame before any write-command frame. -/
  | noPointer
  /-- A read of a register that was never written. -/
  | noValue
  deriving DecidableEq, Repr

/-- The device at start. -/
def RefDevice.start (status : Byte) : RefDevice where
  ptr := none
  reg := []
  status := status

/-- One frame, given as the bytes sent: the second byte the device answers with, or `none` where it is a draw, and the device
afterwards (R64). No frame changes `status`, so every status read of a run answers alike (DESIGN CHOICE, log entry 19). -/
def RefDevice.onFrame (c : Config) (d : RefDevice) (sent : List Byte) : Except RefFault (Option Byte × RefDevice) :=
  match sent with
  | [sel, p] =>
    if sel = c.selCW then .ok (none, { d with ptr := some p })
    else if sel = c.selDW then
      match d.ptr with
      | none => .error .noPointer
      | some a => .ok (none, { d with reg := Memory.set d.reg a.toNat p })
    else if sel = c.selDR ∧ p = c.dummy then
      match d.ptr with
      | none => .error .noPointer
      | some a =>
        match Memory.get d.reg a.toNat with
        | none => .error .noValue
        | some b => .ok (some b, d)
    else if sel = c.selSR ∧ p = c.dummy then .ok (some d.status, d)
    else .error .undefinedFrame
  | _ => .error .undefinedFrame

/-- The frames are a run of the reference device: none refused, and every answer the device fixes is the byte received. -/
def RefDevice.produces (c : Config) : RefDevice → List FrameUnits → Bool
  | _, [] => true
  | d, f :: fs =>
    match d.onFrame c (f.map (·.1)) with
    | .error _ => false
    | .ok (answer, d') =>
      (match answer with
        | none => true
        | some b => (f[1]?).any fun u => u.2 == b) && RefDevice.produces c d' fs

end Sys2Proof.Machine
end

