-- ==== Sys2Proof/Safety.lean ====
section
/-! DEFINITION. The terms claims use: the invariants of 10_state.md R41, the premise that no transaction fails, and running
several operations one after another. -/

namespace Sys2Proof.Machine

/-- R41 (a), R28: chip-select is asserted only while the channel is OPEN. -/
def CsImpliesOpen (s : State) : Prop := s.cs = true → s.st = .opened

/-- R41 (b): the sequencer is idle. -/
def SeqIdle (s : State) : Prop := s.seq = .idle

/-- R41 (c) and (d): the events are in an order the wire allows (CSA and CSR alternate starting with CSA, every unit between a
CSA and the next CSR), and `CS` is what the last of CSA and CSR says. -/
def WireOrdered (s : State) : Prop := wireScan false s.trace = some s.cs

/-- R41 (e), R27: while the channel is OPEN the last CFGAPPLIED carries `CFG`; otherwise `CFG` has no value. -/
def CfgIsLastApplied (s : State) : Prop :=
  (s.st = .opened → s.cfg.isSome ∧ lastApplied s.trace = s.cfg) ∧ (s.st ≠ .opened → s.cfg = none)

/-- `BUF` lies inside its `BUF_MAX` bytes (R31), in the model's canonical form of it (DESIGN CHOICE, log entry 11). -/
def BufInRange (s : State) : Prop :=
  Memory.wf s.buf ∧ ∀ c ∈ s.buf, c.1 < s.config.bufMax

/-- R200: every closed epoch is an allowed trace that ends with chip-select deasserted. -/
def EpochsClosed (s : State) : Prop := ∀ t ∈ s.epochs, wireScan false t = some false

/-- R34, R90: `LASTST` is the status in the last response word, ST_OK before the first. -/
def LastResponseIsStatus (s : State) : Prop :=
  ((s.rsps.getLast?.map fun w => w.extractLsb' 24 8).getD 0) = s.lastst.code

/-- All of it. -/
structure Invariant (s : State) : Prop where
  config : s.config.wf
  cs : CsImpliesOpen s
  seq : SeqIdle s
  wire : WireOrdered s
  cfg : CfgIsLastApplied s
  buf : BufInRange s
  epochs : EpochsClosed s
  status : LastResponseIsStatus s

/-! ### Draws -/

/-- The next `n` platform transactions all succeed (D21: a claim that needs success takes it as a premise). -/
def PlatformOk (s : State) (n : Nat) : Prop := ∀ j, j < n → s.env.txDraw (s.env.txAt + j) = .ok

/-- The outcome drawn for the `j`-th platform transaction from now on. -/
def txOutcome (s : State) (j : Nat) : TxDraw := s.env.txDraw (s.env.txAt + j)

/-- The `n` bytes the device will answer from the `off`-th one from now on. -/
def answers (s : State) (off n : Nat) : List Byte := (List.range' (s.env.misoAt + off) n).map s.env.misoByte

/-- The units in which the bytes `o` are sent and the bytes `i` received. -/
def wireUnits (o i : List Byte) : List Event := List.zipWith Event.x o i

/-- The bytes received in a trace, oldest first. -/
def received (t : List Event) : List Byte :=
  t.filterMap fun e => match e with
    | .x _ i => some i
    | .csa => none
    | .csr => none
    | .cfgApplied _ => none

/-- The units in a trace, the byte sent and the byte received of each, oldest first. -/
def exchanged (t : List Event) : List (Byte × Byte) :=
  t.filterMap fun e => match e with
    | .x o i => some (o, i)
    | .csa => none
    | .csr => none
    | .cfgApplied _ => none

/-! ### Kinds of operations -/

/-- How many bytes of `BUF` an operation can write. -/
def reach : Instr → Nat
  | .write size _ => size
  | .wdatan n => n
  | .init _ _ _ _ | .beginFrame | .endFrame | .xferb _ | .xferw _ | .wcmd _ | .wdata _ | .wdataw _ | .rdata | .rstatus
  | .wreg _ _ | .wreg16 _ _ | .rreg _ => 0

/-- The operations of the Register Protocol (R5, R88). -/
def isProtocol : Instr → Bool
  | .wcmd _ | .wdata _ | .wdatan _ | .wdataw _ | .rdata | .rstatus | .wreg _ _ | .wreg16 _ _ | .rreg _ => true
  | .init _ _ _ _ | .beginFrame | .endFrame | .write _ _ | .xferb _ | .xferw _ => false

/-- The operations that have a result (R32). -/
def hasResult : Instr → Bool
  | .xferb _ | .xferw _ | .rdata | .rstatus | .rreg _ => true
  | .init _ _ _ _ | .beginFrame | .endFrame | .write _ _ | .wcmd _ | .wdata _ | .wdatan _ | .wdataw _ | .wreg _ _
  | .wreg16 _ _ => false

/-! ### How an operation ends -/

/-- The state after a refusal with code `c` (R172): nothing but `LASTST` and the response word; the sequencer is idle. -/
def refusedWith (c : Status) (s : State) : State :=
  { s with lastst := c, seq := .idle, rsps := s.rsps ++ [(c.code ++ 0#24 : BitVec 32)] }

/-- The state after an operation that ended with ST_OK, put `evs` on the wire, left chip-select at `cs`, and used up `units`
received bytes and `txs` transaction outcomes; its result, where it has one, is in `RESULT` and in the response word. -/
def completed (s : State) (cs : Bool) (evs : List Event) (units txs : Nat) (result : Option HalfWord) : State :=
  { s with
    cs := cs
    lastst := .ok
    seq := .idle
    result := result.or s.result
    trace := s.trace ++ evs
    rsps := s.rsps ++ [(0#16 ++ result.getD 0 : BitVec 32)]
    env := { s.env with misoAt := s.env.misoAt + units, txAt := s.env.txAt + txs } }

/-- The state after the fatal entry (R176) of an operation that had put `evs` on the wire, the last of them the release. -/
def died (s : State) (evs : List Event) (units txs : Nat) : State :=
  { s with
    st := .fatal
    cfg := none
    cs := false
    lastst := .fatal
    seq := .idle
    trace := s.trace ++ evs
    rsps := s.rsps ++ [0x02000000#32]
    env := { s.env with misoAt := s.env.misoAt + units, txAt := s.env.txAt + txs } }

/-! ### The shape of an operation's rule -/

/-- The checks of an operation but INIT, in R178's order (R174, R175): `needCs` is the chip-select level it needs, if any, and
`argsOk` its argument check. The first check that fails decides. The third clause is empty for END, which needs no level, and
the fourth for an operation without argument check, for which R175 has no row. -/
def ChecksInOrder (i : Instr) (needCs : Option Bool) (argsOk : State → Bool) : Prop :=
  ∀ s : State,
    (s.st = .fatal → exec i s = .next (refusedWith .errDead s)) ∧
    (s.st = .closed ∨ s.st = .failed → exec i s = .next (refusedWith .errState s)) ∧
    (s.st = .opened → needCs = some (!s.cs) → exec i s = .next (refusedWith .errSeq s)) ∧
    (s.st = .opened → needCs ≠ some (!s.cs) → argsOk s = false → exec i s = .next (refusedWith .errArg s))

/-- The frames of a register-protocol operation as selector and payload bytes (R82, R84). -/
abbrev Plan := List (Byte × List Byte)

/-- How many units the frames have. -/
def planUnits : Plan → Nat
  | [] => 0
  | f :: fs => 1 + f.2.length + planUnits fs

/-- What the frames put on the wire when nothing fails (R80, R84), the first unit receiving the `off`-th answer. -/
def planEvents (s : State) : (off : Nat) → Plan → List Event
  | _, [] => []
  | off, f :: fs =>
    [.csa] ++ wireUnits (f.1 :: f.2) (answers s off (1 + f.2.length)) ++ [.csr] ++ planEvents s (off + 1 + f.2.length) fs

/-- What is on the wire when the frames `before` went out whole and the next frame was cut after the bytes `cut` (R112, R176):
the cut frame is closed by the release. -/
def cutEvents (s : State) (before : Plan) (cut : List Byte) : List Event :=
  planEvents s 0 before ++ [.csa] ++ wireUnits cut (answers s (planUnits before) cut.length) ++ [.csr]

/-- The rule of a register-protocol operation with operands in its command word (R140 to R147, R150 to R152): its checks; when
no transaction fails, exactly the frames of `plan`, each selector and each payload one transaction; when the selector or the
payload of frame `k` fails after `p` of its units, the frames before it, the cut frame, and the fatal entry. An operation that
`reads` has the last byte received, zero-extended, as its result. -/
def ProtocolRule (i : Instr) (plan : Config → Plan) (reads argsOk : Bool) : Prop :=
  ChecksInOrder i (some false) (fun _ => argsOk) ∧
  ∀ s : State, s.config.wf → s.st = .opened → s.cs = false → argsOk = true →
    (PlatformOk s (2 * (plan s.config).length) →
      exec i s = .next (completed s false (planEvents s 0 (plan s.config)) (planUnits (plan s.config))
        (2 * (plan s.config).length)
        (if reads then some ((s.env.misoByte (s.env.misoAt + planUnits (plan s.config) - 1)).setWidth 16) else none))) ∧
    ∀ (before after : Plan) (f : Byte × List Byte) (p : Nat), plan s.config = before ++ f :: after →
      (PlatformOk s (2 * before.length) → txOutcome s (2 * before.length) = .fail p →
        exec i s = .next (died s (cutEvents s before ([f.1].take p))
          (planUnits before + ([f.1].take p).length) (2 * before.length + 1))) ∧
      (PlatformOk s (2 * before.length + 1) → txOutcome s (2 * before.length + 1) = .fail p →
        exec i s = .next (died s (cutEvents s before (f.1 :: f.2.take p))
          (planUnits before + (f.1 :: f.2.take p).length) (2 * before.length + 2)))

/-! ### Runs of several actions -/

/-- The host fills `BUF` from index `lo` on, one byte after another, between two operations (R31). -/
def hostFill (lo : Nat) : List Byte → State → State
  | [], s => s
  | b :: bs, s => hostFill (lo + 1) bs (hostBufWrite lo b s)

/-- Operations issued one after another, each run to completion (R60). -/
def runOps : List Instr → State → Host.Outcome State Fault Refusal
  | [], s => .next s
  | i :: is, s =>
    match exec i s with
    | .next t => runOps is t
    | .fault f => .fault f
    | .refused r => .refused r

end Sys2Proof.Machine
end

