-- ==== Sys2Proof/Certificates/Slice0/Obligations.lean ====
section
/-! DEFINITION. The statements for the provers. Terms they share stand in Sys2Proof/Safety.lean; the tables at the head of this
file are written out from the spec, not from the model. -/

open Sys2Proof Sys2Proof.Machine

/-! ### Tables of the spec -/

/-- The rows of spec/opcode_table.json as mask and match. -/
def Sys2Proof.Claims.opcodeRows : List (CmdWord × CmdWord) :=
  [(0xFF000000, 0x01000000), (0xFFFFFFFF, 0x02000000), (0xFFFFFFFF, 0x03000000), (0xFF000000, 0x04000000),
   (0xFFFFFF00, 0x05000000), (0xFFFF0000, 0x06000000), (0xFFFFFF00, 0x10000000), (0xFFFFFF00, 0x11000000),
   (0xFF800000, 0x12000000), (0xFFFF0000, 0x13000000), (0xFFFFFFFF, 0x14000000), (0xFFFFFFFF, 0x15000000),
   (0xFFFF0000, 0x18000000), (0xFF000000, 0x19000000), (0xFFFFFF00, 0x1A000000)]

/-- A command word is legal when it matches a row (30_encoding.md R88, R91). -/
def Sys2Proof.Claims.legalWord (w : CmdWord) : Prop := ∃ r ∈ Sys2Proof.Claims.opcodeRows, w &&& r.1 = r.2

/-- The operation is INIT. -/
def Sys2Proof.Claims.isInit : Instr → Bool
  | .init _ _ _ _ => true
  | .beginFrame | .endFrame | .write _ _ | .xferb _ | .xferw _ | .wcmd _ | .wdata _ | .wdatan _ | .wdataw _ | .rdata
  | .rstatus | .wreg _ _ | .wreg16 _ _ | .rreg _ => false

/-- The column "needs" of R175: the chip-select level the operation needs. -/
def Sys2Proof.Claims.needsCs : Instr → Option Bool
  | .endFrame => none
  | .write _ _ | .xferb _ | .xferw _ => some true
  | .init _ _ _ _ | .beginFrame | .wcmd _ | .wdata _ | .wdatan _ | .wdataw _ | .rdata | .rstatus | .wreg _ _
  | .wreg16 _ _ | .rreg _ => some false

/-- The column "refused with ST_ERRARG when" of R175. -/
def Sys2Proof.Claims.badArgs (bufMax : Nat) : Instr → Prop
  | .write size _ => size = 0 ∨ size > bufMax
  | .wdatan n => n = 0 ∨ n > bufMax
  | .wreg16 addr _ => addr = 0xFF
  | .init _ _ _ _ | .beginFrame | .endFrame | .xferb _ | .xferw _ | .wcmd _ | .wdata _ | .wdataw _ | .rdata | .rstatus
  | .wreg _ _ | .rreg _ => False

/-- The code column of R170's table. -/
def Sys2Proof.Claims.codeNumber : Status → BitVec 8
  | .ok => 0x00
  | .initFail => 0x01
  | .fatal => 0x02
  | .errCmd => 0x03
  | .errState => 0x04
  | .errSeq => 0x05
  | .errArg => 0x06
  | .errDead => 0x07

/-- `o` is what `BUF[0..n-1]` sends: a byte with a value is sent as it is, one without is anything (R31). -/
def Sys2Proof.Claims.sendsBuf (s : State) (n : Nat) (o : List Byte) : Prop :=
  o.length = n ∧ ∀ j b, j < n → hostBufRead j s = some b → o[j]? = some b

/-- The head of the host's actions is a reset, between operations or during one (R200). -/
def Sys2Proof.Claims.resetNext (s : State) : Prop :=
  (∃ rest, s.host = .reset :: rest) ∨ ∃ w k rest, s.host = .resetDuring w k :: rest

open Sys2Proof.Claims

/-! ### Encoding -/

/-- Command words of every family written out in 95_test_vectors.md (V1 to V14, V15, V17 to V21) decode as it says. -/
def Obligations.SpecWordsDecode : Prop :=
  decode 0x01080040 = .ok (.init 0 0 8 64) ∧ decode 0x01C80010 = .ok (.init 3 0 8 16) ∧
  decode 0x02000000 = .ok .beginFrame ∧ decode 0x03000000 = .ok .endFrame ∧
  decode 0x04800005 = .ok (.write 5 true) ∧ decode 0x04001001 = .ok (.write 4097 false) ∧
  decode 0x050000A5 = .ok (.xferb 0xA5) ∧ decode 0x0600ABCD = .ok (.xferw 0xABCD) ∧
  decode 0x10000030 = .ok (.wcmd 0x30) ∧ decode 0x11000041 = .ok (.wdata 0x41) ∧
  decode 0x12000003 = .ok (.wdatan 3) ∧ decode 0x1300F800 = .ok (.wdataw 0xF800) ∧
  decode 0x14000000 = .ok .rdata ∧ decode 0x15000000 = .ok .rstatus ∧
  decode 0x18003012 = .ok (.wreg 0x30 0x12) ∧ decode 0x1934031F = .ok (.wreg16 0x34 0x031F) ∧
  decode 0x1A000090 = .ok (.rreg 0x90) ∧
  (∀ w ∈ [0x00000000, 0x07000000, 0x16000000, 0x1B000000, 0xFF000000, 0x02000001, 0x10000130, 0x12800003, 0x18013012,
    0x06010000], ∃ e, decode w = .error e)

/-- Decoding the command word of a well-formed operation gives the operation back, with every operand (R86, R87, R88). -/
def Obligations.DecodeOfEncodeIsIdentity : Prop :=
  ∀ i : Instr, i.wellFormed = true → decode (encode i) = .ok i

/-- A word that decodes is the command word of what it decodes to: each legal word has one meaning (R86, R88, R93). -/
def Obligations.EncodeOfDecodeIsIdentity : Prop :=
  ∀ (w : CmdWord) (i : Instr), decode w = .ok i → i.wellFormed = true ∧ encode i = w

/-- R91, R173: a word is rejected by the decoder exactly when it matches no row of the opcode table (so the all-zero word is
rejected), and then the step that takes it changes nothing but `LASTST` and the response, in every state, FATAL included. -/
def Obligations.IllegalWordRefusedInEveryState : Prop :=
  (∀ w : CmdWord, (∃ e, decode w = .error e) ↔ ¬ legalWord w) ∧ ¬ legalWord 0 ∧
  ∀ (s : State) (w : CmdWord) (rest : List HostAction), s.seq = .idle → s.host = .command w :: rest → ¬ legalWord w →
    step s = .next { s with host := rest, lastst := .errCmd, rsps := s.rsps ++ [0x03000000#32] }

/-! ### The step and the host's window -/

/-- A step on an idle block whose next action is a command word runs exactly the decoded operation, with the action taken and
`SEQ` holding the operation (R36, R38, R60); a command word presented with `withFetchWord` is that action. -/
def Obligations.StepRunsDecodedOperation : Prop :=
  (∀ (s : State) (w : CmdWord) (i : Instr) (rest : List HostAction), s.seq = .idle → s.host = .command w :: rest →
    decode w = .ok i → step s = exec i { s with host := rest, seq := .running i }) ∧
  ∀ (s : State) (w : Nat) (i : Instr), decode (BitVec.ofNat 32 w) = .ok i → w < 2 ^ 32 →
    step (s.withFetchWord 32 w) = exec i { s with seq := .running i }

/-- The host writes a byte of `BUF` between operations (R31): that byte reads back, every other byte and everything else stays;
at or past `BUF_MAX` the model faults (its own choice, log entry 15). With no action pending the idle block stays as it is
(R184): that a step then is one that changes nothing is the model's own choice (log entry 2). -/
def Obligations.HostWritesOneByteOfBuf : Prop :=
  ∀ (s : State), s.seq = .idle →
    (s.host = [] → step s = .next s) ∧
    ∀ (i : Nat) (b : Byte) (rest : List HostAction), s.host = .bufWrite i b :: rest →
      (i < s.config.bufMax → ∃ t, step s = .next t ∧
        (∀ j, hostBufRead j t = if j = i then some b else hostBufRead j s) ∧
        t = { s with host := rest, buf := t.buf }) ∧
      (s.config.bufMax ≤ i → step s = .fault (.bufIndex i))

/-! ### Reset -/

/-- R203: the state after reset, field by field, with the status register S0 and the pins that follow it. That a byte of `BUF` at or
past `BUF_MAX` reads as none too is the model's own choice (log entry 22). -/
def Obligations.ResetLeavesSpecState : Prop :=
  State.reset.st = .closed ∧ State.reset.cfg = none ∧ State.reset.cs = false ∧ pinCsN State.reset = true ∧
  (∀ j, hostBufRead j State.reset = none) ∧ State.reset.result = none ∧ statusS3 State.reset = 0x00 ∧
  State.reset.seq = .idle ∧ State.reset.trace = [] ∧ statusS0 State.reset = 0x00 ∧ pinSclkRest State.reset = none

/-- R200: a reset from any state brings the block to the state of R203; the configuration, the host and the environment go on,
the epoch's trace is kept with a CSR at its end where chip-select was asserted (log entry 12), that is where the trace says so
and, if the events are in order (R41), where `CS` was 1. A reset during an operation does the same after a prefix of the
operation's events, chip-select being where those events lead from `CS`, and puts out no response (log entries 13, 14); an
illegal word has no events, so a reset during it is a reset at once. -/
def Obligations.ResetRestartsFromAnyState : Prop :=
  ∀ (s : State), s.seq = .idle →
    (∀ rest, s.host = .reset :: rest →
      step s = .next { State.reset with
        config := s.config, host := rest, env := s.env,
        epochs := s.epochs ++ [if traceCs s.trace then s.trace ++ [.csr] else s.trace] }) ∧
    (∀ w k rest e, s.host = .resetDuring w k :: rest → decode w = .error e →
      step s = .next { State.reset with
        config := s.config, host := rest, env := s.env,
        epochs := s.epochs ++ [if traceCs s.trace then s.trace ++ [.csr] else s.trace] }) ∧
    (WireOrdered s → traceCs s.trace = s.cs) ∧
    (∀ w k rest i, s.host = .resetDuring w k :: rest → decode w = .ok i →
      ∃ d, exec i { s with host := rest, seq := .running i } = .next d ∧
        ∃ t E, step s = .next t ∧ d.trace = s.trace ++ E ∧
          t = { State.reset with
            config := s.config, host := rest, env := t.env,
            epochs := s.epochs ++ [if traceCs (s.trace ++ E.take k) then s.trace ++ E.take k ++ [.csr]
              else s.trace ++ E.take k] } ∧
          (WireOrdered s → wireScan s.cs (E.take k) = some (traceCs (s.trace ++ E.take k))))

/-! ### Checks and refusals -/

/-- R174: in FATAL every operation is refused with ST_ERRDEAD, in CLOSED every one but INIT and in FAILED every one, INIT
included, with ST_ERRSTATE. -/
def Obligations.LifecycleRefusals : Prop :=
  ∀ (i : Instr) (s : State),
    (s.st = .fatal → exec i s = .next (refusedWith .errDead s)) ∧
    (s.st = .closed → isInit i = false → exec i s = .next (refusedWith .errState s)) ∧
    (s.st = .failed → exec i s = .next (refusedWith .errState s))

/-- R175: the table of ST_ERRSEQ and ST_ERRARG, chip-select before arguments; an operation whose row holds is not refused, and an
INIT with a bad BusConfig then ends with ST_INITFAIL. -/
def Obligations.ChipSelectAndArgumentRefusals : Prop :=
  ∀ (i : Instr) (s : State), s.st = .opened →
    (needsCs i = some (!s.cs) → exec i s = .next (refusedWith .errSeq s)) ∧
    (needsCs i ≠ some (!s.cs) → badArgs s.config.bufMax i → exec i s = .next (refusedWith .errArg s)) ∧
    (needsCs i ≠ some (!s.cs) → ¬ badArgs s.config.bufMax i →
      ∃ t, exec i s = .next t ∧ t.lastst ∈ [Status.ok, .initFail, .fatal] ∧
        ∀ m b w d, i = .init m b w d → legal s.config (m ++ b ++ w ++ d) = false → t.lastst = .initFail)

/-- R172: a command word that ends with a refusal code, legal or not, changed nothing but `LASTST` and put out one response, so that
the next operation finds the state it would have found without it. -/
def Obligations.RefusalChangesNothing : Prop :=
  ∀ (w : CmdWord) (s t : State), s.seq = .idle → command w s = .next t →
    t.lastst ∈ [Status.errCmd, .errState, .errSeq, .errArg, .errDead] →
    t = { s with lastst := t.lastst, rsps := s.rsps ++ [(t.lastst.code ++ 0#24 : BitVec 32)] }

/-- R178: one command word, one code, the first check that fails in the fixed order deciding it, then execution. -/
def Obligations.FirstFailingCheckDecides : Prop :=
  ∀ (s : State) (w : CmdWord) (rest : List HostAction), s.seq = .idle → s.host = .command w :: rest →
    ∃ t, step s = .next t ∧ t.rsps.length = s.rsps.length + 1 ∧
      (¬ legalWord w → t.lastst = .errCmd) ∧
      ∀ i, decode w = .ok i →
        (s.st = .fatal → t.lastst = .errDead) ∧
        (s.st = .failed ∨ (s.st = .closed ∧ isInit i = false) → t.lastst = .errState) ∧
        (s.st = .opened ∨ (s.st = .closed ∧ isInit i = true) →
          (needsCs i = some (!s.cs) → t.lastst = .errSeq) ∧
          (needsCs i ≠ some (!s.cs) → badArgs s.config.bufMax i → t.lastst = .errArg) ∧
          (needsCs i ≠ some (!s.cs) → ¬ badArgs s.config.bufMax i →
            if isInit i then t.lastst = .ok ∨ t.lastst = .initFail else t.lastst = .ok ∨ t.lastst = .fatal))

/-! ### Bus Transport operations -/

/-- R113, INIT: its encoding; its checks; then, where the draw succeeds and the BusConfig is in `CFG_LEGAL`, `CFG` holds it whole,
`ST` is OPEN and CFGAPPLIED is emitted; otherwise `ST` is FAILED and `CFG` has no value. Chip-select and the wire are not touched.
-/
def Obligations.InitAppliesConfigOrFails : Prop :=
  (∀ (mode : BitVec 2) (bitOrder : BitVec 1) (wordSize : BitVec 5) (clockDivider : BitVec 16),
    decode (0x01#8 ++ mode ++ bitOrder ++ wordSize ++ clockDivider : BitVec 32) =
      .ok (.init mode bitOrder wordSize clockDivider)) ∧
  ∀ (mode : BitVec 2) (bitOrder : BitVec 1) (wordSize : BitVec 5) (clockDivider : BitVec 16) (s : State),
    (s.st = .fatal → exec (.init mode bitOrder wordSize clockDivider) s = .next (refusedWith .errDead s)) ∧
    (s.st = .failed → exec (.init mode bitOrder wordSize clockDivider) s = .next (refusedWith .errState s)) ∧
    (s.st = .closed ∨ s.st = .opened → s.cs = true →
      exec (.init mode bitOrder wordSize clockDivider) s = .next (refusedWith .errSeq s)) ∧
    (s.st = .closed ∨ s.st = .opened → s.cs = false →
      let cfg : BusConfig := mode ++ bitOrder ++ wordSize ++ clockDivider
      let s1 : State := { s with seq := .idle, env := { s.env with initAt := s.env.initAt + 1 } }
      (s.env.initDraw s.env.initAt = true → legal s.config cfg = true →
        exec (.init mode bitOrder wordSize clockDivider) s = .next { s1 with
          cfg := some cfg, st := .opened, lastst := .ok, trace := s.trace ++ [.cfgApplied cfg],
          rsps := s.rsps ++ [0x00000000#32] }) ∧
      (s.env.initDraw s.env.initAt = false ∨ legal s.config cfg = false →
        exec (.init mode bitOrder wordSize clockDivider) s = .next { s1 with
          cfg := none, st := .failed, lastst := .initFail, rsps := s.rsps ++ [0x01000000#32] }))

/-- R22: a successful INIT leaves in `CFG` bits [23:0] of its command word, and the four fields of `CFG` are its operands. -/
def Obligations.CfgFieldsAreInitOperands : Prop :=
  ∀ (mode : BitVec 2) (bitOrder : BitVec 1) (wordSize : BitVec 5) (clockDivider : BitVec 16) (s t : State),
    s.config.wf → exec (.init mode bitOrder wordSize clockDivider) s = .next t → t.lastst = .ok →
    ∃ c, t.cfg = some c ∧ c = (encode (.init mode bitOrder wordSize clockDivider)).extractLsb' 0 24 ∧
      cfgMode c = mode ∧ cfgBitOrder c = bitOrder ∧ cfgWordSize c = wordSize ∧
      (cfgClockDivider s.config.divBits c).toNat = clockDivider.toNat

/-- R26: the default `CFG_LEGAL`; a BusConfig outside `CFG_LEGAL` always makes INIT fail, whatever is drawn, and one inside it may
still fail: it does where the draw says so. That a platform's own predicate is a table which accepts exactly its entries is the
model's form of it (log entry 4). -/
def Obligations.IllegalBusConfigAlwaysFails : Prop :=
  (∀ (mode : BitVec 2) (bitOrder : BitVec 1) (wordSize : BitVec 5) (clockDivider : BitVec 16),
    ∀ p : Config, p.cfgLegal = .standard → p.divBits = 16 →
      (legal p (mode ++ bitOrder ++ wordSize ++ clockDivider) = true ↔ wordSize = 8 ∧ 1 ≤ clockDivider.toNat)) ∧
  (∀ (p : Config) (l : List BusConfig) (c : BusConfig), p.cfgLegal = .table l → (legal p c = true ↔ c ∈ l)) ∧
  ∀ (mode : BitVec 2) (bitOrder : BitVec 1) (wordSize : BitVec 5) (clockDivider : BitVec 16) (s : State),
    s.st = .closed ∨ s.st = .opened → s.cs = false →
    legal s.config (mode ++ bitOrder ++ wordSize ++ clockDivider) = false ∨
      s.env.initDraw s.env.initAt = false →
    ∃ t, exec (.init mode bitOrder wordSize clockDivider) s = .next t ∧ t.st = .failed ∧ t.lastst = .initFail ∧ t.cfg = none

/-- R116, BEGIN: its encoding; its checks; then `CS` is 1 and CSA is emitted, nothing else, so it makes no draw and cannot fail; an
END directly after it makes the empty frame CSA, CSR. -/
def Obligations.BeginAssertsChipSelect : Prop :=
  decode 0x02000000 = .ok .beginFrame ∧
  ChecksInOrder .beginFrame (some false) (fun _ => true) ∧
  ∀ s : State, s.st = .opened → s.cs = false →
    exec .beginFrame s = .next { s with
      cs := true, lastst := .ok, seq := .idle, trace := s.trace ++ [.csa], rsps := s.rsps ++ [0#32] } ∧
    ∃ t, runOps [.beginFrame, .endFrame] s = .next t ∧ t.trace = s.trace ++ [.csa, .csr] ∧ t.cs = false

/-- R117, END: its encoding; accepted with `CS = 1`, which it clears with a CSR, and with `CS = 0`, where it changes and emits
nothing; it has no chip-select check. -/
def Obligations.EndReleasesChipSelect : Prop :=
  decode 0x03000000 = .ok .endFrame ∧
  ChecksInOrder .endFrame none (fun _ => true) ∧
  ∀ s : State, s.st = .opened →
    (s.cs = true → exec .endFrame s = .next { s with
      cs := false, lastst := .ok, seq := .idle, trace := s.trace ++ [.csr], rsps := s.rsps ++ [0#32] }) ∧
    (s.cs = false → exec .endFrame s = .next { s with lastst := .ok, seq := .idle, rsps := s.rsps ++ [0#32] })

/-- R118, WRITE: its encoding; its checks; when no chunk fails, `BUF[0..size-1]` goes out in order, the echo of byte j is in
`BUF[j]`, every other byte of `BUF` is unchanged, chip-select is left at `hold` with a CSR only at the end; when chunk `k` fails
after `p` of its units, the chunks before it are whole, its own bytes of `BUF` have no value, the rest is untouched, and the fatal
entry releases chip-select whatever `hold` was. -/
def Obligations.WriteSendsBufferAndStoresEcho : Prop :=
  ∀ (size : Nat) (hold : Bool),
    (size < 2 ^ 23 →
      decode (0x04#8 ++ BitVec.ofBool hold ++ BitVec.ofNat 23 size : BitVec 32) = .ok (.write size hold)) ∧
    ChecksInOrder (.write size hold) (some true) (fun s => decide (1 ≤ size ∧ size ≤ s.config.bufMax)) ∧
    ∀ s : State, s.config.wf → s.st = .opened → s.cs = true → 1 ≤ size → size ≤ s.config.bufMax →
      (PlatformOk s (chunkCount s.config.chunk size) → ∃ t o, exec (.write size hold) s = .next t ∧ sendsBuf s size o ∧
        (∀ j, hostBufRead j t = if j < size then (answers s 0 size)[j]? else hostBufRead j s) ∧
        t = { completed s hold (wireUnits o (answers s 0 size) ++ if hold then [] else [.csr]) size
            (chunkCount s.config.chunk size) none with
          buf := t.buf
          env := { s.env with
            misoAt := s.env.misoAt + size
            txAt := s.env.txAt + chunkCount s.config.chunk size
            unwrittenAt := t.env.unwrittenAt } }) ∧
      ∀ k p, k < chunkCount s.config.chunk size → PlatformOk s k → txOutcome s k = .fail p →
        let lo := k * s.config.chunk
        let len := min s.config.chunk (size - lo)
        ∃ t o, exec (.write size hold) s = .next t ∧ sendsBuf s (lo + min p len) o ∧
          (∀ j, hostBufRead j t =
            if j < lo then (answers s 0 lo)[j]? else if j < lo + len then none else hostBufRead j s) ∧
          t = { died s (wireUnits o (answers s 0 (lo + min p len)) ++ [.csr]) (lo + min p len) (k + 1) with
            buf := t.buf
            env := { s.env with
              misoAt := s.env.misoAt + (lo + min p len)
              txAt := s.env.txAt + (k + 1)
              unwrittenAt := t.env.unwrittenAt } }

/-- R119, XFERB: its encoding; its checks; one unit, the received byte zero-extended in `RESULT` and the response, `CS` stays 1;
or the fatal entry after 0 or 1 unit. -/
def Obligations.XferbExchangesOneByte : Prop :=
  ∀ b : Byte,
    decode (0x05#8 ++ 0#16 ++ b : BitVec 32) = .ok (.xferb b) ∧
    ChecksInOrder (.xferb b) (some true) (fun _ => true) ∧
    ∀ s : State, s.st = .opened → s.cs = true →
      (txOutcome s 0 = .ok →
        exec (.xferb b) s = .next (completed s true [.x b (s.env.misoByte s.env.misoAt)] 1 1
          (some ((s.env.misoByte s.env.misoAt).setWidth 16)))) ∧
      ∀ p, txOutcome s 0 = .fail p →
        exec (.xferb b) s = .next (died s
          ((if p = 0 then [] else [.x b (s.env.misoByte s.env.misoAt)]) ++ [.csr]) (min p 1) 1)

/-- R120, R54, XFERW: its encoding; its checks; the high byte then the low byte in one transaction, the first received byte the
high byte of `RESULT`, `CS` stays 1; or the fatal entry after 0, 1 or 2 units; when nothing fails its trace is that of XFERB of
the high byte and XFERB of the low byte. That both are the other way round where the parameter `WORD_HIGH_FIRST` of R8 is false is
the model's reading (log entry 17). -/
def Obligations.XferwExchangesWordHighByteFirst : Prop :=
  ∀ hi lo : Byte,
    decode (0x06#8 ++ 0#8 ++ hi ++ lo : BitVec 32) = .ok (.xferw (hi ++ lo)) ∧
    ChecksInOrder (.xferw (hi ++ lo)) (some true) (fun _ => true) ∧
    ∀ s : State, s.config.wf → s.st = .opened → s.cs = true →
      ∀ first second : Byte, (first, second) = (if s.config.wordHighFirst then (hi, lo) else (lo, hi)) →
      let i0 := s.env.misoByte s.env.misoAt
      let i1 := s.env.misoByte (s.env.misoAt + 1)
      (txOutcome s 0 = .ok →
        exec (.xferw (hi ++ lo)) s = .next (completed s true [.x first i0, .x second i1] 2 1
          (some (if s.config.wordHighFirst then i0 ++ i1 else i1 ++ i0)))) ∧
      (∀ p, txOutcome s 0 = .fail p →
        exec (.xferw (hi ++ lo)) s = .next (died s ([Event.x first i0, .x second i1].take p ++ [.csr]) (min p 2) 1)) ∧
      (PlatformOk s 2 → ∃ t, runOps [.xferb first, .xferb second] s = .next t ∧
        t.trace = s.trace ++ [.x first i0, .x second i1])

/-! ### Register Protocol operations -/

/-- R142, WCMD: its encoding; the frame `SEL_CW`, `addr`, for every address; nothing else changes. -/
def Obligations.WcmdSendsCommandFrame : Prop :=
  ∀ addr : Byte, decode (0x10#8 ++ 0#16 ++ addr : BitVec 32) = .ok (.wcmd addr) ∧
    ProtocolRule (.wcmd addr) (fun c => [(c.selCW, [addr])]) false true

/-- R143, WDATA: its encoding; the frame `SEL_DW`, `v`; nothing else changes. -/
def Obligations.WdataSendsDataFrame : Prop :=
  ∀ v : Byte, decode (0x11#8 ++ 0#16 ++ v : BitVec 32) = .ok (.wdata v) ∧
    ProtocolRule (.wdata v) (fun c => [(c.selDW, [v])]) false true

/-- R144, WDATAN: its encoding; its checks; when nothing fails, one frame `SEL_DW`, `BUF[0..n-1]` with a single CSA and CSR, the
echo of byte j in `BUF[j]`, every other byte of `BUF` unchanged; when the selector fails `BUF` is untouched; when chunk `k` of the
payload fails its bytes of `BUF` have no value. -/
def Obligations.WdatanSendsBufferInOneFrame : Prop :=
  ∀ n : Nat,
    (n < 2 ^ 23 → decode (0x12#8 ++ 0#1 ++ BitVec.ofNat 23 n : BitVec 32) = .ok (.wdatan n)) ∧
    ChecksInOrder (.wdatan n) (some false) (fun s => decide (1 ≤ n ∧ n ≤ s.config.bufMax)) ∧
    ∀ s : State, s.config.wf → s.st = .opened → s.cs = false → 1 ≤ n → n ≤ s.config.bufMax →
      (PlatformOk s (1 + chunkCount s.config.chunk n) → ∃ t o, exec (.wdatan n) s = .next t ∧ sendsBuf s n o ∧
        (∀ j, hostBufRead j t = if j < n then (answers s 1 n)[j]? else hostBufRead j s) ∧
        t = { completed s false ([.csa] ++ wireUnits (s.config.selDW :: o) (answers s 0 (1 + n)) ++ [.csr]) (1 + n)
            (1 + chunkCount s.config.chunk n) none with
          buf := t.buf
          env := { s.env with
            misoAt := s.env.misoAt + (1 + n)
            txAt := s.env.txAt + (1 + chunkCount s.config.chunk n)
            unwrittenAt := t.env.unwrittenAt } }) ∧
      (∀ p, txOutcome s 0 = .fail p → exec (.wdatan n) s = .next (died s
        ([.csa] ++ wireUnits ([s.config.selDW].take p) (answers s 0 (min p 1)) ++ [.csr]) (min p 1) 1)) ∧
      ∀ k p, k < chunkCount s.config.chunk n → PlatformOk s (1 + k) → txOutcome s (1 + k) = .fail p →
        let lo := k * s.config.chunk
        let len := min s.config.chunk (n - lo)
        ∃ t o, exec (.wdatan n) s = .next t ∧ sendsBuf s (lo + min p len) o ∧
          (∀ j, hostBufRead j t =
            if j < lo then (answers s 1 lo)[j]? else if j < lo + len then none else hostBufRead j s) ∧
          t = { died s ([.csa] ++ wireUnits (s.config.selDW :: o) (answers s 0 (1 + (lo + min p len))) ++ [.csr])
              (1 + (lo + min p len)) (1 + (k + 1)) with
            buf := t.buf
            env := { s.env with
              misoAt := s.env.misoAt + (1 + (lo + min p len))
              txAt := s.env.txAt + (1 + (k + 1))
              unwrittenAt := t.env.unwrittenAt } }

/-- R145, R54, WDATAW: its encoding; one frame `SEL_DW`, high byte, low byte; nothing else changes. That the low byte goes first
where the parameter `WORD_HIGH_FIRST` of R8 is false is the model's reading (log entry 17). -/
def Obligations.WdatawSendsWordHighByteFirst : Prop :=
  ∀ hi lo : Byte, decode (0x13#8 ++ 0#8 ++ hi ++ lo : BitVec 32) = .ok (.wdataw (hi ++ lo)) ∧
    ProtocolRule (.wdataw (hi ++ lo)) (fun c => [(c.selDW, if c.wordHighFirst then [hi, lo] else [lo, hi])]) false true

/-- R146, RDATA: its encoding; the frame `SEL_DR`, `DUMMY`; the byte received with `DUMMY` is the result. -/
def Obligations.RdataReturnsSecondByte : Prop :=
  decode 0x14000000 = .ok .rdata ∧ ProtocolRule .rdata (fun c => [(c.selDR, [c.dummy])]) true true

/-- R147, RSTATUS: its encoding; the frame `SEL_SR`, `DUMMY`; the byte received with `DUMMY` is the result. -/
def Obligations.RstatusReturnsSecondByte : Prop :=
  decode 0x15000000 = .ok .rstatus ∧ ProtocolRule .rstatus (fun c => [(c.selSR, [c.dummy])]) true true

/-- R150, WREG: its encoding; the frame `SEL_CW`, `addr`, then the frame `SEL_DW`, `v`. -/
def Obligations.WregSendsTwoFrames : Prop :=
  ∀ addr v : Byte, decode (0x18#8 ++ 0#8 ++ addr ++ v : BitVec 32) = .ok (.wreg addr v) ∧
    ProtocolRule (.wreg addr v) (fun c => [(c.selCW, [addr]), (c.selDW, [v])]) false true

/-- R151, WREG16: its encoding; four frames, low byte to `addr`, then high byte to `addr + 1`; `addr = 0xFF` is refused before the
first. -/
def Obligations.Wreg16SendsLowThenHighByte : Prop :=
  ∀ (addr hi lo : Byte) (next : Byte), (addr ≠ 0xFF → next.toNat = addr.toNat + 1) →
    decode (0x19#8 ++ addr ++ hi ++ lo : BitVec 32) = .ok (.wreg16 addr (hi ++ lo)) ∧
    ProtocolRule (.wreg16 addr (hi ++ lo))
      (fun c => [(c.selCW, [addr]), (c.selDW, [lo]), (c.selCW, [next]), (c.selDW, [hi])]) false (decide (addr ≠ 0xFF))

/-- R152, RREG: its encoding; the frame `SEL_CW`, `addr`, then the frame `SEL_DR`, `DUMMY`; the last byte received is the result. -/
def Obligations.RregReturnsLastByte : Prop :=
  ∀ addr : Byte, decode (0x1A#8 ++ 0#16 ++ addr : BitVec 32) = .ok (.rreg addr) ∧
    ProtocolRule (.rreg addr) (fun c => [(c.selCW, [addr]), (c.selDR, [c.dummy])]) true true

/-! ### Rules over all operations -/

/-- R216, R179: every operation ends: exec answers a next state with the sequencer idle. -/
def Obligations.EveryOperationEnds : Prop :=
  ∀ (i : Instr) (s : State), ∃ t, exec i s = .next t ∧ t.seq = .idle

/-- R90, R34: every command word, legal or not, produces exactly one response word: the status code (the number R170's table gives
it), which `LASTST` holds too, a zero byte, and the result where the operation has one and ended with ST_OK, else 0; for INIT
success is ST_OK and failure ST_INITFAIL, anything else a refusal. -/
def Obligations.OneResponseWordPerOperation : Prop :=
  ∀ (w : CmdWord) (s : State), ∃ t r, command w s = .next t ∧ t.rsps = s.rsps ++ [r] ∧
    r.extractLsb' 24 8 = codeNumber t.lastst ∧ statusS3 t = codeNumber t.lastst ∧ r.extractLsb' 16 8 = 0 ∧
    (∀ i, decode w = .ok i → t.lastst = .ok → hasResult i = true → t.result = some (r.extractLsb' 0 16)) ∧
    ((t.lastst ≠ .ok ∨ ∀ i, decode w = .ok i → hasResult i = false) → r.extractLsb' 0 16 = 0) ∧
    ∀ m b d c, decode w = .ok (.init m b d c) → t.lastst ∈ [Status.ok, .initFail, .errDead, .errState, .errSeq]

/-- R32: `RESULT` is written only by XFERB, XFERW, RDATA, RSTATUS and RREG ending with ST_OK: the byte operations write the byte
received last with zero in [15:8], XFERW the two bytes received last, the first received high (R54, R120); the response word
carries the same value; otherwise `RESULT` is unchanged; before the first write it has no value. That the first received is the
low byte where the parameter `WORD_HIGH_FIRST` of R8 is false is the model's reading (log entry 17). -/
def Obligations.ResultWrittenOnlyBySuccessfulReads : Prop :=
  State.reset.result = none ∧
  ∀ (i : Instr) (s t : State), s.config.wf → exec i s = .next t →
    (t.lastst = .ok → hasResult i = true → ∃ v w, t.result = some v ∧ t.rsps = s.rsps ++ [w] ∧ w.extractLsb' 0 16 = v ∧
      ((∀ x, i ≠ .xferw x) → ∃ b, (received t.trace).getLast? = some b ∧ v.extractLsb' 0 8 = b ∧ v.extractLsb' 8 8 = 0) ∧
      (∀ x, i = .xferw x → ∃ l i0 i1, received t.trace = l ++ [i0, i1] ∧
        v = if s.config.wordHighFirst then i0 ++ i1 else i1 ++ i0)) ∧
    (t.lastst ≠ .ok ∨ hasResult i = false → t.result = s.result)

/-- R21: the only transitions of `ST`: CLOSED or OPEN to OPEN or FAILED by an INIT, OPEN to FATAL by a fatal entry, any to CLOSED
by a reset, which always does it. -/
def Obligations.LifecycleTransitions : Prop :=
  (∀ s t : State, s.seq = .idle → step s = .next t →
    t.st = s.st ∨
    (∃ w rest i, s.host = .command w :: rest ∧ decode w = .ok i ∧
      ((isInit i = true ∧ (s.st = .closed ∨ s.st = .opened) ∧ (t.st = .opened ∨ t.st = .failed)) ∨
        (isInit i = false ∧ s.st = .opened ∧ t.st = .fatal ∧ t.lastst = .fatal))) ∨
    (resetNext s ∧ t.st = .closed)) ∧
  (∀ s : State, s.seq = .idle → resetNext s → ∃ t, step s = .next t ∧ t.st = .closed)

/-- R180: FAILED and FATAL are left only by reset; in them nothing reaches the wire and chip-select, `CFG` and `RESULT` stay. -/
def Obligations.FailureStatesLeftOnlyByReset : Prop :=
  ∀ s t : State, s.seq = .idle → (s.st = .failed ∨ s.st = .fatal) → step s = .next t →
    (t.st = s.st ∧ t.trace = s.trace ∧ t.cs = s.cs ∧ t.cfg = s.cfg ∧ t.result = s.result) ∨
    (resetNext s ∧ t.st = .closed)

/-- R176: an operation that ends with ST_FATAL released chip-select with a CSR as its last event, entered FATAL, lost `CFG`, and
left `RESULT` unchanged. -/
def Obligations.FatalEntryReleasesThenDies : Prop :=
  ∀ (i : Instr) (s t : State), exec i s = .next t → t.lastst = .fatal →
    s.st = .opened ∧ t.st = .fatal ∧ t.cs = false ∧ t.cfg = none ∧ t.result = s.result ∧
    t.rsps = s.rsps ++ [0x02000000#32] ∧ (∃ E, t.trace = s.trace ++ E ++ [.csr]) ∧
    ∀ j, exec j t = .next (refusedWith .errDead t)

/-- R27, R121 (d): `CFG` keeps its value, or an INIT succeeded and it is [23:0] of that INIT's command word (R22), or the channel
failed or died and it has none. -/
def Obligations.CfgWrittenOnlyByInit : Prop :=
  ∀ (i : Instr) (s t : State), exec i s = .next t →
    t.cfg = s.cfg ∨
    (isInit i = true ∧ t.lastst = .ok ∧ t.st = .opened ∧ t.cfg = some ((encode i).extractLsb' 0 24)) ∨
    (t.cfg = none ∧ (t.st = .failed ∨ t.st = .fatal))

/-- The frame of every operation: the parameters are unchanged (R8), the trace only grows (R33, R62), and `CS` is changed by BEGIN,
END, WRITE and the fatal entry alone (R28, R121 (d)). That the host's actions and the closed epochs are unchanged is about
fields of the model's own (log entries 2 and 12). -/
def Obligations.OperationFrame : Prop :=
  ∀ (i : Instr) (s t : State), exec i s = .next t →
    t.config = s.config ∧ t.host = s.host ∧ t.epochs = s.epochs ∧ s.trace <+: t.trace ∧
    (t.cs = s.cs ∨ t.st = .fatal ∨ i = .beginFrame ∨ i = .endFrame ∨ ∃ size hold, i = .write size hold)

/-- R31, D23: only WRITE and WDATAN change `BUF`, and only its first `size` bytes; every other byte reads as before, whatever the
outcome. -/
def Obligations.OnlyBufferWritesTouchBuf : Prop :=
  ∀ (i : Instr) (s t : State), exec i s = .next t →
    (reach i = 0 → t.buf = s.buf) ∧ ∀ j, reach i ≤ j → hostBufRead j t = hostBufRead j s

/-- R8: no step changes the configuration. -/
def Obligations.ConfigurationNeverChanges : Prop :=
  ∀ s t : State, step s = .next t → t.config = s.config

/-- R148: a register-protocol operation that passes its checks ends with `CS = 0`, with ST_OK or ST_FATAL; one that is refused
leaves `CS` as it was. -/
def Obligations.ProtocolOperationAlwaysReleases : Prop :=
  ∀ (i : Instr) (s : State), isProtocol i = true →
    (s.st = .opened → s.cs = false → ¬ badArgs s.config.bufMax i →
      ∃ t, exec i s = .next t ∧ t.cs = false ∧ (t.lastst = .ok ∨ t.lastst = .fatal)) ∧
    (s.st ≠ .opened ∨ s.cs = true ∨ badArgs s.config.bufMax i →
      ∃ t, exec i s = .next t ∧ t.cs = s.cs ∧ t.lastst ∈ [Status.errDead, .errState, .errSeq, .errArg])

/-- R149: two states that agree on `ST`, on `CS` and, for WDATAN, on `BUF` (and on the configuration and what the environment draws)
go through a register-protocol operation alike, whatever their earlier history, `CFG`, `RESULT` and `LASTST`. -/
def Obligations.ProtocolOperationIsStateless : Prop :=
  ∀ (i : Instr) (s₁ s₂ : State), isProtocol i = true → s₁.config = s₂.config → s₁.st = s₂.st → s₁.cs = s₂.cs →
    ((∃ n, i = .wdatan n) → s₁.buf = s₂.buf) → s₁.env = s₂.env →
    ∃ t₁ t₂, exec i s₁ = .next t₁ ∧ exec i s₂ = .next t₂ ∧
      t₁.st = t₂.st ∧ t₁.cs = t₂.cs ∧ t₁.lastst = t₂.lastst ∧ t₁.env = t₂.env ∧
      ((∃ n, i = .wdatan n) → t₁.buf = t₂.buf) ∧
      ((∀ n, i ≠ .wdatan n) → t₁.buf = s₁.buf ∧ t₂.buf = s₂.buf) ∧
      (∃ E, t₁.trace = s₁.trace ++ E ∧ t₂.trace = s₂.trace ++ E) ∧
      (∃ w, t₁.rsps = s₁.rsps ++ [w] ∧ t₂.rsps = s₂.rsps ++ [w]) ∧
      ((t₁.result = s₁.result ∧ t₂.result = s₂.result) ∨ t₁.result = t₂.result) ∧
      ((t₁.cfg = s₁.cfg ∧ t₂.cfg = s₂.cfg) ∨ t₁.cfg = t₂.cfg)

/-! ### Invariants (R41) -/

/-- The state after reset meets every invariant (R41, R203), the parameters' constraints among them (R8, R9, log entries
17 and 21) and the model's canonical form of `BUF` (log entry 11). -/
def Obligations.ResetMeetsInvariant : Prop := Invariant State.reset

/-- R41 (c), (d): every step keeps the events of the trace in an order the wire allows and `CS` equal to what they say. -/
def Obligations.StepKeepsWireOrder : Prop :=
  ∀ s t : State, WireOrdered s → step s = .next t → WireOrdered t

/-- R41 (e), R27: every step keeps `CFG` equal to the last CFGAPPLIED while the channel is OPEN, and without value otherwise. -/
def Obligations.StepKeepsCfgLastApplied : Prop :=
  ∀ s t : State, CfgIsLastApplied s → step s = .next t → CfgIsLastApplied t

/-- Every step keeps the cells of `BUF` inside `BUF_MAX`, the bound R31 gives, and in canonical form: strictly rising indexes, a form that
is the model's own and not the spec's (log entry 11). -/
def Obligations.StepKeepsBufCanonical : Prop :=
  ∀ s t : State, BufInRange s → step s = .next t → BufInRange t

/-- R41: every step keeps all the invariants together: `CS = 1` implies OPEN, `SEQ` idle between operations, the wire's order, `CFG`
and the last CFGAPPLIED, `BUF` canonical (the model's form of it, log entry 11), closed epochs well formed, the last response carrying `LASTST`, the parameters
within their constraints (CHUNK at least 2 and the three widths are the model's reading, log entries 21 and 17). -/
def Obligations.StepKeepsInvariant : Prop :=
  ∀ s t : State, Invariant s → step s = .next t → Invariant t

/-! ### Equivalences -/

/-- R94, R153: a composite and its expansion into primitives leave the same state, but for the number of responses; when a frame
fails the same, but for `LASTST`, since the expansion's later primitives are refused. -/
def Obligations.CompositeEqualsExpansion : Prop :=
  ∀ (addr hi lo next : Byte) (s : State), s.config.wf → s.st = .opened → s.cs = false →
    ∀ p ∈ [(Instr.wreg addr lo, [Instr.wcmd addr, .wdata lo]), (.rreg addr, [.wcmd addr, .rdata]),
        (.wreg16 addr (hi ++ lo), [.wcmd addr, .wdata lo, .wcmd next, .wdata hi])],
      (∀ a v, p.1 = .wreg16 a v → addr ≠ 0xFF ∧ next.toNat = addr.toNat + 1) →
      ∃ t u w ws, exec p.1 s = .next t ∧ runOps p.2 s = .next u ∧ t.rsps = s.rsps ++ [w] ∧
        u.rsps = s.rsps ++ ws ∧ ws.length = p.2.length ∧
        (t.lastst = .ok → t = { u with rsps := t.rsps }) ∧
        (t.lastst ≠ .ok → t.lastst = .fatal ∧ t = { u with rsps := t.rsps, lastst := t.lastst })

/-- R121 (b): BEGIN, WRITE of the selector with hold, WRITE of the payload with release, END put exactly the frame of R80 on the
wire, and the final END finds `CS = 0` and adds nothing. -/
def Obligations.HandBuiltFrameIsProtocolFrame : Prop :=
  ∀ (sel : Byte) (pay : List Byte) (s : State), s.config.wf → s.st = .opened → s.cs = false → 1 ≤ pay.length →
    pay.length ≤ s.config.bufMax → PlatformOk s (1 + chunkCount s.config.chunk pay.length) →
    ∃ t₁ t₂ t₃ t₄, exec .beginFrame s = .next t₁ ∧
      exec (.write 1 true) (hostFill 0 [sel] t₁) = .next t₂ ∧
      exec (.write pay.length false) (hostFill 0 pay t₂) = .next t₃ ∧
      exec .endFrame t₃ = .next t₄ ∧ t₃.cs = false ∧ t₄.trace = t₃.trace ∧ t₄.cs = false ∧
      t₄.trace = s.trace ++ [.csa] ++ wireUnits (sel :: pay) (answers s 0 (1 + pay.length)) ++ [.csr]

/-- R121 (a): a WRITE with hold and a WRITE with release put the same units on the wire, with the same single CSR, as one WRITE of
all the bytes. -/
def Obligations.HeldWritesChainIntoOneFrame : Prop :=
  ∀ (a b : List Byte) (s : State), s.config.wf → s.st = .opened → s.cs = true → 1 ≤ a.length → 1 ≤ b.length →
    a.length + b.length ≤ s.config.bufMax →
    PlatformOk s (chunkCount s.config.chunk a.length + chunkCount s.config.chunk b.length) →
    PlatformOk s (chunkCount s.config.chunk (a.length + b.length)) →
    ∃ t₁ t₂ u, exec (.write a.length true) (hostFill 0 a s) = .next t₁ ∧
      exec (.write b.length false) (hostFill 0 b t₁) = .next t₂ ∧
      exec (.write (a.length + b.length) false) (hostFill 0 (a ++ b) s) = .next u ∧
      t₂.trace = u.trace ∧ t₂.cs = u.cs ∧
      u.trace = s.trace ++ wireUnits (a ++ b) (answers s 0 (a.length + b.length)) ++ [.csr]

/-- R118 (c), D8: chunking is invisible: whatever the two chunk sizes, 1 included, a WRITE none of whose transactions fails leaves
the same trace, the same `BUF`, the same chip-select and the same response. -/
def Obligations.ChunkingIsInvisible : Prop :=
  ∀ (size chunk : Nat) (hold : Bool) (s : State), 1 ≤ s.config.chunk → 1 ≤ chunk → s.st = .opened → s.cs = true → 1 ≤ size →
    size ≤ s.config.bufMax → PlatformOk s (chunkCount s.config.chunk size) → PlatformOk s (chunkCount chunk size) →
    ∃ t u, exec (.write size hold) s = .next t ∧
      exec (.write size hold) { s with config := { s.config with chunk := chunk } } = .next u ∧
      u.trace = t.trace ∧ u.buf = t.buf ∧ u.cs = t.cs ∧ u.rsps = t.rsps

/-- R66 (b), R207: a WRITE repeated without refilling `BUF` sends the echoes of the first one. -/
def Obligations.RepeatedWriteSendsEchoes : Prop :=
  ∀ (size : Nat) (hold : Bool) (s : State), s.config.wf → s.st = .opened → s.cs = true → 1 ≤ size →
    size ≤ s.config.bufMax → PlatformOk s (2 * chunkCount s.config.chunk size) →
    ∃ t u, exec (.write size true) s = .next t ∧ exec (.write size hold) t = .next u ∧
      u.trace = t.trace ++ wireUnits (answers s 0 size) (answers s size size) ++ (if hold then [] else [.csr])

/-- R64, S2, V40: where the frames are a run of the reference device, a 16-bit register write followed by reads of the two registers
returns the low byte from `addr` and the high byte from `addr + 1`. The device as a checker of frames is the model's form of it
(log entry 19). -/
def Obligations.ReferenceDeviceReadsBackWrittenWord : Prop :=
  ∀ (addr next hi lo : Byte) (d : RefDevice) (s : State), s.config.wf → s.st = .opened → s.cs = false → addr ≠ 0xFF →
    next.toNat = addr.toNat + 1 → PlatformOk s 16 →
    ∃ t u, runOps [.wreg16 addr (hi ++ lo), .rreg addr] s = .next t ∧ exec (.rreg next) t = .next u ∧
      (d.produces s.config (frames (u.trace.drop s.trace.length)) = true →
        t.result = some (lo.setWidth 16) ∧ u.result = some (hi.setWidth 16))

/-! ### Status registers and pins -/

/-- R37: the fields of S0; S1 is `CFG`, S2 `RESULT`, S3 the number R170's table gives the code in `LASTST` (R34); R39: `CS_n` is
low when `CS = 1`, the parameter `CS_ACTIVE_LOW` having R8's value true. That it is the other way round where the parameter is
false is the model's reading (log entries 17 and 18). That a register is read widened with zeros to 24 bits, and as `none` where
it has no value, is the model's form of the read (log entry 22). -/
def Obligations.StatusRegistersFollowState : Prop :=
  ∀ s : State,
    (∃ v : BitVec 8, statusS0 s = v ∧ statusRead .s0 s = some (v.setWidth 24) ∧
      v.extractLsb' 0 2 = (match s.st with | .closed => 0#2 | .opened => 1#2 | .failed => 2#2 | .fatal => 3#2) ∧
      v.getLsbD 2 = s.cs ∧ (v.getLsbD 3 = true ↔ s.seq ≠ .idle) ∧ v.extractLsb' 4 4 = 0) ∧
    statusRead .s1 s = s.cfg ∧ (∀ v, s.result = some v → statusRead .s2 s = some (v.setWidth 24)) ∧
    (s.result = none → statusRead .s2 s = none) ∧
    statusS3 s = codeNumber s.lastst ∧ statusRead .s3 s = some ((codeNumber s.lastst).setWidth 24) ∧
    pinCsN s = (if s.config.csActiveLow then !s.cs else s.cs)

/-- R35, R24: the 8 bits of a unit (R8: `UNIT_BITS`) leave most significant first when `bitOrder = 0`, least significant first
when 1, and a byte assembled in the same order is the byte sent (R55: the order changes no value). -/
def Obligations.SerialBitsRoundTrip : Prop :=
  ∀ (p : Config) (b : Byte), p.unitBits = 8 →
    (∀ order : BitVec 1, fromSerialBits p.unitBits order (serialBits p.unitBits order b) = b) ∧
    (∀ k, k < 8 → (serialBits p.unitBits 0 b)[k]? = some (b.getLsbD (7 - k)) ∧
      (serialBits p.unitBits 1 b)[k]? = some (b.getLsbD k)) ∧
    serialBits p.unitBits 0 b = (serialBits p.unitBits 1 b).reverse

/-- R55, R24: the order of bits on the wire is `CFG.bitOrder`, bit 21 of `CFG` (R22), 0 for most significant first: for the byte the
block would send and the one it would assemble in any state, and for every unit an operation exchanges, under the `CFG` it ran in.
Without `CFG` there is no order, and an operation adds no unit. Only a successful INIT sets it, to its operand; the failure states
lose it with `CFG` (R27). The bits as a view of the state and of the trace are the model's form of it (log entry 18). -/
def Obligations.WireOrderIsCfgBitOrder : Prop :=
  (∀ (s : State) (o : Byte), s.config.unitBits = 8 →
    (∀ c, s.cfg = some c → ∃ bits, mosiBits o s = some bits ∧ bits.length = 8 ∧ misoByte bits s = some o ∧
      ∀ k, k < 8 → bits[k]? = some (o.getLsbD (if c.getLsbD 21 then k else 7 - k))) ∧
    (s.cfg = none → mosiBits o s = none)) ∧
  (∀ (i : Instr) (s t : State), CfgIsLastApplied s → exec i s = .next t →
    ∃ E, t.trace = s.trace ++ E ∧ (s.cfg = none → exchanged E = []) ∧
      ∀ c, s.cfg = some c → serialTrace t = serialTrace s ++ (exchanged E).map fun u =>
        some (serialBits s.config.unitBits (c.extractLsb' 21 1) u.1, serialBits s.config.unitBits (c.extractLsb' 21 1) u.2)) ∧
  ∀ (i : Instr) (s t : State), exec i s = .next t →
    serialOrder t = serialOrder s ∨
    (∃ m b w d, i = .init m b w d ∧ t.lastst = .ok ∧ serialOrder t = some b) ∨
    (serialOrder t = none ∧ (t.st = .failed ∨ t.st = .fatal))

/-- R55, R24: the bit order changes the value of no byte. Whatever `CFG` holds, an operation sends and receives the same bytes and
leaves the same state but for `CFG`, which is either left alone in both or written alike. -/
def Obligations.BitOrderChangesNoValue : Prop :=
  ∀ (i : Instr) (s t : State) (cfg : Option BusConfig), exec i s = .next t →
    ∃ cfg', exec i { s with cfg := cfg } = .next { t with cfg := cfg' } ∧
      ((t.cfg = s.cfg ∧ cfg' = cfg) ∨ cfg' = t.cfg)
end

