-- ==== Sys2Proof/Laws/Memory.lean ====
section
/-! SUPPORT. The laws of `BUF`: read after write, and that every operation keeps the canonical form. -/

namespace Sys2Proof.Machine

theorem Memory.get_set (m : List Host.Cell) (i j : Nat) (b : Byte) :
    Memory.get (Memory.set m i b) j = if j = i then some b else Memory.get m j := by
  induction m with
  | nil => simp [Memory.set, Memory.get, eq_comm]
  | cons c m ih =>
    obtain ⟨a, c⟩ := c
    unfold Memory.set
    by_cases h1 : i < a
    · simp [h1, Memory.get, eq_comm]
    · by_cases h2 : i = a
      · subst h2
        by_cases h3 : j = i
        · simp [Memory.get, h3]
        · have h4 : ¬ i = j := fun h => h3 h.symm
          simp [Memory.get, h3, h4]
      · simp only [h1, h2, if_false, Memory.get, ih]
        by_cases h3 : j = i
        · subst h3
          have h4 : ¬ a = j := fun h => h2 h.symm
          simp [h4]
        · simp [h3]

theorem Memory.mem_set {m : List Host.Cell} {i : Nat} {b : Byte} {c : Host.Cell} (h : c ∈ Memory.set m i b) :
    c = (i, b) ∨ c ∈ m := by
  induction m with
  | nil => simpa [Memory.set] using h
  | cons d m ih =>
    obtain ⟨a, d⟩ := d
    unfold Memory.set at h
    split at h
    · simpa using h
    · split at h
      · rcases List.mem_cons.1 h with h | h
        · exact .inl h
        · exact .inr (List.mem_cons_of_mem _ h)
      · rcases List.mem_cons.1 h with h | h
        · exact .inr (h ▸ List.mem_cons_self)
        · exact (ih h).imp_right (List.mem_cons_of_mem _)

theorem Memory.wf_set {m : List Host.Cell} (h : Memory.wf m) (i : Nat) (b : Byte) : Memory.wf (Memory.set m i b) := by
  induction m with
  | nil => simp [Memory.set, Memory.wf]
  | cons d m ih =>
    obtain ⟨a, d⟩ := d
    have h := List.pairwise_cons.1 h
    unfold Memory.set
    split
    · next hlt =>
      refine List.pairwise_cons.2 ⟨fun c hc => ?_, List.pairwise_cons.2 h⟩
      rcases List.mem_cons.1 hc with rfl | hc
      · exact hlt
      · exact Nat.lt_trans hlt (h.1 c hc)
    · split
      · next heq => exact List.pairwise_cons.2 ⟨fun c hc => heq ▸ h.1 c hc, h.2⟩
      · refine List.pairwise_cons.2 ⟨fun c hc => ?_, ih h.2⟩
        rcases Memory.mem_set hc with rfl | hc
        · dsimp only; omega
        · exact h.1 c hc

theorem Memory.get_setRange (m : List Host.Cell) (lo : Nat) (bs : List Byte) (j : Nat) :
    Memory.get (Memory.setRange m lo bs) j =
      if lo ≤ j ∧ j < lo + bs.length then bs[j - lo]? else Memory.get m j := by
  induction bs generalizing m lo with
  | nil => simp [Memory.setRange]
  | cons b bs ih =>
    simp only [Memory.setRange, ih, Memory.get_set, List.length_cons]
    by_cases h1 : lo = j
    · subst h1; simp
    · by_cases h2 : lo < j ∧ j < lo + (bs.length + 1)
      · have h3 : lo + 1 ≤ j ∧ j < lo + 1 + bs.length := by omega
        have h4 : lo ≤ j ∧ j < lo + (bs.length + 1) := by omega
        have h5 : j - lo = (j - (lo + 1)) + 1 := by omega
        simp only [h3, h4, and_self, if_true, h5, List.getElem?_cons_succ]
      · have h3 : ¬ (lo + 1 ≤ j ∧ j < lo + 1 + bs.length) := by omega
        have h4 : ¬ (lo ≤ j ∧ j < lo + (bs.length + 1)) := by omega
        have h5 : ¬ j = lo := by omega
        simp only [h3, h4, h5, if_false]

theorem Memory.setRange_append (m : List Host.Cell) (lo : Nat) (a b : List Byte) :
    Memory.setRange m lo (a ++ b) = Memory.setRange (Memory.setRange m lo a) (lo + a.length) b := by
  induction a generalizing m lo with
  | nil => rfl
  | cons x a ih => simp only [List.cons_append, Memory.setRange, ih, List.length_cons, Nat.add_assoc, Nat.add_comm 1]

theorem Memory.wf_setRange {m : List Host.Cell} (h : Memory.wf m) (lo : Nat) (bs : List Byte) :
    Memory.wf (Memory.setRange m lo bs) := by
  induction bs generalizing m lo with
  | nil => exact h
  | cons b bs ih => exact ih (Memory.wf_set h lo b) (lo + 1)

theorem Memory.mem_setRange {m : List Host.Cell} {lo : Nat} {bs : List Byte} {c : Host.Cell}
    (h : c ∈ Memory.setRange m lo bs) : c.1 < lo + bs.length ∨ c ∈ m := by
  induction bs generalizing m lo with
  | nil => exact .inr h
  | cons b bs ih =>
    rcases ih h with h | h
    · left; simp only [List.length_cons]; omega
    · rcases Memory.mem_set h with rfl | h
      · left; simp
      · exact .inr h

theorem Memory.get_forget (m : List Host.Cell) (lo n j : Nat) :
    Memory.get (Memory.forget m lo n) j = if lo ≤ j ∧ j < lo + n then none else Memory.get m j := by
  induction m with
  | nil => simp [Memory.forget, Memory.get]
  | cons c m ih =>
    obtain ⟨a, b⟩ := c
    unfold Memory.forget at ih ⊢
    by_cases h : lo ≤ a ∧ a < lo + n
    · simp only [List.filter, h, decide_true, Bool.and_self, Bool.not_true, ih, Memory.get]
      by_cases h2 : a = j
      · subst h2; simp [h]
      · simp [h2]
    · have h' : (!(decide (lo ≤ a) && decide (a < lo + n))) = true := by
        simp; omega
      simp only [List.filter, h', Memory.get, ih]
      by_cases h2 : a = j
      · subst h2; simp [h]
      · simp [h2]

theorem Memory.wf_forget {m : List Host.Cell} (h : Memory.wf m) (lo n : Nat) : Memory.wf (Memory.forget m lo n) :=
  List.Pairwise.filter _ h

theorem Memory.mem_forget {m : List Host.Cell} {lo n : Nat} {c : Host.Cell} (h : c ∈ Memory.forget m lo n) : c ∈ m :=
  (List.mem_filter.1 h).1

/-- The buffer after reset lists nothing. -/
theorem Memory.wf_reset : Memory.wf State.reset.buf := List.Pairwise.nil

end Sys2Proof.Machine
end

