-- ==== Sys2Proof/Laws/State.lean ====
section
/-! SUPPORT. One lemma per field per update: what each operation on the state leaves in each field. -/

namespace Sys2Proof.Machine

/-! ### emit -/

@[simp] theorem emit_config (e : Event) (s : State) : (emit e s).config = s.config := rfl

@[simp] theorem emit_st (e : Event) (s : State) : (emit e s).st = s.st := rfl

@[simp] theorem emit_cfg (e : Event) (s : State) : (emit e s).cfg = s.cfg := rfl

@[simp] theorem emit_cs (e : Event) (s : State) : (emit e s).cs = s.cs := rfl

@[simp] theorem emit_buf (e : Event) (s : State) : (emit e s).buf = s.buf := rfl

@[simp] theorem emit_result (e : Event) (s : State) : (emit e s).result = s.result := rfl

@[simp] theorem emit_lastst (e : Event) (s : State) : (emit e s).lastst = s.lastst := rfl

@[simp] theorem emit_seq (e : Event) (s : State) : (emit e s).seq = s.seq := rfl

@[simp] theorem emit_trace (e : Event) (s : State) : (emit e s).trace = s.trace ++ [e] := rfl

@[simp] theorem emit_rsps (e : Event) (s : State) : (emit e s).rsps = s.rsps := rfl

@[simp] theorem emit_host (e : Event) (s : State) : (emit e s).host = s.host := rfl

@[simp] theorem emit_epochs (e : Event) (s : State) : (emit e s).epochs = s.epochs := rfl

@[simp] theorem emit_env (e : Event) (s : State) : (emit e s).env = s.env := rfl

/-! ### select -/

@[simp] theorem select_config (s : State) : (select s).config = s.config := rfl

@[simp] theorem select_st (s : State) : (select s).st = s.st := rfl

@[simp] theorem select_cfg (s : State) : (select s).cfg = s.cfg := rfl

@[simp] theorem select_cs (s : State) : (select s).cs = true := rfl

@[simp] theorem select_buf (s : State) : (select s).buf = s.buf := rfl

@[simp] theorem select_result (s : State) : (select s).result = s.result := rfl

@[simp] theorem select_lastst (s : State) : (select s).lastst = s.lastst := rfl

@[simp] theorem select_seq (s : State) : (select s).seq = s.seq := rfl

@[simp] theorem select_trace (s : State) : (select s).trace = s.trace ++ [.csa] := rfl

@[simp] theorem select_rsps (s : State) : (select s).rsps = s.rsps := rfl

@[simp] theorem select_host (s : State) : (select s).host = s.host := rfl

@[simp] theorem select_epochs (s : State) : (select s).epochs = s.epochs := rfl

@[simp] theorem select_env (s : State) : (select s).env = s.env := rfl

/-! ### release -/

@[simp] theorem release_config (s : State) : (release s).config = s.config := by
  unfold release; split <;> simp_all [emit]

@[simp] theorem release_st (s : State) : (release s).st = s.st := by
  unfold release; split <;> simp_all [emit]

@[simp] theorem release_cfg (s : State) : (release s).cfg = s.cfg := by
  unfold release; split <;> simp_all [emit]

@[simp] theorem release_cs (s : State) : (release s).cs = false := by
  unfold release; split <;> simp_all [emit]

@[simp] theorem release_buf (s : State) : (release s).buf = s.buf := by
  unfold release; split <;> simp_all [emit]

@[simp] theorem release_result (s : State) : (release s).result = s.result := by
  unfold release; split <;> simp_all [emit]

@[simp] theorem release_lastst (s : State) : (release s).lastst = s.lastst := by
  unfold release; split <;> simp_all [emit]

@[simp] theorem release_seq (s : State) : (release s).seq = s.seq := by
  unfold release; split <;> simp_all [emit]

@[simp] theorem release_trace (s : State) : (release s).trace = if s.cs then s.trace ++ [.csr] else s.trace := by
  unfold release; split <;> simp_all [emit]

@[simp] theorem release_rsps (s : State) : (release s).rsps = s.rsps := by
  unfold release; split <;> simp_all [emit]

@[simp] theorem release_host (s : State) : (release s).host = s.host := by
  unfold release; split <;> simp_all [emit]

@[simp] theorem release_epochs (s : State) : (release s).epochs = s.epochs := by
  unfold release; split <;> simp_all [emit]

@[simp] theorem release_env (s : State) : (release s).env = s.env := by
  unfold release; split <;> simp_all [emit]

/-! ### exchangeUnit -/

@[simp] theorem exchangeUnit_config (o : Byte) (s : State) : ((exchangeUnit o s).1).config = s.config := rfl

@[simp] theorem exchangeUnit_st (o : Byte) (s : State) : ((exchangeUnit o s).1).st = s.st := rfl

@[simp] theorem exchangeUnit_cfg (o : Byte) (s : State) : ((exchangeUnit o s).1).cfg = s.cfg := rfl

@[simp] theorem exchangeUnit_cs (o : Byte) (s : State) : ((exchangeUnit o s).1).cs = s.cs := rfl

@[simp] theorem exchangeUnit_buf (o : Byte) (s : State) : ((exchangeUnit o s).1).buf = s.buf := rfl

@[simp] theorem exchangeUnit_result (o : Byte) (s : State) : ((exchangeUnit o s).1).result = s.result := rfl

@[simp] theorem exchangeUnit_lastst (o : Byte) (s : State) : ((exchangeUnit o s).1).lastst = s.lastst := rfl

@[simp] theorem exchangeUnit_seq (o : Byte) (s : State) : ((exchangeUnit o s).1).seq = s.seq := rfl

@[simp] theorem exchangeUnit_trace (o : Byte) (s : State) : ((exchangeUnit o s).1).trace = s.trace ++ [.x o (s.env.misoByte s.env.misoAt)] := rfl

@[simp] theorem exchangeUnit_rsps (o : Byte) (s : State) : ((exchangeUnit o s).1).rsps = s.rsps := rfl

@[simp] theorem exchangeUnit_host (o : Byte) (s : State) : ((exchangeUnit o s).1).host = s.host := rfl

@[simp] theorem exchangeUnit_epochs (o : Byte) (s : State) : ((exchangeUnit o s).1).epochs = s.epochs := rfl

@[simp] theorem exchangeUnit_env (o : Byte) (s : State) : ((exchangeUnit o s).1).env = { s.env with misoAt := s.env.misoAt + 1 } := rfl

/-! ### finish -/

@[simp] theorem finish_config (c : Status) (r : Option HalfWord) (s : State) : (finish c r s).config = s.config := rfl

@[simp] theorem finish_st (c : Status) (r : Option HalfWord) (s : State) : (finish c r s).st = s.st := rfl

@[simp] theorem finish_cfg (c : Status) (r : Option HalfWord) (s : State) : (finish c r s).cfg = s.cfg := rfl

@[simp] theorem finish_cs (c : Status) (r : Option HalfWord) (s : State) : (finish c r s).cs = s.cs := rfl

@[simp] theorem finish_buf (c : Status) (r : Option HalfWord) (s : State) : (finish c r s).buf = s.buf := rfl

@[simp] theorem finish_result (c : Status) (r : Option HalfWord) (s : State) : (finish c r s).result = r.or s.result := rfl

@[simp] theorem finish_lastst (c : Status) (r : Option HalfWord) (s : State) : (finish c r s).lastst = c := rfl

@[simp] theorem finish_seq (c : Status) (r : Option HalfWord) (s : State) : (finish c r s).seq = .idle := rfl

@[simp] theorem finish_trace (c : Status) (r : Option HalfWord) (s : State) : (finish c r s).trace = s.trace := rfl

@[simp] theorem finish_rsps (c : Status) (r : Option HalfWord) (s : State) : (finish c r s).rsps = s.rsps ++ [response c r] := rfl

@[simp] theorem finish_host (c : Status) (r : Option HalfWord) (s : State) : (finish c r s).host = s.host := rfl

@[simp] theorem finish_epochs (c : Status) (r : Option HalfWord) (s : State) : (finish c r s).epochs = s.epochs := rfl

@[simp] theorem finish_env (c : Status) (r : Option HalfWord) (s : State) : (finish c r s).env = s.env := rfl

/-! ### fatalEntry -/

@[simp] theorem fatalEntry_config (s : State) : (fatalEntry s).config = s.config := by
  simp [fatalEntry, finish]

@[simp] theorem fatalEntry_st (s : State) : (fatalEntry s).st = .fatal := rfl

@[simp] theorem fatalEntry_cfg (s : State) : (fatalEntry s).cfg = none := rfl

@[simp] theorem fatalEntry_cs (s : State) : (fatalEntry s).cs = false := by
  simp [fatalEntry, finish]

@[simp] theorem fatalEntry_buf (s : State) : (fatalEntry s).buf = s.buf := by
  simp [fatalEntry, finish]

@[simp] theorem fatalEntry_result (s : State) : (fatalEntry s).result = s.result := by
  simp [fatalEntry, finish]

@[simp] theorem fatalEntry_lastst (s : State) : (fatalEntry s).lastst = .fatal := rfl

@[simp] theorem fatalEntry_seq (s : State) : (fatalEntry s).seq = .idle := rfl

@[simp] theorem fatalEntry_trace (s : State) : (fatalEntry s).trace = if s.cs then s.trace ++ [.csr] else s.trace := by
  simp [fatalEntry, finish]

@[simp] theorem fatalEntry_rsps (s : State) : (fatalEntry s).rsps = s.rsps ++ [response .fatal none] := by
  simp [fatalEntry, finish]

@[simp] theorem fatalEntry_host (s : State) : (fatalEntry s).host = s.host := by
  simp [fatalEntry, finish]

@[simp] theorem fatalEntry_epochs (s : State) : (fatalEntry s).epochs = s.epochs := by
  simp [fatalEntry, finish]

@[simp] theorem fatalEntry_env (s : State) : (fatalEntry s).env = s.env := by
  simp [fatalEntry, finish]

/-! ### hostBufWrite -/

@[simp] theorem hostBufWrite_config (i : Nat) (b : Byte) (s : State) : (hostBufWrite i b s).config = s.config := rfl

@[simp] theorem hostBufWrite_st (i : Nat) (b : Byte) (s : State) : (hostBufWrite i b s).st = s.st := rfl

@[simp] theorem hostBufWrite_cfg (i : Nat) (b : Byte) (s : State) : (hostBufWrite i b s).cfg = s.cfg := rfl

@[simp] theorem hostBufWrite_cs (i : Nat) (b : Byte) (s : State) : (hostBufWrite i b s).cs = s.cs := rfl

@[simp] theorem hostBufWrite_buf (i : Nat) (b : Byte) (s : State) : (hostBufWrite i b s).buf = Memory.set s.buf i b := rfl

@[simp] theorem hostBufWrite_result (i : Nat) (b : Byte) (s : State) : (hostBufWrite i b s).result = s.result := rfl

@[simp] theorem hostBufWrite_lastst (i : Nat) (b : Byte) (s : State) : (hostBufWrite i b s).lastst = s.lastst := rfl

@[simp] theorem hostBufWrite_seq (i : Nat) (b : Byte) (s : State) : (hostBufWrite i b s).seq = s.seq := rfl

@[simp] theorem hostBufWrite_trace (i : Nat) (b : Byte) (s : State) : (hostBufWrite i b s).trace = s.trace := rfl

@[simp] theorem hostBufWrite_rsps (i : Nat) (b : Byte) (s : State) : (hostBufWrite i b s).rsps = s.rsps := rfl

@[simp] theorem hostBufWrite_host (i : Nat) (b : Byte) (s : State) : (hostBufWrite i b s).host = s.host := rfl

@[simp] theorem hostBufWrite_epochs (i : Nat) (b : Byte) (s : State) : (hostBufWrite i b s).epochs = s.epochs := rfl

@[simp] theorem hostBufWrite_env (i : Nat) (b : Byte) (s : State) : (hostBufWrite i b s).env = s.env := rfl

/-! ### present -/

@[simp] theorem present_config (w : CmdWord) (s : State) : (present w s).config = s.config := rfl

@[simp] theorem present_st (w : CmdWord) (s : State) : (present w s).st = s.st := rfl

@[simp] theorem present_cfg (w : CmdWord) (s : State) : (present w s).cfg = s.cfg := rfl

@[simp] theorem present_cs (w : CmdWord) (s : State) : (present w s).cs = s.cs := rfl

@[simp] theorem present_buf (w : CmdWord) (s : State) : (present w s).buf = s.buf := rfl

@[simp] theorem present_result (w : CmdWord) (s : State) : (present w s).result = s.result := rfl

@[simp] theorem present_lastst (w : CmdWord) (s : State) : (present w s).lastst = s.lastst := rfl

@[simp] theorem present_seq (w : CmdWord) (s : State) : (present w s).seq = .idle := rfl

@[simp] theorem present_trace (w : CmdWord) (s : State) : (present w s).trace = s.trace := rfl

@[simp] theorem present_rsps (w : CmdWord) (s : State) : (present w s).rsps = s.rsps := rfl

@[simp] theorem present_host (w : CmdWord) (s : State) : (present w s).host = .command w :: s.host := rfl

@[simp] theorem present_epochs (w : CmdWord) (s : State) : (present w s).epochs = s.epochs := rfl

@[simp] theorem present_env (w : CmdWord) (s : State) : (present w s).env = s.env := rfl

/-! ### resetBlock -/

@[simp] theorem resetBlock_config (s : State) : (resetBlock s).config = s.config := rfl

@[simp] theorem resetBlock_st (s : State) : (resetBlock s).st = .closed := rfl

@[simp] theorem resetBlock_cfg (s : State) : (resetBlock s).cfg = none := rfl

@[simp] theorem resetBlock_cs (s : State) : (resetBlock s).cs = false := rfl

@[simp] theorem resetBlock_buf (s : State) : (resetBlock s).buf = [] := rfl

@[simp] theorem resetBlock_result (s : State) : (resetBlock s).result = none := rfl

@[simp] theorem resetBlock_lastst (s : State) : (resetBlock s).lastst = .ok := rfl

@[simp] theorem resetBlock_seq (s : State) : (resetBlock s).seq = .idle := rfl

@[simp] theorem resetBlock_trace (s : State) : (resetBlock s).trace = [] := rfl

@[simp] theorem resetBlock_rsps (s : State) : (resetBlock s).rsps = [] := rfl

@[simp] theorem resetBlock_host (s : State) : (resetBlock s).host = s.host := rfl

@[simp] theorem resetBlock_epochs (s : State) : (resetBlock s).epochs = s.epochs ++ [closeTrace s.trace] := rfl

@[simp] theorem resetBlock_env (s : State) : (resetBlock s).env = s.env := rfl

/-! ### The ends of an operation are all `finish` -/

@[simp] theorem ret_eq (s : State) : ret s = finish .ok none s := rfl

@[simp] theorem retValue_eq (v : HalfWord) (s : State) : retValue v s = finish .ok (some v) s := rfl

@[simp] theorem refuse_eq (c : Status) (s : State) : refuse c s = finish c none s := rfl

/-! ### Draws do not depend on the positions -/

@[simp] theorem misoByte_positions (e : Env) (a b c d k : Nat) :
    Env.misoByte { e with misoAt := a, txAt := b, initAt := c, unwrittenAt := d } k = e.misoByte k := rfl

@[simp] theorem txDraw_positions (e : Env) (a b c d k : Nat) :
    Env.txDraw { e with misoAt := a, txAt := b, initAt := c, unwrittenAt := d } k = e.txDraw k := rfl

end Sys2Proof.Machine
end

