-- ==== Sys2Proof/Laws/Ops.lean ====
section
/-! SUPPORT. One lemma per shared operation: what it does when its transactions succeed, and what it does when one fails. -/

namespace Sys2Proof.Machine

/-- `s` after the events `evs`, with `units` more answers and `txs` more transaction outcomes used up. -/
def moved (s : State) (evs : List Event) (units txs : Nat) : State :=
  { s with
    trace := s.trace ++ evs
    env := { s.env with misoAt := s.env.misoAt + units, txAt := s.env.txAt + txs } }

theorem moved_moved (s : State) (e₁ e₂ : List Event) (u₁ u₂ t₁ t₂ : Nat) :
    moved (moved s e₁ u₁ t₁) e₂ u₂ t₂ = moved s (e₁ ++ e₂) (u₁ + u₂) (t₁ + t₂) := by
  simp [moved, Nat.add_assoc]

theorem moved_nothing (s : State) : moved s [] 0 0 = s := by simp [moved]

theorem answers_moved (s : State) (evs : List Event) (u t off n : Nat) :
    answers (moved s evs u t) off n = answers s (u + off) n := by
  simp [answers, moved, Nat.add_assoc]

theorem txOutcome_moved (s : State) (evs : List Event) (u t j : Nat) :
    txOutcome (moved s evs u t) j = txOutcome s (t + j) := by
  simp [txOutcome, moved, Nat.add_assoc]

theorem answers_length (s : State) (off n : Nat) : (answers s off n).length = n := by simp [answers]

theorem answers_zero (s : State) (off : Nat) : answers s off 0 = [] := rfl

theorem answers_succ (s : State) (off n : Nat) :
    answers s off (n + 1) = s.env.misoByte (s.env.misoAt + off) :: answers s (off + 1) n := by
  simp [answers, List.range'_succ, Nat.add_assoc]

theorem answers_append (s : State) (off m n : Nat) :
    answers s off m ++ answers s (off + m) n = answers s off (m + n) := by
  rw [answers, answers, answers, ← List.map_append, ← Nat.add_assoc]
  congr 1
  simp

theorem wireUnits_append {o₁ o₂ i₁ i₂ : List Byte} (h : o₁.length = i₁.length) :
    wireUnits (o₁ ++ o₂) (i₁ ++ i₂) = wireUnits o₁ i₁ ++ wireUnits o₂ i₂ := by
  simp [wireUnits, List.zipWith_append h]

/-- Units back to back: every byte sent, every answer taken in order (R111, R112). -/
theorem exchangeUnits_eq (o : List Byte) (s : State) :
    exchangeUnits o s =
      (moved s (wireUnits o (answers s 0 o.length)) o.length 0, answers s 0 o.length) := by
  induction o generalizing s with
  | nil => simp [exchangeUnits, answers_zero, wireUnits, moved_nothing]
  | cons b o ih =>
    have hu : exchangeUnit b s =
        (moved s [.x b (s.env.misoByte s.env.misoAt)] 1 0, s.env.misoByte s.env.misoAt) := rfl
    simp only [exchangeUnits, hu, ih, answers_moved, moved_moved, List.length_cons, answers_succ, wireUnits,
      List.zipWith_cons_cons, List.singleton_append, Nat.add_zero, Nat.zero_add, Nat.add_comm 1]

/-- A transaction that succeeds (R112). -/
theorem transact_ok {o : List Byte} {s : State} (h : txOutcome s 0 = .ok) :
    transact o s = (moved s (wireUnits o (answers s 0 o.length)) o.length 1, .ok (answers s 0 o.length)) := by
  have h' : s.env.txDraw s.env.txAt = .ok := h
  have hm : { s with env := { s.env with txAt := s.env.txAt + 1 } } = moved s [] 0 1 := by simp [moved]
  simp only [transact, h', hm, exchangeUnits_eq, answers_moved, moved_moved, List.nil_append, Nat.zero_add, Nat.add_zero]

/-- A transaction that fails after `p` units, at most all of them (R112). -/
theorem transact_fail {o : List Byte} {s : State} {p : Nat} (h : txOutcome s 0 = .fail p) :
    transact o s =
      (moved s (wireUnits (o.take p) (answers s 0 (o.take p).length)) (o.take p).length 1, .fail) := by
  have h' : s.env.txDraw s.env.txAt = .fail p := h
  have hm : { s with env := { s.env with txAt := s.env.txAt + 1 } } = moved s [] 0 1 := by simp [moved]
  simp only [transact, h', hm, exchangeUnits_eq, answers_moved, moved_moved, List.nil_append, Nat.zero_add, Nat.add_zero]

theorem transfer_ok {o : List Byte} {s : State} (h : txOutcome s 0 = .ok) :
    transfer o s =
      .going (moved s (wireUnits o (answers s 0 o.length)) o.length 1) (answers s 0 o.length) := by
  simp only [transfer, transact_ok h]

theorem transfer_fail {o : List Byte} {s : State} {p : Nat} (h : txOutcome s 0 = .fail p) :
    transfer o s =
      .dead (fatalEntry
        (moved s (wireUnits (o.take p) (answers s 0 (o.take p).length)) (o.take p).length 1)) := by
  simp only [transfer, transact_fail h]

/-- A payload that fits one chunk is one transaction (R141). -/
theorem sendBytes_one {pay : List Byte} {s : State} (h1 : 1 ≤ pay.length) (h2 : pay.length ≤ s.config.chunk) :
    sendBytes pay s = transfer pay s := by
  have hc : chunkCount s.config.chunk pay.length = 1 := by
    unfold chunkCount
    rw [Nat.div_eq_iff (by omega)]
    omega
  have hd : pay.take s.config.chunk = pay := List.take_of_length_le h2
  unfold sendBytes
  rw [hc]
  simp only [sendPieces, hd, List.nil_append]
  cases transfer pay s <;> rfl

theorem select_moved (s : State) : select s = moved { s with cs := true } [.csa] 0 0 := by
  simp [select, emit, moved]

theorem release_moved {s : State} (h : s.cs = true) : release s = moved { s with cs := false } [.csr] 0 0 := by
  simp [release, h, emit, moved]

theorem release_idle {s : State} (h : s.cs = false) : release s = s := by
  simp [release, h]

/-- The closing release of a frame finds chip-select deasserted (R141). -/
theorem release_release (s : State) : release (release s) = release s :=
  release_idle (release_cs s)

/-- A frame whose two transactions succeed (R141). -/
theorem frame_ok {sel : Byte} {pay : List Byte} {s : State} (h1 : 1 ≤ pay.length) (h2 : pay.length ≤ s.config.chunk)
    (h3 : txOutcome s 0 = .ok) (h4 : txOutcome s 1 = .ok) :
    frame sel pay s =
      .going (moved { s with cs := false }
          ([.csa] ++ wireUnits (sel :: pay) (answers s 0 (1 + pay.length)) ++ [.csr]) (1 + pay.length) 2)
        (answers s 1 pay.length) := by
  have e1 : txOutcome (select s) 0 = .ok := h3
  have e2 : txOutcome (moved (select s) (wireUnits [sel] (answers (select s) 0 [sel].length)) [sel].length 1) 0 = .ok := by
    rw [txOutcome_moved]; exact h4
  simp only [frame, frameWith, transfer_ok e1, Flow.andThen]
  rw [sendBytes_one h1 (by exact h2), transfer_ok e2]
  have hs : ∀ off n, answers (select s) off n = answers s off n := fun _ _ => rfl
  simp only [answers_moved, moved_moved, hs, Nat.add_zero, List.length_singleton]
  rw [release_release, release_moved rfl]
  have ha : answers s 0 (1 + pay.length) = answers s 0 1 ++ answers s 1 pay.length := by
    simpa using (answers_append s 0 1 pay.length).symm
  have hw : wireUnits (sel :: pay) (answers s 0 (1 + pay.length)) =
      wireUnits [sel] (answers s 0 1) ++ wireUnits pay (answers s 1 pay.length) := by
    rw [ha, ← wireUnits_append (by simp [answers_length])]; rfl
  rw [hw]
  simp [select, emit, moved]

/-- A frame whose selector fails after `p` units (R112, R141, R176). -/
theorem frame_fail_selector {sel : Byte} {pay : List Byte} {s : State} {p : Nat} (h : txOutcome s 0 = .fail p) :
    frame sel pay s =
      .dead (fatalEntry (moved (select s)
        (wireUnits ([sel].take p) (answers s 0 ([sel].take p).length)) ([sel].take p).length 1)) := by
  have e1 : txOutcome (select s) 0 = .fail p := h
  simp only [frame, frameWith, transfer_fail e1, Flow.andThen]
  rfl

/-- A frame whose payload fails after `p` of its units (R112, R141, R176). -/
theorem frame_fail_payload {sel : Byte} {pay : List Byte} {s : State} {p : Nat} (h1 : 1 ≤ pay.length)
    (h2 : pay.length ≤ s.config.chunk) (h3 : txOutcome s 0 = .ok) (h4 : txOutcome s 1 = .fail p) :
    frame sel pay s =
      .dead (fatalEntry (moved (select s)
        (wireUnits (sel :: pay.take p) (answers s 0 (sel :: pay.take p).length)) (sel :: pay.take p).length 2)) := by
  have e1 : txOutcome (select s) 0 = .ok := h3
  have e2 : txOutcome (moved (select s) (wireUnits [sel] (answers (select s) 0 [sel].length)) [sel].length 1) 0 = .fail p := by
    rw [txOutcome_moved]; exact h4
  simp only [frame, frameWith, transfer_ok e1, Flow.andThen]
  rw [sendBytes_one h1 (by exact h2), transfer_fail e2]
  have hs : ∀ off n, answers (select s) off n = answers s off n := fun _ _ => rfl
  simp only [answers_moved, moved_moved, hs, Nat.add_zero, List.length_cons, List.length_nil, Nat.zero_add]
  have ha : answers s 0 ((pay.take p).length + 1) = answers s 0 1 ++ answers s 1 (pay.take p).length := by
    rw [Nat.add_comm]; simpa using (answers_append s 0 1 (pay.take p).length).symm
  have hw : wireUnits (sel :: pay.take p) (answers s 0 ((pay.take p).length + 1)) =
      wireUnits [sel] (answers s 0 1) ++ wireUnits (pay.take p) (answers s 1 (pay.take p).length) := by
    rw [ha, ← wireUnits_append (by simp [answers_length])]; rfl
  rw [hw, Nat.add_comm 1]

/-! ### Writes from BUF -/

/-- The bytes fetched from `BUF`: a byte with a value is sent as it is; nothing changes but the position of the draws. -/
theorem fetchBytes_spec (lo n : Nat) (s : State) :
    ∃ o u, fetchBytes lo n s = ({ s with env := { s.env with unwrittenAt := u } }, o) ∧ o.length = n ∧
      ∀ j b, j < n → Memory.get s.buf (lo + j) = some b → o[j]? = some b := by
  induction n generalizing lo s with
  | zero => exact ⟨[], s.env.unwrittenAt, rfl, rfl, fun j b h => absurd h (Nat.not_lt_zero j)⟩
  | succ n ih =>
    have hb : ∃ b u, fetchByte lo s = ({ s with env := { s.env with unwrittenAt := u } }, b) ∧
        ∀ c, Memory.get s.buf lo = some c → b = c := by
      unfold fetchByte
      cases hg : Memory.get s.buf lo with
      | none => exact ⟨_, _, rfl, fun c h => by simp at h⟩
      | some b => exact ⟨b, s.env.unwrittenAt, rfl, fun c h => by simpa using h⟩
    obtain ⟨b, u, hb, hbv⟩ := hb
    obtain ⟨o, v, ho, hl, hv⟩ := ih (lo + 1) { s with env := { s.env with unwrittenAt := u } }
    refine ⟨b :: o, v, by simp only [fetchBytes, hb, ho], by simp [hl], fun j c hj hc => ?_⟩
    cases j with
    | zero => simpa using hbv c (by simpa using hc)
    | succ j => simpa using hv j c (by omega) (by simpa [Nat.add_assoc, Nat.add_comm 1] using hc)

/-- `s` after a write from `BUF`: as `moved`, with the new contents of `BUF` and the position of the draws for bytes without
value. -/
def bufMoved (s : State) (evs : List Event) (units txs : Nat) (buf : List Host.Cell) (u : Nat) : State :=
  { s with
    buf := buf
    trace := s.trace ++ evs
    env := { s.env with misoAt := s.env.misoAt + units, txAt := s.env.txAt + txs, unwrittenAt := u } }

theorem bufMoved_bufMoved (s : State) (e₁ e₂ : List Event) (u₁ u₂ t₁ t₂ : Nat) (b₁ b₂ : List Host.Cell) (w₁ w₂ : Nat) :
    bufMoved (bufMoved s e₁ u₁ t₁ b₁ w₁) e₂ u₂ t₂ b₂ w₂ = bufMoved s (e₁ ++ e₂) (u₁ + u₂) (t₁ + t₂) b₂ w₂ := by
  simp [bufMoved, Nat.add_assoc]

theorem answers_bufMoved (s : State) (evs : List Event) (u t : Nat) (b : List Host.Cell) (w off n : Nat) :
    answers (bufMoved s evs u t b w) off n = answers s (u + off) n :=
  answers_moved s evs u t off n

theorem txOutcome_bufMoved (s : State) (evs : List Event) (u t : Nat) (b : List Host.Cell) (w j : Nat) :
    txOutcome (bufMoved s evs u t b w) j = txOutcome s (t + j) :=
  txOutcome_moved s evs u t j

/-- The bytes `o` are what `n` bytes of `BUF` from index `lo` on send: a byte with a value is sent as it is. -/
def SentFrom (s : State) (lo n : Nat) (o : List Byte) : Prop :=
  o.length = n ∧ ∀ j b, j < n → Memory.get s.buf (lo + j) = some b → o[j]? = some b

/-- One chunk that succeeds (R118): its bytes go out, its echo is in `BUF`. -/
theorem sendChunk_ok {lo n : Nat} {s : State} (h : txOutcome s 0 = .ok) :
    ∃ o u, SentFrom s lo n o ∧ sendChunk lo n s =
        .going (bufMoved s (wireUnits o (answers s 0 n)) n 1 (Memory.setRange s.buf lo (answers s 0 n)) u)
          (answers s 0 n) := by
  obtain ⟨o, u, ho, hl, hv⟩ := fetchBytes_spec lo n s
  refine ⟨o, u, ⟨hl, hv⟩, ?_⟩
  have e1 : txOutcome { s with env := { s.env with unwrittenAt := u } } 0 = .ok := h
  simp only [sendChunk, ho, transact_ok e1, hl]
  rfl

/-- One chunk that fails after `p` of its units (R112, R118): its bytes of `BUF` have no value. -/
theorem sendChunk_fail {lo n p : Nat} {s : State} (h : txOutcome s 0 = .fail p) :
    ∃ o u, SentFrom s lo n o ∧ sendChunk lo n s =
        .dead (fatalEntry
          (bufMoved s (wireUnits (o.take p) (answers s 0 (min p n))) (min p n) 1 (Memory.forget s.buf lo n) u)) := by
  obtain ⟨o, u, ho, hl, hv⟩ := fetchBytes_spec lo n s
  refine ⟨o, u, ⟨hl, hv⟩, ?_⟩
  have e1 : txOutcome { s with env := { s.env with unwrittenAt := u } } 0 = .fail p := h
  simp only [sendChunk, ho, transact_fail e1, List.length_take, hl]
  rfl

/-- What two runs of bytes send, one after the other, where the first run's bytes of `BUF` have been overwritten meanwhile. -/
theorem SentFrom.append {s t : State} {lo m n : Nat} {o₁ o₂ : List Byte} (h₁ : SentFrom s lo m o₁)
    (h₂ : SentFrom t (lo + m) n o₂) (hb : ∀ j, lo + m ≤ j → Memory.get t.buf j = Memory.get s.buf j) :
    SentFrom s lo (m + n) (o₁ ++ o₂) := by
  refine ⟨by simp [h₁.1, h₂.1], fun j b hj hg => ?_⟩
  have hlen := h₁.1
  by_cases hjm : j < m
  · rw [List.getElem?_append_left (by omega)]
    exact h₁.2 j b hjm hg
  · rw [List.getElem?_append_right (by omega), hlen]
    refine h₂.2 (j - m) b (by omega) ?_
    rw [show lo + m + (j - m) = lo + j by omega, hb _ (by omega)]
    exact hg

/-- Only the last chunk looks at `hold` (R118). -/
theorem sendChunks_hold (hold : Bool) (chunk size left k : Nat) (s : State) :
    sendChunks hold chunk size (left + 1) k s =
      (sendChunks true chunk size (left + 1) k s).andThen fun s1 _ => .going (if hold then s1 else release s1) [] := by
  induction left generalizing k s with
  | zero =>
    simp only [sendChunks, if_true]
    cases sendChunk (chunkLo chunk k) (chunkLen chunk size k) s <;> simp [Flow.andThen]
  | succ left ih =>
    rw [sendChunks]
    conv => rhs; rw [sendChunks]
    cases sendChunk (chunkLo chunk k) (chunkLen chunk size k) s with
    | going s1 r => simp only [Flow.andThen, Nat.succ_ne_zero, if_false, if_true]; exact ih (k + 1) s1
    | dead s1 => rfl

/-- The chunks of a write, when no transaction fails (R118): every byte goes out in order and its echo is in `BUF`. -/
theorem sendChunks_ok {chunk size left k : Nat} {s : State} (hs : size ≤ (k + left) * chunk)
    (hl : ∀ j, j < left → (k + j) * chunk < size) (hok : ∀ j, j < left → txOutcome s j = .ok) :
    ∃ o u, SentFrom s (k * chunk) (size - k * chunk) o ∧ sendChunks true chunk size left k s =
      .going (bufMoved s (wireUnits o (answers s 0 (size - k * chunk))) (size - k * chunk) left
        (Memory.setRange s.buf (k * chunk) (answers s 0 (size - k * chunk))) u) [] := by
  induction left generalizing k s with
  | zero =>
    have h0 : size - k * chunk = 0 := by simp at hs; omega
    refine ⟨[], s.env.unwrittenAt, ⟨by simp [h0], fun j b hj => by omega⟩, ?_⟩
    simp [sendChunks, h0, answers_zero, wireUnits, bufMoved, Memory.setRange]
  | succ left ih =>
    obtain ⟨o₁, u₁, h₁, e₁⟩ := sendChunk_ok (lo := chunkLo chunk k) (n := chunkLen chunk size k) (hok 0 (by omega))
    have hk : k * chunk < size := hl 0 (by omega)
    have hn : chunkLen chunk size k = min (size - k * chunk) chunk := by
      simp only [chunkLen, chunkLo]; omega
    have hk1 : (k + 1) * chunk = k * chunk + chunk := by rw [Nat.add_mul, Nat.one_mul]
    set n := chunkLen chunk size k with hndef
    set t := bufMoved s (wireUnits o₁ (answers s 0 n)) n 1
      (Memory.setRange s.buf (chunkLo chunk k) (answers s 0 n)) u₁ with ht
    obtain ⟨o₂, u₂, h₂, e₂⟩ := ih (k := k + 1) (s := t)
      (by rw [show k + 1 + left = k + (left + 1) by omega]; exact hs)
      (fun j hj => by rw [show k + 1 + j = k + (j + 1) by omega]; exact hl (j + 1) (by omega))
      (fun j hj => by rw [ht, txOutcome_bufMoved, Nat.add_comm]; exact hok (j + 1) (by omega))
    have hrem : n + (size - (k + 1) * chunk) = size - k * chunk := by omega
    have hbuf : ∀ j, k * chunk + n ≤ j → Memory.get t.buf j = Memory.get s.buf j := fun j hj => by
      rw [show t.buf = Memory.setRange s.buf (chunkLo chunk k) (answers s 0 n) from rfl, Memory.get_setRange,
        answers_length, chunkLo, if_neg (by omega)]
    have hcat : SentFrom s (k * chunk) (size - k * chunk) (o₁ ++ o₂) := by
      rw [← hrem]
      by_cases hlast : size ≤ (k + 1) * chunk
      · have hz : size - (k + 1) * chunk = 0 := by omega
        have : o₂ = [] := List.length_eq_zero_iff.1 (by rw [h₂.1, hz])
        rw [this, hz, List.append_nil]
        exact h₁
      · refine SentFrom.append h₁ ?_ hbuf
        rw [show k * chunk + n = (k + 1) * chunk by omega]
        exact h₂
    refine ⟨o₁ ++ o₂, u₂, hcat, ?_⟩
    have ha : answers s 0 (size - k * chunk) = answers s 0 n ++ answers s n (size - (k + 1) * chunk) := by
      rw [← hrem]; simpa using (answers_append s 0 n (size - (k + 1) * chunk)).symm
    have hset : Memory.setRange t.buf ((k + 1) * chunk) (answers s n (size - (k + 1) * chunk)) =
        Memory.setRange s.buf (k * chunk) (answers s 0 (size - k * chunk)) := by
      rw [ha, Memory.setRange_append, answers_length]
      by_cases hlast : size ≤ (k + 1) * chunk
      · have hz : size - (k + 1) * chunk = 0 := by omega
        rw [hz, answers_zero]; rfl
      · rw [show k * chunk + n = (k + 1) * chunk by omega]; rfl
    rw [sendChunks, e₁]
    simp only [Flow.andThen, ite_self, if_true]
    rw [e₂, ht, answers_bufMoved, bufMoved_bufMoved, ← ht, Nat.add_zero, hset, hrem, ha,
      wireUnits_append (by rw [h₁.1, answers_length]), Nat.add_comm 1]

/-- The chunks of a write, when chunk `m` from the next on is the first to fail (R112, R118): the chunks before it went out whole
and their echo is in `BUF`; of the failed chunk the first `p` units went out and its bytes of `BUF` have no value. -/
theorem sendChunks_fail {chunk size left k m p : Nat} {s : State} (hm : m < left)
    (hl : ∀ j, j ≤ m → (k + j) * chunk < size) (hok : ∀ j, j < m → txOutcome s j = .ok) (hf : txOutcome s m = .fail p) :
    ∃ o u, SentFrom s (k * chunk) (m * chunk + min p (min chunk (size - (k + m) * chunk))) o ∧
      sendChunks true chunk size left k s =
        .dead (fatalEntry (bufMoved s
          (wireUnits o (answers s 0 (m * chunk + min p (min chunk (size - (k + m) * chunk)))))
          (m * chunk + min p (min chunk (size - (k + m) * chunk))) (m + 1)
          (Memory.forget (Memory.setRange s.buf (k * chunk) (answers s 0 (m * chunk))) ((k + m) * chunk)
            (min chunk (size - (k + m) * chunk))) u)) := by
  obtain ⟨left, rfl⟩ : ∃ l, left = l + 1 := ⟨left - 1, by omega⟩
  have hk : k * chunk < size := hl 0 (by omega)
  have hn : chunkLen chunk size k = min chunk (size - k * chunk) := by
    simp only [chunkLen, chunkLo]; omega
  induction m generalizing k s left with
  | zero =>
    obtain ⟨o, u, h, e⟩ := sendChunk_fail (lo := chunkLo chunk k) (n := chunkLen chunk size k) hf
    refine ⟨o.take p, u, ⟨by rw [List.length_take, h.1, hn]; simp, fun j b hj hg => ?_⟩, ?_⟩
    · rw [List.getElem?_take_of_lt (by omega)]
      exact h.2 j b (by simp at hj; omega) hg
    · rw [sendChunks, e]
      simp [Flow.andThen, hn, chunkLo, answers_zero, Memory.setRange]
  | succ m ih =>
    obtain ⟨o₁, u₁, h₁, e₁⟩ := sendChunk_ok (lo := chunkLo chunk k) (n := chunkLen chunk size k) (hok 0 (by omega))
    have hk1 : (k + 1) * chunk = k * chunk + chunk := by rw [Nat.add_mul, Nat.one_mul]
    have hlt1 : (k + 1) * chunk < size := hl 1 (by omega)
    have hfull : chunkLen chunk size k = chunk := by omega
    rw [hfull] at h₁ e₁
    set t := bufMoved s (wireUnits o₁ (answers s 0 chunk)) chunk 1
      (Memory.setRange s.buf (chunkLo chunk k) (answers s 0 chunk)) u₁ with ht
    obtain ⟨left, rfl⟩ : ∃ l, left = l + 1 := ⟨left - 1, by omega⟩
    obtain ⟨o₂, u₂, h₂, e₂⟩ := ih (k := k + 1) (s := t)
      (fun j hj => by rw [show k + 1 + j = k + (j + 1) by omega]; exact hl (j + 1) (by omega))
      (fun j hj => by rw [ht, txOutcome_bufMoved, Nat.add_comm]; exact hok (j + 1) (by omega))
      (by rw [ht, txOutcome_bufMoved, Nat.add_comm]; exact hf) left (by omega) hlt1
      (by simp only [chunkLen, chunkLo]; omega)
    have hm1 : (m + 1) * chunk = chunk + m * chunk := by rw [Nat.add_mul, Nat.one_mul, Nat.add_comm]
    rw [show k + 1 + m = k + (m + 1) by omega] at h₂ e₂
    set len := min chunk (size - (k + (m + 1)) * chunk) with hlen
    have hcnt : chunk + (m * chunk + min p len) = (m + 1) * chunk + min p len := by omega
    have hbuf : ∀ j, k * chunk + chunk ≤ j → Memory.get t.buf j = Memory.get s.buf j := fun j hj => by
      rw [show t.buf = Memory.setRange s.buf (chunkLo chunk k) (answers s 0 chunk) from rfl, Memory.get_setRange,
        answers_length, chunkLo, if_neg (by omega)]
    refine ⟨o₁ ++ o₂, u₂, ?_, ?_⟩
    · rw [← hcnt]
      refine SentFrom.append h₁ ?_ hbuf
      rw [← hk1]
      exact h₂
    · have ha : answers s 0 ((m + 1) * chunk + min p len) =
          answers s 0 chunk ++ answers s chunk (m * chunk + min p len) := by
        rw [← hcnt]; simpa using (answers_append s 0 chunk (m * chunk + min p len)).symm
      have hb : answers s 0 ((m + 1) * chunk) = answers s 0 chunk ++ answers s chunk (m * chunk) := by
        rw [hm1]; simpa using (answers_append s 0 chunk (m * chunk)).symm
      rw [sendChunks, hfull, e₁]
      simp only [Flow.andThen, ite_self, if_true]
      rw [e₂, ht, answers_bufMoved, answers_bufMoved, bufMoved_bufMoved, ← ht, Nat.add_zero, hcnt, ha,
        wireUnits_append (by rw [h₁.1, answers_length]), hb, Memory.setRange_append, answers_length, Nat.add_comm 1,
        ← hk1]
      rfl

end Sys2Proof.Machine
end

