-- ==== Sys2Proof/Laws/Steps.lean ====
section
/-! SUPPORT. What an operation can do, said once: it is refused, it is an INIT, or it works on the wire with select held as the
rules say and then ends well or in the fatal entry. Every invariant is derived from `exec_cases`. -/

namespace Sys2Proof.Machine

theorem wireScan_append (cs : Bool) (a b : List Event) :
    wireScan cs (a ++ b) = (wireScan cs a).bind fun cs' => wireScan cs' b := by
  induction a generalizing cs with
  | nil => rfl
  | cons e a ih =>
    simp only [List.cons_append, wireScan]
    cases wireStep cs e with
    | none => rfl
    | some cs' => exact ih cs'

theorem wireScan_units (o i : List Byte) : wireScan true (wireUnits o i) = some true := by
  induction o generalizing i with
  | nil => rfl
  | cons b o ih =>
    cases i with
    | nil => rfl
    | cons c i => exact ih i

theorem not_mem_wireUnits (c : BusConfig) (o i : List Byte) : Event.cfgApplied c ∉ wireUnits o i := by
  induction o generalizing i with
  | nil => simp [wireUnits]
  | cons b o ih =>
    cases i with
    | nil => simp [wireUnits]
    | cons d i => simpa [wireUnits] using ih i

/-- What an operation does between its checks and its end: only the wire, chip-select, the first `N` bytes of `BUF` and the draws
change, and the events it adds are in an order the wire allows. -/
structure Worked (N : Nat) (s t : State) : Prop where
  config : t.config = s.config
  st : t.st = s.st
  cfg : t.cfg = s.cfg
  result : t.result = s.result
  lastst : t.lastst = s.lastst
  seq : t.seq = s.seq
  rsps : t.rsps = s.rsps
  host : t.host = s.host
  epochs : t.epochs = s.epochs
  trace : ∃ E, t.trace = s.trace ++ E ∧ wireScan s.cs E = some t.cs ∧ ∀ c, Event.cfgApplied c ∉ E
  wf : Memory.wf s.buf → Memory.wf t.buf
  mem : ∀ c ∈ t.buf, c.1 < N ∨ c ∈ s.buf
  out : ∀ j, N ≤ j → Memory.get t.buf j = Memory.get s.buf j
  kept : N = 0 → t.buf = s.buf

theorem Worked.refl (N : Nat) (s : State) : Worked N s s where
  config := rfl
  st := rfl
  cfg := rfl
  result := rfl
  lastst := rfl
  seq := rfl
  rsps := rfl
  host := rfl
  epochs := rfl
  trace := ⟨[], by simp, rfl, by simp⟩
  wf := id
  mem := fun _ h => .inr h
  out := fun _ _ => rfl
  kept := fun _ => rfl

theorem Worked.trans {N : Nat} {s t u : State} (h₁ : Worked N s t) (h₂ : Worked N t u) : Worked N s u where
  config := h₂.config.trans h₁.config
  st := h₂.st.trans h₁.st
  cfg := h₂.cfg.trans h₁.cfg
  result := h₂.result.trans h₁.result
  lastst := h₂.lastst.trans h₁.lastst
  seq := h₂.seq.trans h₁.seq
  rsps := h₂.rsps.trans h₁.rsps
  host := h₂.host.trans h₁.host
  epochs := h₂.epochs.trans h₁.epochs
  trace := by
    obtain ⟨E₁, e₁, w₁, c₁⟩ := h₁.trace
    obtain ⟨E₂, e₂, w₂, c₂⟩ := h₂.trace
    refine ⟨E₁ ++ E₂, by rw [e₂, e₁, List.append_assoc], by rw [wireScan_append, w₁]; exact w₂, fun c hc => ?_⟩
    rcases List.mem_append.1 hc with hc | hc
    · exact c₁ c hc
    · exact c₂ c hc
  wf := fun h => h₂.wf (h₁.wf h)
  mem := fun c hc => (h₂.mem c hc).elim .inl (h₁.mem c)
  out := fun j hj => (h₂.out j hj).trans (h₁.out j hj)
  kept := fun h => (h₂.kept h).trans (h₁.kept h)

theorem Worked.mono {M N : Nat} {s t : State} (h : Worked M s t) (hMN : M ≤ N) : Worked N s t :=
  { h with
    mem := fun c hc => (h.mem c hc).imp_left fun h => Nat.lt_of_lt_of_le h hMN
    out := fun j hj => h.out j (Nat.le_trans hMN hj)
    kept := fun h0 => h.kept (by omega) }

theorem moved_worked (N : Nat) {s : State} (h : s.cs = true) (o i : List Byte) (u t : Nat) :
    Worked N s (moved s (wireUnits o i) u t) :=
  { Worked.refl N s with
    trace := ⟨wireUnits o i, rfl, by rw [h, wireScan_units]; exact congrArg some h.symm, fun c => not_mem_wireUnits c o i⟩ }

theorem select_worked (N : Nat) {s : State} (h : s.cs = false) : Worked N s (select s) :=
  { Worked.refl N s with
    trace := ⟨[.csa], rfl, by rw [h]; rfl, by simp⟩ }

theorem release_worked (N : Nat) (s : State) : Worked N s (release s) := by
  cases h : s.cs with
  | false => rw [release_idle h]; exact Worked.refl N s
  | true =>
    rw [release_moved h]
    exact { Worked.refl N s with trace := ⟨[.csr], rfl, by rw [h]; rfl, by simp⟩ }

/-- What can become of a part of an operation: it worked and left chip-select at `cs`, or it worked and then died with chip-select
still asserted. -/
def Fate (N : Nat) (s : State) (cs : Bool) : Flow → Prop
  | .going t _ => Worked N s t ∧ t.cs = cs
  | .dead t => ∃ u, Worked N s u ∧ u.cs = true ∧ t = fatalEntry u

theorem Fate.andThen {N : Nat} {s : State} {cs cs' : Bool} {f : Flow} {k : State → List Byte → Flow} (h : Fate N s cs f)
    (hk : ∀ t r, t.config = s.config → t.cs = cs → Fate N t cs' (k t r)) : Fate N s cs' (f.andThen k) := by
  cases f with
  | dead t => exact h
  | going t r =>
    have h' := hk t r h.1.config h.2
    simp only [Flow.andThen]
    cases hkt : k t r with
    | going u q => rw [hkt] at h'; exact ⟨h.1.trans h'.1, h'.2⟩
    | dead u =>
      rw [hkt] at h'
      obtain ⟨v, hv, hc, e⟩ := h'
      exact ⟨v, h.1.trans hv, hc, e⟩

theorem transfer_fate (N : Nat) {s : State} (h : s.cs = true) (o : List Byte) : Fate N s true (transfer o s) := by
  cases hd : txOutcome s 0 with
  | ok => rw [transfer_ok hd]; exact ⟨moved_worked N h _ _ _ _, h⟩
  | fail p => rw [transfer_fail hd]; exact ⟨_, moved_worked N h _ _ _ _, h, rfl⟩

theorem sendPieces_fate (N chunk left : Nat) (pay rcv : List Byte) {s : State} (h : s.cs = true) :
    Fate N s true (sendPieces chunk left pay rcv s) := by
  induction left generalizing pay rcv s with
  | zero => exact ⟨Worked.refl N s, h⟩
  | succ left ih => exact (transfer_fate N h _).andThen fun t r _ ht => ih _ _ ht

theorem sendChunk_fate {N lo n : Nat} {s : State} (h : s.cs = true) (hN : lo + n ≤ N) :
    Fate N s true (sendChunk lo n s) := by
  cases hd : txOutcome s 0 with
  | ok =>
    obtain ⟨o, u, -, e⟩ := sendChunk_ok (lo := lo) (n := n) hd
    rw [e]
    refine ⟨{ moved_worked N h o (answers s 0 n) n 1 with
      wf := fun hw => Memory.wf_setRange hw _ _
      mem := fun c hc => (Memory.mem_setRange hc).imp_left fun hlt => by rw [answers_length] at hlt; omega
      out := fun j hj => (Memory.get_setRange s.buf lo _ j).trans (if_neg (by rw [answers_length]; omega))
      kept := fun h0 => by
        have hn : n = 0 := by omega
        subst hn; rfl }, h⟩
  | fail p =>
    obtain ⟨o, u, -, e⟩ := sendChunk_fail (lo := lo) (n := n) hd
    rw [e]
    refine ⟨bufMoved s (wireUnits (o.take p) (answers s 0 (min p n))) (min p n) 1 (Memory.forget s.buf lo n) u,
      { moved_worked N h (o.take p) (answers s 0 (min p n)) (min p n) 1 with
      wf := fun hw => Memory.wf_forget hw _ _
      mem := fun c hc => .inr (Memory.mem_forget hc)
      out := fun j hj => (Memory.get_forget s.buf lo n j).trans (if_neg (by omega))
      kept := fun h0 => ?_ }, h, rfl⟩
    have hn : lo = 0 ∧ n = 0 := by omega
    obtain ⟨rfl, rfl⟩ := hn
    exact List.filter_eq_self.2 fun c _ => by simp

theorem chunk_end_le (chunk size k : Nat) (h : chunkLo chunk k ≤ size) : chunkLo chunk k + chunkLen chunk size k ≤ size := by
  unfold chunkLen; omega

theorem sendChunks_fate {chunk size left k : Nat} {s : State} (h : s.cs = true)
    (hk : ∀ j, j < left → (k + j) * chunk ≤ size) : Fate size s true (sendChunks true chunk size left k s) := by
  induction left generalizing k s with
  | zero => exact ⟨Worked.refl size s, h⟩
  | succ left ih =>
    refine (sendChunk_fate h (chunk_end_le chunk size k (hk 0 (by omega)))).andThen fun t r _ ht => ?_
    rw [ite_self]
    refine ih ht fun j hj => ?_
    rw [show k + 1 + j = k + (j + 1) by omega]
    exact hk (j + 1) (by omega)

/-- Every chunk of a write starts before its end (R118). -/
theorem chunk_starts {chunk size j : Nat} (hc : 1 ≤ chunk) (hj : j < chunkCount chunk size) : j * chunk < size := by
  have h : (j + 1) * chunk ≤ size + chunk - 1 := (Nat.le_div_iff_mul_le hc).1 hj
  rw [Nat.add_mul, Nat.one_mul] at h
  omega

/-- The chunks of a write cover it (R118). -/
theorem chunks_cover {chunk size : Nat} (hc : 1 ≤ chunk) : size ≤ chunkCount chunk size * chunk := by
  have h : (size + chunk - 1) / chunk < chunkCount chunk size + 1 := Nat.lt_succ_self _
  rw [Nat.div_lt_iff_lt_mul hc, Nat.add_mul, Nat.one_mul] at h
  omega

theorem sendBuffer_fate {size : Nat} {s : State} (h : s.cs = true) : Fate size s true (sendBuffer size true s) := by
  by_cases hc : 1 ≤ s.config.chunk
  · exact sendChunks_fate h fun j hj => by rw [Nat.zero_add]; exact Nat.le_of_lt (chunk_starts hc hj)
  · have h0 : s.config.chunk = 0 := by omega
    exact sendChunks_fate h fun j _ => by rw [h0, Nat.mul_zero]; exact Nat.zero_le _

/-- A write with its last chunk's release (R118). -/
theorem sendBuffer_hold_fate {size : Nat} (hold : Bool) {s : State} (h : s.cs = true) :
    ∃ cs, Fate size s cs (sendBuffer size hold s) := by
  have h1 := sendBuffer_fate (size := size) h
  unfold sendBuffer at h1 ⊢
  cases hn : chunkCount s.config.chunk size with
  | zero => exact ⟨s.cs, Worked.refl size s, rfl⟩
  | succ l =>
    rw [hn] at h1
    rw [sendChunks_hold]
    refine ⟨hold, h1.andThen fun t r _ ht => ?_⟩
    cases hold with
    | true => exact ⟨Worked.refl size t, ht⟩
    | false => exact ⟨release_worked size t, release_cs t⟩

theorem frameWith_fate {N : Nat} (sel : Byte) {payload : State → Flow} {s : State} (h : s.cs = false)
    (hp : ∀ t, t.config = s.config → t.cs = true → Fate N t true (payload t)) :
    Fate N s false (frameWith sel payload s) := by
  have h1 : Fate N s true (.going (select s) []) := ⟨select_worked N h, rfl⟩
  have h2 : Fate N s true (transfer [sel] (select s)) :=
    h1.andThen (k := fun t _ => transfer [sel] t) fun t r _ ht => transfer_fate N ht [sel]
  refine h2.andThen fun t r hc ht => (hp t hc ht).andThen fun u q _ hu => ?_
  rw [release_release]
  exact ⟨release_worked N u, release_cs u⟩

theorem frame_fate (N : Nat) (sel : Byte) (pay : List Byte) {s : State} (h : s.cs = false) :
    Fate N s false (frame sel pay s) :=
  frameWith_fate sel h fun _ _ ht => sendPieces_fate N _ _ _ _ ht

theorem frameBuffer_fate (sel : Byte) (n : Nat) {s : State} (h : s.cs = false) :
    Fate n s false (frameBuffer sel n s) :=
  frameWith_fate sel h fun _ _ ht => sendBuffer_fate ht

/-! ### Operations -/

/-- The checks find a failure only of R178's kinds. -/
theorem firstFailure_some {l a : Bool} {cs : Option Bool} {s : State} {c : Status} (h : firstFailure l cs a s = some c) :
    c ∈ [Status.errDead, .errState, .errSeq, .errArg] := by
  unfold firstFailure at h
  split_ifs at h <;> simp_all

/-- What is known once the checks pass. -/
theorem firstFailure_none {l a : Bool} {cs : Option Bool} {s : State} (h : firstFailure l cs a s = none) :
    s.st ≠ .fatal ∧ l = true ∧ (∀ b, cs = some b → s.cs = b) ∧ a = true := by
  unfold firstFailure at h
  split_ifs at h with h1 h2 h3 h4
  refine ⟨h1, by simpa using h2, fun b hb => ?_, by simpa using h4⟩
  simp [hb] at h3
  exact h3.symm

theorem checked_cases {f : Option Status} {run : State → State} {s : State} :
    (∃ c, f = some c ∧ checked f run s = refuse c s) ∨ (f = none ∧ checked f run s = run s) := by
  cases f with
  | none => exact .inr ⟨rfl, rfl⟩
  | some c => exact .inl ⟨c, rfl, rfl⟩

/-- What operation `i`, past its checks and no INIT, does: work, then a good end or the fatal entry. -/
def Ends (i : Instr) (s t : State) : Prop :=
  s.st = .opened ∧ reach i ≤ s.config.bufMax ∧ (isProtocol i = true → s.cs = false) ∧
  ∃ u, Worked (reach i) s u ∧
    ((∃ r : Option HalfWord, r.isSome = hasResult i ∧ (isProtocol i = true → u.cs = false) ∧ t = finish .ok r u) ∨
      (u.cs = true ∧ t = fatalEntry u))

theorem Fate.close {N : Nat} {s : State} {cs : Bool} {f : Flow} {k : State → List Byte → State} (h : Fate N s cs f) :
    ∃ u, Worked N s u ∧ ((∃ r, u.cs = cs ∧ f.close k = k u r) ∨ (u.cs = true ∧ f.close k = fatalEntry u)) := by
  cases f with
  | going t r => exact ⟨t, h.1, .inl ⟨r, h.2, rfl⟩⟩
  | dead t =>
    obtain ⟨u, hu, hc, e⟩ := h
    exact ⟨u, hu, .inr ⟨hc, e⟩⟩

/-- Every operation answers a next state, and that state is one of these: a refusal, the outcome of an INIT whose checks passed,
or what work on the wire and its end leave. -/
theorem exec_cases (i : Instr) (s : State) :
    ∃ t, exec i s = .next t ∧
      ((∃ c ∈ [Status.errDead, .errState, .errSeq, .errArg], t = refuse c s) ∨
       (∃ m b w d, i = .init m b w d ∧ (s.st = .closed ∨ s.st = .opened) ∧ s.cs = false ∧ t = runInit (initConfig m b w d) s) ∨
       ((∀ m b w d, i ≠ .init m b w d) ∧ Ends i s t)) := by
  have traffic : ∀ {cs a run}, (∀ m b w d, i ≠ .init m b w d) →
      (s.st = .opened → (∀ b, cs = some b → s.cs = b) → a = true → Ends i s (run s)) →
      exec i s = .next (checked (trafficFailure cs a s) run s) →
      ∃ t, exec i s = .next t ∧
      ((∃ c ∈ [Status.errDead, .errState, .errSeq, .errArg], t = refuse c s) ∨
       (∃ m b w d, i = .init m b w d ∧ (s.st = .closed ∨ s.st = .opened) ∧ s.cs = false ∧ t = runInit (initConfig m b w d) s) ∨
       ((∀ m b w d, i ≠ .init m b w d) ∧ Ends i s t)) := by
    intro cs a run hi hrun he
    refine ⟨_, he, ?_⟩
    rcases checked_cases (f := trafficFailure cs a s) (run := run) (s := s) with ⟨c, hc, e⟩ | ⟨hc, e⟩
    · exact .inl ⟨c, firstFailure_some hc, e⟩
    · obtain ⟨-, hl, hcs, ha⟩ := firstFailure_none hc
      exact .inr (.inr ⟨hi, e ▸ hrun (by simpa using hl) hcs ha⟩)
  have protocol : ∀ {N f k}, reach i = N → N ≤ s.config.bufMax → isProtocol i = true → s.st = .opened → s.cs = false →
      Fate N s false f → (∀ u r, ∃ q : Option HalfWord, q.isSome = hasResult i ∧ k u r = finish .ok q u) →
      Ends i s (f.close k) := by
    intro N f k hN hb hp hst hcs hf hk
    subst hN
    obtain ⟨u, hu, ⟨r, hr, e⟩ | e⟩ := hf.close (k := k)
    · obtain ⟨q, hq, ek⟩ := hk u r
      exact ⟨hst, hb, fun _ => hcs, u, hu, .inl ⟨q, hq, fun _ => hr, e.trans ek⟩⟩
    · exact ⟨hst, hb, fun _ => hcs, u, hu, .inr e⟩
  cases i with
  | init m b w d =>
    refine ⟨_, rfl, ?_⟩
    rcases checked_cases (f := initFailure s) (run := runInit (initConfig m b w d)) (s := s) with ⟨c, hc, e⟩ | ⟨hc, e⟩
    · exact .inl ⟨c, firstFailure_some hc, e⟩
    · obtain ⟨-, hl, hcs, -⟩ := firstFailure_none hc
      exact .inr (.inl ⟨m, b, w, d, rfl, by simpa using hl, hcs _ rfl, e⟩)
  | beginFrame =>
    refine traffic (by simp) (fun hst hcs _ => ?_) rfl
    exact ⟨hst, Nat.zero_le _, by simp [isProtocol], select s, select_worked _ (hcs _ rfl),
      .inl ⟨none, rfl, by simp [isProtocol], rfl⟩⟩
  | endFrame =>
    refine traffic (by simp) (fun hst _ _ => ?_) rfl
    exact ⟨hst, Nat.zero_le _, by simp [isProtocol], release s, release_worked _ s, .inl ⟨none, rfl, by simp [isProtocol], rfl⟩⟩
  | write size hold =>
    refine traffic (by simp) (fun hst hcs ha => ?_) rfl
    have hcs := hcs _ rfl
    have hb : size ≤ s.config.bufMax := by simp [sizeOk] at ha; exact ha.2
    obtain ⟨cs, hfate⟩ := sendBuffer_hold_fate (size := size) hold hcs
    obtain ⟨u, hu, ⟨r, hr, e⟩ | e⟩ := hfate.close (k := fun s _ => ret s)
    · exact ⟨hst, hb, by simp [isProtocol], u, hu, .inl ⟨none, rfl, by simp [isProtocol], e⟩⟩
    · exact ⟨hst, hb, by simp [isProtocol], u, hu, .inr e⟩
  | xferb b =>
    refine traffic (by simp) (fun hst hcs _ => ?_) rfl
    obtain ⟨u, hu, ⟨r, hr, e⟩ | e⟩ :=
      (transfer_fate 0 (hcs _ rfl) [b]).close (k := fun s rcv => retValue (byteResult rcv) s)
    · exact ⟨hst, Nat.zero_le _, by simp [isProtocol], u, hu, .inl ⟨some _, rfl, by simp [isProtocol], e⟩⟩
    · exact ⟨hst, Nat.zero_le _, by simp [isProtocol], u, hu, .inr e⟩
  | xferw w =>
    refine traffic (by simp) (fun hst hcs _ => ?_) rfl
    obtain ⟨u, hu, ⟨r, hr, e⟩ | e⟩ :=
      (transfer_fate 0 (hcs _ rfl) (wordUnits s.config w)).close (k := fun s rcv => retValue (wordResult s.config rcv) s)
    · exact ⟨hst, Nat.zero_le _, by simp [isProtocol], u, hu, .inl ⟨some _, rfl, by simp [isProtocol], e⟩⟩
    · exact ⟨hst, Nat.zero_le _, by simp [isProtocol], u, hu, .inr e⟩
  | wcmd a =>
    refine traffic (by simp) (fun hst hcs _ => ?_) rfl
    exact protocol rfl (Nat.zero_le _) rfl hst (hcs _ rfl) (frame_fate 0 _ _ (hcs _ rfl)) fun u r => ⟨none, rfl, rfl⟩
  | wdata v =>
    refine traffic (by simp) (fun hst hcs _ => ?_) rfl
    exact protocol rfl (Nat.zero_le _) rfl hst (hcs _ rfl) (frame_fate 0 _ _ (hcs _ rfl)) fun u r => ⟨none, rfl, rfl⟩
  | wdatan n =>
    refine traffic (by simp) (fun hst hcs ha => ?_) rfl
    exact protocol rfl (by simp [sizeOk] at ha; exact ha.2) rfl hst (hcs _ rfl) (frameBuffer_fate _ n (hcs _ rfl))
      fun u r => ⟨none, rfl, rfl⟩
  | wdataw w =>
    refine traffic (by simp) (fun hst hcs _ => ?_) rfl
    exact protocol rfl (Nat.zero_le _) rfl hst (hcs _ rfl) (frame_fate 0 _ _ (hcs _ rfl)) fun u r => ⟨none, rfl, rfl⟩
  | rdata =>
    refine traffic (by simp) (fun hst hcs _ => ?_) rfl
    exact protocol rfl (Nat.zero_le _) rfl hst (hcs _ rfl) (frame_fate 0 _ _ (hcs _ rfl)) fun u r => ⟨some _, rfl, rfl⟩
  | rstatus =>
    refine traffic (by simp) (fun hst hcs _ => ?_) rfl
    exact protocol rfl (Nat.zero_le _) rfl hst (hcs _ rfl) (frame_fate 0 _ _ (hcs _ rfl)) fun u r => ⟨some _, rfl, rfl⟩
  | wreg a v =>
    refine traffic (by simp) (fun hst hcs _ => ?_) rfl
    exact protocol rfl (Nat.zero_le _) rfl hst (hcs _ rfl)
      ((frame_fate 0 _ _ (hcs _ rfl)).andThen fun t _ _ ht => frame_fate 0 _ _ ht) fun u r => ⟨none, rfl, rfl⟩
  | wreg16 a v =>
    refine traffic (by simp) (fun hst hcs _ => ?_) rfl
    have two : ∀ a v (t : State), t.cs = false → Fate 0 t false (registerWrite a v t) := fun a v t ht =>
      (frame_fate 0 _ _ ht).andThen fun t _ _ ht => frame_fate 0 _ _ ht
    exact protocol rfl (Nat.zero_le _) rfl hst (hcs _ rfl)
      ((two _ _ s (hcs _ rfl)).andThen fun t _ _ ht => two _ _ t ht) fun u r => ⟨none, rfl, rfl⟩
  | rreg a =>
    refine traffic (by simp) (fun hst hcs _ => ?_) rfl
    exact protocol rfl (Nat.zero_le _) rfl hst (hcs _ rfl)
      ((frame_fate 0 _ _ (hcs _ rfl)).andThen fun t _ _ ht => frame_fate 0 _ _ ht) fun u r => ⟨some _, rfl, rfl⟩

end Sys2Proof.Machine
end

