-- ==== Sys2Proof/Laws/BusConfig.lean ====
section
/-! SUPPORT. The BusConfig in force: the units of a trace bit by bit, and that no shared operation on the wire reads `CFG`. -/

namespace Sys2Proof.Machine

/-! ### The units of a trace bit by bit (R55) -/

/-- A trace that applies no BusConfig is serialised in the order of the one in force before it. -/
theorem serialFrom_of_no_cfgApplied {t : List Event} (h : ∀ c, Event.cfgApplied c ∉ t) (n : Nat) (cfg : Option BusConfig) :
    serialFrom n cfg t = (exchanged t).map fun u => cfg.map fun c => serialUnit n c u.1 u.2 := by
  induction t with
  | nil => rfl
  | cons e t ih =>
    have ih := ih fun c hc => h c (List.mem_cons_of_mem _ hc)
    cases e with
    | cfgApplied c => exact absurd List.mem_cons_self (h c)
    | csa => exact ih
    | csr => exact ih
    | x o i => exact congrArg _ ih

/-- A trace cut in two: the second part starts with the BusConfig the first part left in force. -/
theorem serialFrom_append (n : Nat) (a b : List Event) :
    serialFrom n none (a ++ b) = serialFrom n none a ++ serialFrom n (lastApplied a) b := by
  suffices h : ∀ cfg, serialFrom n cfg (a ++ b) = serialFrom n cfg a ++ serialFrom n (a.foldl (fun c e => match e with
    | .cfgApplied cfg => some cfg
    | .csa => c
    | .csr => c
    | .x _ _ => c) cfg) b from h none
  induction a with
  | nil => exact fun _ => rfl
  | cons e a ih =>
    intro cfg
    cases e with
    | cfgApplied c => exact ih (some c)
    | csa => exact ih cfg
    | csr => exact ih cfg
    | x o i => exact congrArg _ (ih cfg)

theorem exchanged_append (a b : List Event) : exchanged (a ++ b) = exchanged a ++ exchanged b := List.filterMap_append

/-! ### No operation on the wire reads `CFG` (R24, R27, R55) -/

/-- What becomes of a part of an operation when `CFG` is `cfg` instead: the same, but for `CFG`, which the fatal entry takes away. -/
def Flow.withCfg (cfg : Option BusConfig) : Flow → Flow
  | .going s rcv => .going { s with cfg := cfg } rcv
  | .dead s => .dead s

theorem Flow.withCfg_andThen {cfg : Option BusConfig} {f : Flow} {k : State → List Byte → Flow}
    (h : ∀ s r, k { s with cfg := cfg } r = (k s r).withCfg cfg) :
    (f.withCfg cfg).andThen k = (f.andThen k).withCfg cfg := by
  cases f with
  | going s r => exact h s r
  | dead s => rfl

theorem release_withCfg (cfg : Option BusConfig) (s : State) :
    release { s with cfg := cfg } = { release s with cfg := cfg } := by
  obtain ⟨_, _, _, _ | _, _⟩ := s <;> rfl

theorem fatalEntry_withCfg (cfg : Option BusConfig) (s : State) : fatalEntry { s with cfg := cfg } = fatalEntry s := by
  simp only [fatalEntry, release_withCfg]

theorem fetchBytes_withCfg (cfg : Option BusConfig) (lo n : Nat) (s : State) :
    fetchBytes lo n { s with cfg := cfg } = ({ (fetchBytes lo n s).1 with cfg := cfg }, (fetchBytes lo n s).2) := by
  induction n generalizing lo s with
  | zero => rfl
  | succ n ih =>
    have hf : fetchByte lo { s with cfg := cfg } = ({ (fetchByte lo s).1 with cfg := cfg }, (fetchByte lo s).2) := by
      unfold fetchByte; cases Memory.get s.buf lo <;> rfl
    simp only [fetchBytes, hf, ih]

theorem transact_withCfg (cfg : Option BusConfig) (o : List Byte) (s : State) :
    transact o { s with cfg := cfg } = ({ (transact o s).1 with cfg := cfg }, (transact o s).2) := by
  cases hd : txOutcome s 0 with
  | ok => rw [transact_ok hd, transact_ok (s := { s with cfg := cfg }) hd]; rfl
  | fail p => rw [transact_fail hd, transact_fail (s := { s with cfg := cfg }) hd]; rfl

theorem transfer_withCfg (cfg : Option BusConfig) (o : List Byte) (s : State) :
    transfer o { s with cfg := cfg } = (transfer o s).withCfg cfg := by
  simp only [transfer, transact_withCfg]
  obtain ⟨t, _ | _⟩ := transact o s
  · rfl
  · exact congrArg Flow.dead (fatalEntry_withCfg cfg t)

theorem sendChunk_withCfg (cfg : Option BusConfig) (lo n : Nat) (s : State) :
    sendChunk lo n { s with cfg := cfg } = (sendChunk lo n s).withCfg cfg := by
  simp only [sendChunk, fetchBytes_withCfg, transact_withCfg]
  obtain ⟨t, _ | _⟩ := transact (fetchBytes lo n s).2 (fetchBytes lo n s).1
  · rfl
  · exact congrArg Flow.dead (fatalEntry_withCfg cfg { t with buf := Memory.forget t.buf lo n })

theorem sendChunks_withCfg (cfg : Option BusConfig) (hold : Bool) (chunk size left k : Nat) (s : State) :
    sendChunks hold chunk size left k { s with cfg := cfg } = (sendChunks hold chunk size left k s).withCfg cfg := by
  induction left generalizing k s with
  | zero => rfl
  | succ left ih =>
    rw [sendChunks, sendChunk_withCfg]
    refine Flow.withCfg_andThen fun t _ => ?_
    dsimp only
    split_ifs with h1 h2 h2
    · exact ih _ _
    · rw [release_withCfg]; exact ih _ _
    · exact ih _ _
    all_goals (rw [release_withCfg]; exact ih _ _)

theorem sendPieces_withCfg (cfg : Option BusConfig) (chunk left : Nat) (pay rcv : List Byte) (s : State) :
    sendPieces chunk left pay rcv { s with cfg := cfg } = (sendPieces chunk left pay rcv s).withCfg cfg := by
  induction left generalizing pay rcv s with
  | zero => rfl
  | succ left ih =>
    rw [sendPieces, transfer_withCfg]
    exact Flow.withCfg_andThen fun t r => ih _ _ _

theorem frameWith_withCfg (cfg : Option BusConfig) (sel : Byte) {payload : State → Flow}
    (h : ∀ s, payload { s with cfg := cfg } = (payload s).withCfg cfg) (s : State) :
    frameWith sel payload { s with cfg := cfg } = (frameWith sel payload s).withCfg cfg := by
  rw [frameWith, show select { s with cfg := cfg } = { select s with cfg := cfg } from rfl, transfer_withCfg]
  refine Flow.withCfg_andThen fun t _ => ?_
  rw [h]
  exact Flow.withCfg_andThen fun u r => by
    simp only [release_withCfg]; rfl

theorem frame_withCfg (cfg : Option BusConfig) (sel : Byte) (pay : List Byte) (s : State) :
    frame sel pay { s with cfg := cfg } = (frame sel pay s).withCfg cfg :=
  frameWith_withCfg (payload := sendBytes pay) cfg sel (fun t => sendPieces_withCfg cfg t.config.chunk _ pay [] t) s

theorem frameBuffer_withCfg (cfg : Option BusConfig) (sel : Byte) (n : Nat) (s : State) :
    frameBuffer sel n { s with cfg := cfg } = (frameBuffer sel n s).withCfg cfg :=
  frameWith_withCfg (payload := sendBuffer n true) cfg sel (fun t => sendChunks_withCfg cfg true t.config.chunk n _ 0 t) s

theorem commandFrame_withCfg (cfg : Option BusConfig) (addr : Byte) (s : State) :
    commandFrame addr { s with cfg := cfg } = (commandFrame addr s).withCfg cfg := frame_withCfg cfg _ _ s

theorem readFrame_withCfg (cfg : Option BusConfig) (s : State) :
    readFrame { s with cfg := cfg } = (readFrame s).withCfg cfg := frame_withCfg cfg _ _ s

theorem registerWrite_withCfg (cfg : Option BusConfig) (addr v : Byte) (s : State) :
    registerWrite addr v { s with cfg := cfg } = (registerWrite addr v s).withCfg cfg := by
  rw [registerWrite, commandFrame_withCfg]
  exact Flow.withCfg_andThen fun t _ => frame_withCfg cfg _ _ t

/-- The end of an operation leaves the same but for `CFG`. -/
theorem Flow.withCfg_close {cfg : Option BusConfig} {f : Flow} {k : State → List Byte → State}
    (h : ∀ s r, k { s with cfg := cfg } r = { k s r with cfg := cfg }) :
    ∃ cfg', (f.withCfg cfg).close k = { f.close k with cfg := cfg' } := by
  cases f with
  | going s r => exact ⟨cfg, h s r⟩
  | dead s => exact ⟨s.cfg, rfl⟩

end Sys2Proof.Machine
end

