-- ==== Sys2Proof/Laws/Decode.lean ====
section
/-! SUPPORT. What the opcode lookup answers, and when a word decodes. -/

namespace Sys2Proof

/-- Every opcode of R88 is found. -/
theorem Opcode.ofByte_code (o : Opcode) : Opcode.ofByte o.code = some o := by
  cases o <;> decide

/-- An opcode that is found is the byte looked up. -/
theorem Opcode.code_of_ofByte {b : BitVec 8} {o : Opcode} (h : Opcode.ofByte b = some o) : b = o.code :=
  (beq_iff_eq.1 (List.find?_some (p := fun o : Opcode => o.code == b) h)).symm

/-- A word with a known opcode and no must-be-zero bit set decodes to its fields (R93). -/
theorem decode_ok {o : Opcode} {w : CmdWord} (h1 : w.extractLsb' 24 8 = o.code) (h2 : w &&& o.format.mbz = 0) :
    decode w = .ok (o.build w) := by
  unfold decode
  rw [h1, Opcode.ofByte_code]
  simp only [h2, if_true]

/-- A word that decodes has a known opcode and no must-be-zero bit set, and the operation is read from its fields (R93). -/
theorem decode_eq_ok {w : CmdWord} {i : Instr} (h : decode w = .ok i) :
    ∃ o : Opcode, w.extractLsb' 24 8 = o.code ∧ w &&& o.format.mbz = 0 ∧ i = o.build w := by
  unfold decode at h
  split at h
  · cases h
  · next o ho =>
    split at h
    · next hm =>
      injection h with h
      exact ⟨o, Opcode.code_of_ofByte ho, hm, h.symm⟩
    · cases h

end Sys2Proof
end

