-- ==== Sys2Proof/Laws/Flags.lean ====
section
/-! SUPPORT. The response word field by field, a word as its two bytes, the address of the high byte, and the checks of an operation
that needs an open channel. -/

namespace Sys2Proof.Machine

theorem response_code (c : Status) (r : Option HalfWord) : (response c r).extractLsb' 24 8 = c.code := by
  unfold response
  generalize c.code = x
  generalize r.getD 0 = y
  apply BitVec.eq_of_getLsbD_eq
  intro i h
  rw [BitVec.getLsbD_extractLsb', BitVec.getLsbD_append, BitVec.getLsbD_append]
  simp only [h, decide_true, Bool.true_and, show ¬ 24 + i < 16 by omega, if_false, show ¬ 24 + i - 16 < 8 by omega,
    show 24 + i - 16 - 8 = i by omega]

theorem response_zero (c : Status) (r : Option HalfWord) : (response c r).extractLsb' 16 8 = 0 := by
  unfold response
  generalize c.code = x
  generalize r.getD 0 = y
  apply BitVec.eq_of_getLsbD_eq
  intro i h
  rw [BitVec.getLsbD_extractLsb', BitVec.getLsbD_append, BitVec.getLsbD_append]
  simp only [h, decide_true, Bool.true_and, show ¬ 16 + i < 16 by omega, if_false, show 16 + i - 16 < 8 by omega,
    if_true, BitVec.getLsbD_zero, BitVec.ofNat_eq_ofNat]

theorem response_result (c : Status) (r : Option HalfWord) : (response c r).extractLsb' 0 16 = r.getD 0 := by
  unfold response
  generalize c.code = x
  generalize r.getD 0 = y
  apply BitVec.eq_of_getLsbD_eq
  intro i h
  rw [BitVec.getLsbD_extractLsb', BitVec.getLsbD_append]
  simp only [h, decide_true, Bool.true_and, Nat.zero_add, if_true]

theorem response_none (c : Status) : response c none = (c.code ++ 0#24 : BitVec 32) := by
  cases c <;> rfl

theorem response_ok (r : Option HalfWord) : response .ok r = (0#16 ++ r.getD 0 : BitVec 32) := by
  simp [response, Status.code]

theorem refuse_refusedWith (c : Status) (s : State) : refuse c s = refusedWith c s := by
  simp [refusedWith, finish, response_none]

theorem hi8_append (hi lo : Byte) : hi8 (hi ++ lo) = hi := by
  apply BitVec.eq_of_getLsbD_eq
  intro i h
  rw [hi8, BitVec.getLsbD_extractLsb', BitVec.getLsbD_append]
  simp [h]

theorem lo8_append (hi lo : Byte) : lo8 (hi ++ lo) = lo := by
  apply BitVec.eq_of_getLsbD_eq
  intro i h
  rw [lo8, BitVec.getLsbD_extractLsb', BitVec.getLsbD_append]
  simp [h]

/-- A word goes out as its two bytes, high byte first where `WORD_HIGH_FIRST` holds (R54, R8). -/
theorem wordUnits_append {p : Config} (hw : p.wordBits = 16) (hu : p.unitBits = 8) (hi lo : Byte) :
    wordUnits p (hi ++ lo) = if p.wordHighFirst then [hi, lo] else [lo, hi] := by
  have h : (List.range (p.wordBits / p.unitBits)).map (fun j => (hi ++ lo).extractLsb' (p.unitBits * j) 8) = [lo, hi] := by
    rw [hw, hu]
    exact congrArg₂ (fun a b => [a, b]) (lo8_append hi lo) (hi8_append hi lo)
  simp only [wordUnits, h]
  rfl

/-- Two received bytes make a word in the same order (R54, R89). -/
theorem wordResult_pair {p : Config} (hu : p.unitBits = 8) (i0 i1 : Byte) :
    wordResult p [i0, i1] = if p.wordHighFirst then i0 ++ i1 else i1 ++ i0 := by
  have h : ∀ a b : Byte, ((0 : HalfWord) <<< 8 ||| a.setWidth 16) <<< 8 ||| b.setWidth 16 = (a ++ b : HalfWord) := fun a b => by
    apply BitVec.eq_of_getLsbD_eq
    intro k hk
    rw [BitVec.getLsbD_append]
    by_cases h8 : k < 8
    · simp [h8, show k < 16 by omega]
    · have hb : b.getLsbD k = false := BitVec.getLsbD_of_ge b k (by omega)
      simp [h8, hk, hb]
  unfold wordResult
  rw [hu]
  cases p.wordHighFirst
  · exact h i1 i0
  · exact h i0 i1

/-- The address of the high byte does not wrap where WREG16 uses it (R89). -/
theorem nextAddr_toNat {addr : Byte} (h : addr ≠ 0xFF) : (nextAddr addr).toNat = addr.toNat + 1 := by
  have h1 := addr.isLt
  have h2 : addr.toNat ≠ 255 := fun e => h (BitVec.eq_of_toNat_eq e)
  simp [nextAddr]
  omega

/-- The chip-select check passes exactly where the needed level is not the other one (R175). -/
theorem csCheck_iff {needCs : Option Bool} {s : State} : needCs.any (· != s.cs) = true ↔ needCs = some (!s.cs) := by
  cases needCs with
  | none => simp
  | some b => cases b <;> cases s.cs <;> simp

/-- An operation that needs an open channel runs when its row of R174 and R175 holds. -/
theorem trafficFailure_none {needCs : Option Bool} {argsOk : Bool} {s : State} (h1 : s.st = .opened)
    (h2 : needCs ≠ some (!s.cs)) (h3 : argsOk = true) : trafficFailure needCs argsOk s = none := by
  have h2' : needCs.any (· != s.cs) = false := by simpa using fun h => h2 (csCheck_iff.1 h)
  simp [trafficFailure, firstFailure, h1, h2', h3]

end Sys2Proof.Machine
end

