-- ==== Sys2Proof/Laws/Frames.lean ====
section
/-! SUPPORT. Several register-protocol frames one after another, as a plan of selector and payload bytes: what they do when no
transaction fails, and when one does. -/

namespace Sys2Proof.Machine

/-- The frames of a plan, one after another; the answer is what the last payload received. -/
def sendPlan : Plan → List Byte → State → Flow
  | [], rcv, s => .going s rcv
  | f :: fs, _, s => (frame f.1 f.2 s).andThen fun s rcv => sendPlan fs rcv s

/-- Every payload of the plan is one transaction. -/
abbrev PlanFits (s : State) (p : Plan) : Prop := ∀ f ∈ p, 1 ≤ f.2.length ∧ f.2.length ≤ s.config.chunk

theorem planEvents_moved (s : State) (evs : List Event) (u t off : Nat) (p : Plan) :
    planEvents (moved s evs u t) off p = planEvents s (u + off) p := by
  induction p generalizing off with
  | nil => rfl
  | cons f p ih =>
    simp only [planEvents, ih, answers_moved]
    rw [show u + (off + 1 + f.2.length) = u + off + 1 + f.2.length by omega]

theorem planUnits_ge {p : Plan} {f : Byte × List Byte} (h : f ∈ p) : f.2.length ≤ planUnits p := by
  induction p with
  | nil => simp at h
  | cons g p ih =>
    rcases List.mem_cons.1 h with rfl | h
    · simp only [planUnits]; omega
    · have := ih h
      simp only [planUnits]; omega

/-- What the last payload of a plan receives, `rcv` for the empty plan. -/
def planAnswer (s : State) (p : Plan) (rcv : List Byte) : List Byte :=
  match p.getLast? with
  | none => rcv
  | some f => answers s (planUnits p - f.2.length) f.2.length

theorem deselected {s : State} (h : s.cs = false) : { s with cs := false } = s := by
  cases s; simp_all

/-- A plan none of whose transactions fails (R80, R84). -/
theorem sendPlan_ok {p : Plan} {rcv : List Byte} {s : State} (hcs : s.cs = false) (hp : PlanFits s p)
    (hok : PlatformOk s (2 * p.length)) :
    sendPlan p rcv s =
      .going (moved s (planEvents s 0 p) (planUnits p) (2 * p.length)) (planAnswer s p rcv) := by
  induction p generalizing s rcv with
  | nil => simp [sendPlan, planEvents, planUnits, moved_nothing, planAnswer]
  | cons f p ih =>
    have hf := hp f (by simp)
    have e := frame_ok (sel := f.1) hf.1 hf.2 (hok 0 (by simp)) (hok 1 (by simp; omega))
    rw [deselected hcs] at e
    rw [sendPlan, e]
    simp only [Flow.andThen]
    rw [ih (s := moved s _ _ _) (hcs := hcs) (hp := fun g hg => hp g (by simp [hg])) (hok := fun j hj => by
      show txOutcome _ j = _
      rw [txOutcome_moved]; exact hok _ (by simp; omega))]
    rw [moved_moved, planEvents_moved]
    congr 1
    · simp [planEvents, planUnits, Nat.mul_add, Nat.add_comm]
    · unfold planAnswer
      cases p with
      | nil => simp [planUnits]
      | cons g p =>
        rw [List.getLast?_cons_cons]
        cases hg : (g :: p).getLast? with
        | none => simp at hg
        | some q =>
          have := planUnits_ge (List.mem_of_getLast? hg)
          simp only [answers_moved]
          rw [show planUnits (f :: g :: p) = 1 + f.2.length + planUnits (g :: p) from rfl]
          congr 1
          omega

/-- The fatal entry after work with select held (R176). -/
theorem fatalEntry_moved {s : State} {evs : List Event} {u t : Nat} (h : s.cs = true) :
    fatalEntry (moved s evs u t) = died s (evs ++ [.csr]) u t := by
  simp [fatalEntry, finish, moved, died, release, h, emit, response, Status.code]

/-- A plan whose frame `f` is the first to fail, in its selector or in its payload, after `p` units of that transaction (R112,
R176). -/
theorem sendPlan_fail {before after : Plan} {f : Byte × List Byte} {p : Nat} {rcv : List Byte} {s : State} (hcs : s.cs = false)
    (hp : PlanFits s (before ++ [f])) (hok : PlatformOk s (2 * before.length)) :
    (txOutcome s (2 * before.length) = .fail p →
      sendPlan (before ++ f :: after) rcv s = .dead (died s (cutEvents s before ([f.1].take p))
        (planUnits before + ([f.1].take p).length) (2 * before.length + 1))) ∧
    (txOutcome s (2 * before.length) = .ok → txOutcome s (2 * before.length + 1) = .fail p →
      sendPlan (before ++ f :: after) rcv s = .dead (died s (cutEvents s before (f.1 :: f.2.take p))
        (planUnits before + (f.1 :: f.2.take p).length) (2 * before.length + 2))) := by
  induction before generalizing s rcv with
  | nil =>
    have hf := hp f (by simp)
    constructor
    · intro h
      rw [List.nil_append, sendPlan, frame_fail_selector h]
      simp only [Flow.andThen]
      rw [fatalEntry_moved rfl]
      simp [cutEvents, planEvents, planUnits, died, select, emit]
    · intro h0 h
      rw [List.nil_append, sendPlan, frame_fail_payload hf.1 hf.2 h0 h]
      simp only [Flow.andThen]
      rw [fatalEntry_moved rfl]
      simp [cutEvents, planEvents, planUnits, died, select, emit]
  | cons g before ih =>
    have hg := hp g (by simp)
    have e := frame_ok (sel := g.1) hg.1 hg.2 (hok 0 (by simp)) (hok 1 (by simp; omega))
    rw [deselected hcs] at e
    rw [List.cons_append, sendPlan, e]
    simp only [Flow.andThen]
    obtain ⟨h1, h2⟩ := ih (rcv := answers s 1 g.2.length)
      (s := moved s ([.csa] ++ wireUnits (g.1 :: g.2) (answers s 0 (1 + g.2.length)) ++ [.csr]) (1 + g.2.length) 2)
      hcs (fun q hq => hp q (by rw [List.cons_append]; exact List.mem_cons_of_mem _ hq)) (fun j hj => by
        show txOutcome _ j = _
        rw [txOutcome_moved]; exact hok _ (by simp; omega))
    have hl : 2 * (g :: before).length = 2 + 2 * before.length := by simp; omega
    constructor
    · intro h
      rw [h1 (by rw [txOutcome_moved, ← hl]; exact h)]
      simp only [cutEvents, planEvents_moved, answers_moved, planEvents, planUnits]
      simp [died, moved, Nat.add_assoc, Nat.add_comm, Nat.add_left_comm]; omega
    · intro h0 h
      rw [h2 (by rw [txOutcome_moved, ← hl]; exact h0) (by rw [txOutcome_moved, ← Nat.add_assoc, ← hl]; exact h)]
      simp only [cutEvents, planEvents_moved, answers_moved, planEvents, planUnits]
      simp [died, moved, Nat.add_assoc, Nat.add_comm, Nat.add_left_comm]; omega

end Sys2Proof.Machine
end

