-- ==== Sys2Proof/Laws/PerInstr.lean ====
section
/-! SUPPORT. Per operation: the command word the encoder writes matches that operation's own row of spec/opcode_table.json. -/

namespace Sys2Proof.Laws.Encoding

/-- The mask of each operation's row of spec/opcode_table.json. -/
def rowMask : Instr → CmdWord
  | .init _ _ _ _ | .write _ _ | .wreg16 _ _ => 0xFF000000
  | .beginFrame | .endFrame | .rdata | .rstatus => 0xFFFFFFFF
  | .xferb _ | .wcmd _ | .wdata _ | .rreg _ => 0xFFFFFF00
  | .xferw _ | .wdataw _ | .wreg _ _ => 0xFFFF0000
  | .wdatan _ => 0xFF800000

/-- The match of each operation's row. -/
def rowMatch : Instr → CmdWord
  | .init _ _ _ _ => 0x01000000
  | .beginFrame => 0x02000000
  | .endFrame => 0x03000000
  | .write _ _ => 0x04000000
  | .xferb _ => 0x05000000
  | .xferw _ => 0x06000000
  | .wcmd _ => 0x10000000
  | .wdata _ => 0x11000000
  | .wdatan _ => 0x12000000
  | .wdataw _ => 0x13000000
  | .rdata => 0x14000000
  | .rstatus => 0x15000000
  | .wreg _ _ => 0x18000000
  | .wreg16 _ _ => 0x19000000
  | .rreg _ => 0x1A000000

/-- The command word of a well-formed operation is in its row: opcode and must-be-zero bits as the row has them (R86, R88). -/
def Statement (i : Instr) : Prop := i.wellFormed = true → encode i &&& rowMask i = rowMatch i

/-- A word whose bits outside a field of `k` low bits are fixed. -/
theorem and_high {m n : Nat} (a : BitVec m) (b : BitVec n) :
    (a ++ b) &&& (BitVec.allOnes m ++ 0#n) = a ++ 0#n := by
  apply BitVec.eq_of_getLsbD_eq
  intro i hi
  rw [BitVec.getLsbD_and, BitVec.getLsbD_append, BitVec.getLsbD_append, BitVec.getLsbD_append]
  by_cases h : i < n
  · simp [h]
  · simp [h, show i - n < m by omega]

theorem init (mode : BitVec 2) (bitOrder : BitVec 1) (wordSize : BitVec 5) (clockDivider : BitVec 16) :
    Statement (.init mode bitOrder wordSize clockDivider) := fun _ => by
  have e : (0x01#8 ++ mode ++ bitOrder ++ wordSize ++ clockDivider : BitVec 32) =
      0x01#8 ++ (mode ++ bitOrder ++ wordSize ++ clockDivider : BitVec 24) := by
    apply BitVec.eq_of_getLsbD_eq
    intro i hi
    simp only [BitVec.getLsbD_append]
    split_ifs <;> first | rfl | omega
  exact (congrArg (· &&& rowMask _) e).trans (and_high 0x01#8 _)

theorem beginFrame : Statement .beginFrame := fun _ => rfl

theorem endFrame : Statement .endFrame := fun _ => rfl

theorem write (size : Nat) (hold : Bool) : Statement (.write size hold) := fun _ => by
  have e : (0x04#8 ++ BitVec.ofBool hold ++ BitVec.ofNat 23 size : BitVec 32) =
      0x04#8 ++ (BitVec.ofBool hold ++ BitVec.ofNat 23 size : BitVec 24) := by
    apply BitVec.eq_of_getLsbD_eq
    intro i hi
    simp only [BitVec.getLsbD_append]
    split_ifs <;> first | rfl | omega
  exact (congrArg (· &&& rowMask _) e).trans (and_high 0x04#8 _)

theorem xferb (b : Byte) : Statement (.xferb b) := fun _ => and_high (0x05#8 ++ 0#16 : BitVec 24) b

theorem xferw (w : HalfWord) : Statement (.xferw w) := fun _ => and_high (0x06#8 ++ 0#8 : BitVec 16) w

theorem wcmd (addr : Byte) : Statement (.wcmd addr) := fun _ => and_high (0x10#8 ++ 0#16 : BitVec 24) addr

theorem wdata (v : Byte) : Statement (.wdata v) := fun _ => and_high (0x11#8 ++ 0#16 : BitVec 24) v

theorem wdatan (n : Nat) : Statement (.wdatan n) := fun _ => and_high (0x12#8 ++ 0#1 : BitVec 9) (BitVec.ofNat 23 n)

theorem wdataw (w : HalfWord) : Statement (.wdataw w) := fun _ => and_high (0x13#8 ++ 0#8 : BitVec 16) w

theorem rdata : Statement .rdata := fun _ => rfl

theorem rstatus : Statement .rstatus := fun _ => rfl

theorem wreg (addr v : Byte) : Statement (.wreg addr v) := fun _ => by
  have e : (0x18#8 ++ 0#8 ++ addr ++ v : BitVec 32) = (0x18#8 ++ 0#8 : BitVec 16) ++ (addr ++ v : BitVec 16) := by
    apply BitVec.eq_of_getLsbD_eq
    intro i hi
    simp only [BitVec.getLsbD_append]
    split_ifs <;> first | rfl | omega
  exact (congrArg (· &&& rowMask _) e).trans (and_high (0x18#8 ++ 0#8 : BitVec 16) _)

theorem wreg16 (addr : Byte) (v16 : HalfWord) : Statement (.wreg16 addr v16) := fun _ => by
  have e : (0x19#8 ++ addr ++ v16 : BitVec 32) = 0x19#8 ++ (addr ++ v16 : BitVec 24) := by
    apply BitVec.eq_of_getLsbD_eq
    intro i hi
    simp only [BitVec.getLsbD_append]
    split_ifs <;> first | rfl | omega
  exact (congrArg (· &&& rowMask _) e).trans (and_high 0x19#8 _)

theorem rreg (addr : Byte) : Statement (.rreg addr) := fun _ => and_high (0x1A#8 ++ 0#16 : BitVec 24) addr

end Sys2Proof.Laws.Encoding
end

