-- ==== Sys2Proof/Tests/Slice0.lean ====
section
/-! SUPPORT. Tests. Expected words, traces and responses are those of 95_test_vectors.md (the id stands in each docstring) or are
worked out by hand from the rule named; the witnesses show that the hypotheses of each statement can be met together, clause by
clause, at values on the edges of their ranges. -/

namespace Sys2Proof.Tests

open Sys2Proof Sys2Proof.Machine Sys2Proof.Claims

/-! ### Helpers -/

/-- The configuration the vectors assume: default selectors, `CHUNK` = 4096, `BUF_MAX` = 8192, the default `CFG_LEGAL`. -/
def config : Config where
  channelIndex := 0
  csLine := 0
  selCW := 0x80
  selSR := 0xC0
  selDW := 0x00
  selDR := 0x40
  dummy := 0x00
  chunk := 4096
  bufMax := 8192
  wordBits := 16
  wordHighFirst := true
  unitBits := 8
  cfgLegal := .standard
  divBits := 16
  csActiveLow := true

/-- The state after reset with that configuration and scripted draws. -/
def closedWith (inits : List Bool) (host : List HostAction) : State :=
  { State.reset with config := config, host := host, env := { Env.start with inits := inits } }

/-- `S_open` of the vectors at chip-select level `cs`, with `BUF` filled from index 0, the device's answers and the outcomes of the
platform transactions. -/
def openWith (cs : Bool) (buf miso : List Byte) (tx : List TxDraw) : State :=
  { State.reset with
    config := config
    st := .opened
    cfg := some 0x080040
    cs := cs
    buf := Memory.setRange [] 0 buf
    trace := if cs then [.cfgApplied 0x080040, .csa] else [.cfgApplied 0x080040]
    env := { Env.start with miso := miso, tx := tx } }

/-- The same with chunks of two bytes, so that a chunk boundary is near. -/
def smallChunks (s : State) : State := { s with config := { s.config with chunk := 2 } }

/-- `s` with `WORD_HIGH_FIRST` and `CS_ACTIVE_LOW` false. -/
def lowFirst (s : State) : State := { s with config := { s.config with wordHighFirst := false, csActiveLow := false } }

/-- A state in which the channel has failed or died. -/
def stopped (st : Lifecycle) : State := { closedWith [] [] with st := st }

/-- What an outcome leaves of the trace since `s`, the response words since `s`, and chip-select. -/
def seen (s : State) : Host.Outcome State Fault Refusal → Option (List Event × List CmdWord × Bool)
  | .next t => some (t.trace.drop s.trace.length, t.rsps.drop s.rsps.length, t.cs)
  | .fault _ => none
  | .refused _ => none

/-- The state an outcome answers. -/
def stateOf : Host.Outcome State Fault Refusal → Option State
  | .next t => some t
  | .fault _ => none
  | .refused _ => none

/-- Lifecycle, `CFG`, `RESULT` and `LASTST` an outcome leaves. -/
def kept (o : Host.Outcome State Fault Refusal) : Option (Lifecycle × Option BusConfig × Option HalfWord × Status) :=
  (stateOf o).map fun t => (t.st, t.cfg, t.result, t.lastst)

/-- The first three bytes of `BUF` an outcome leaves. -/
def buf3 (o : Host.Outcome State Fault Refusal) : Option (List (Option Byte)) :=
  (stateOf o).map fun t => [hostBufRead 0 t, hostBufRead 1 t, hostBufRead 2 t]

/-! ### Well-formedness -/

/-- A count that does not fit its 23-bit field has no command word; the largest that does has one (R86). -/
theorem test_wellFormed :
    (Instr.write 8388608 true).wellFormed = false ∧ (Instr.write 8388607 true).wellFormed = true ∧
    (Instr.wdatan 8388608).wellFormed = false ∧ (Instr.wdatan 8388607).wellFormed = true := by decide

/-! ### Decoding: words written out from R86 to R88 -/

/-- V1: opcode 0x01, then 0b00_0_01000, then the divider 64. -/
theorem test_decode_init : decode (0b00000001_00_0_01000_0000000001000000 : BitVec 32) = .ok (.init 0 0 8 64) := rfl

/-- V2, V3, V4: each field of format FI on its own. -/
theorem test_decode_init_fields :
    decode 0x01C80010 = .ok (.init 3 0 8 16) ∧ decode 0x0128FFFF = .ok (.init 0 1 8 65535) ∧
    decode 0x01100040 = .ok (.init 0 0 16 64) := ⟨rfl, rfl, rfl⟩

/-- V5. -/
theorem test_decode_begin_end :
    decode (0b00000010_000000000000000000000000 : BitVec 32) = .ok .beginFrame ∧ decode 0x03000000 = .ok .endFrame :=
  ⟨rfl, rfl⟩

/-- V6, V7: hold is bit 23. -/
theorem test_decode_write :
    decode (0b00000100_1_00000000000000000000101 : BitVec 32) = .ok (.write 5 true) ∧
    decode 0x04001001 = .ok (.write 4097 false) := ⟨rfl, rfl⟩

/-- V8. -/
theorem test_decode_transfers :
    decode 0x050000A5 = .ok (.xferb 0xA5) ∧ decode (0b00000110_00000000_1010101111001101 : BitVec 32) = .ok (.xferw 0xABCD) :=
  ⟨rfl, rfl⟩

/-- V9. -/
theorem test_decode_byte_frames :
    decode (0b00010000_0000000000000000_00110000 : BitVec 32) = .ok (.wcmd 0x30) ∧ decode 0x11000041 = .ok (.wdata 0x41) :=
  ⟨rfl, rfl⟩

/-- V10. -/
theorem test_decode_data_frames :
    decode (0b00010010_0_00000000000000000000011 : BitVec 32) = .ok (.wdatan 3) ∧ decode 0x1300F800 = .ok (.wdataw 0xF800) :=
  ⟨rfl, rfl⟩

/-- V11. -/
theorem test_decode_reads : decode 0x14000000 = .ok .rdata ∧ decode 0x15000000 = .ok .rstatus := ⟨rfl, rfl⟩

/-- V12, V13, V14. -/
theorem test_decode_composites :
    decode (0b00011000_00000000_00110000_00010010 : BitVec 32) = .ok (.wreg 0x30 0x12) ∧
    decode (0b00011001_00110100_0000001100011111 : BitVec 32) = .ok (.wreg16 0x34 0x031F) ∧
    decode 0x1A000090 = .ok (.rreg 0x90) := ⟨rfl, rfl, rfl⟩

/-- V15 to V21: each word is illegal for the reason the vector gives. -/
theorem test_decode_illegal :
    decode 0x00000000 = .error (.reservedOpcode 0x00) ∧ decode 0x07000000 = .error (.reservedOpcode 0x07) ∧
    decode 0x02000001 = .error (.mbzSet .beginFrame) ∧ decode 0x10000130 = .error (.mbzSet .wcmd) ∧
    decode 0x12800003 = .error (.mbzSet .wdatan) ∧ decode 0x18013012 = .error (.mbzSet .wreg) ∧
    decode 0x06010000 = .error (.mbzSet .xferw) := ⟨rfl, rfl, rfl, rfl, rfl, rfl, rfl⟩

/-- No two rows of the opcode map share an opcode (R88). -/
theorem test_opcodes_distinct : (Opcode.all.map Opcode.code).Nodup := by decide

/-- The host's two probes: the table's word for WREG, and it runs as the first operation after reset (V71: refused there). -/
theorem test_withFetchWord :
    decodeTableWord 32 0x18003012 = some (.wreg 0x30 0x12) ∧
    seen State.reset (step (State.reset.withFetchWord 32 0x18003012)) = some ([], [0x04000000], false) := ⟨rfl, rfl⟩

/-! ### INIT, BEGIN, END -/

/-- V22. -/
theorem test_init_ok :
    seen (closedWith [true] []) (exec (.init 0 0 8 64) (closedWith [true] [])) =
      some ([.cfgApplied 0x080040], [0x00000000], false) ∧
    kept (exec (.init 0 0 8 64) (closedWith [true] [])) = some (.opened, some 0x080040, none, .ok) := ⟨rfl, rfl⟩

/-- V23, V27: the draw fails; the word size is outside the default `CFG_LEGAL`. -/
theorem test_init_fail :
    kept (exec (.init 0 0 8 64) (closedWith [false] [])) = some (.failed, none, none, .initFail) ∧
    kept (exec (.init 0 0 16 64) (closedWith [true] [])) = some (.failed, none, none, .initFail) := ⟨rfl, rfl⟩

/-- V29, V31. -/
theorem test_begin :
    seen (openWith false [] [] []) (exec .beginFrame (openWith false [] [] [])) = some ([.csa], [0x00000000], true) ∧
    seen (openWith true [] [] []) (exec .beginFrame (openWith true [] [] [])) = some ([], [0x05000000], true) := ⟨rfl, rfl⟩

/-- V32, V33. -/
theorem test_end :
    seen (openWith true [] [] []) (exec .endFrame (openWith true [] [] [])) = some ([.csr], [0x00000000], false) ∧
    seen (openWith false [] [] []) (exec .endFrame (openWith false [] [] [])) = some ([], [0x00000000], false) := ⟨rfl, rfl⟩

/-! ### WRITE and the exchanges -/

/-- V37, V38. -/
theorem test_write_echo :
    seen (openWith true [0x11, 0x22, 0x33] [0x0A, 0x0B, 0x0C] [.ok])
        (exec (.write 3 false) (openWith true [0x11, 0x22, 0x33] [0x0A, 0x0B, 0x0C] [.ok])) =
      some ([.x 0x11 0x0A, .x 0x22 0x0B, .x 0x33 0x0C, .csr], [0x00000000], false) ∧
    buf3 (exec (.write 3 true) (openWith true [0x11, 0x22, 0x33] [0x0A, 0x0B, 0x0C] [.ok])) =
      some [some 0x0A, some 0x0B, some 0x0C] := ⟨rfl, rfl⟩

/-- V51 at a smaller chunk: chunk 1 fails after no unit; hold does not keep chip-select; the failed chunk's byte has no value. -/
theorem test_write_chunk_fails :
    seen (smallChunks (openWith true [0x11, 0x22, 0x33] [0x0A, 0x0B] [.ok, .fail 0]))
        (exec (.write 3 true) (smallChunks (openWith true [0x11, 0x22, 0x33] [0x0A, 0x0B] [.ok, .fail 0]))) =
      some ([.x 0x11 0x0A, .x 0x22 0x0B, .csr], [0x02000000], false) ∧
    buf3 (exec (.write 3 true) (smallChunks (openWith true [0x11, 0x22, 0x33] [0x0A, 0x0B] [.ok, .fail 0]))) =
      some [some 0x0A, some 0x0B, none] := ⟨rfl, rfl⟩

/-- V44 to V50: the number of chunks and the length of the last one. -/
theorem test_chunks :
    [1, 4095, 4096, 4097, 8192, 10000, 768000].map (chunkCount 4096) = [1, 1, 1, 2, 2, 3, 188] ∧
    chunkLen 4096 4097 1 = 1 ∧ chunkLen 4096 8192 1 = 4096 ∧ chunkLen 4096 10000 2 = 1808 ∧
    chunkLen 4096 768000 187 = 2048 := by decide

/-- V39. -/
theorem test_xferb :
    seen (openWith true [] [0x3C] [.ok]) (exec (.xferb 0xA5) (openWith true [] [0x3C] [.ok])) =
      some ([.x 0xA5 0x3C], [0x0000003C], true) ∧
    kept (exec (.xferb 0xA5) (openWith true [] [0x3C] [.ok])) = some (.opened, some 0x080040, some 0x003C, .ok) := ⟨rfl, rfl⟩

/-- V41: high byte first, both ways. -/
theorem test_xferw :
    seen (openWith true [] [0x12, 0x34] [.ok]) (exec (.xferw 0xABCD) (openWith true [] [0x12, 0x34] [.ok])) =
      some ([.x 0xAB 0x12, .x 0xCD 0x34], [0x00001234], true) := rfl

/-- R8, R54 with `WORD_HIGH_FIRST` false: the same word and answers in the other order. -/
theorem test_xferw_low_first :
    seen (openWith true [] [0x12, 0x34] [.ok]) (exec (.xferw 0xABCD) (lowFirst (openWith true [] [0x12, 0x34] [.ok]))) =
      some ([.x 0xCD 0x12, .x 0xAB 0x34], [0x00003412], true) := rfl

/-! ### Register Protocol -/

/-- V54 and V55: address 0x00 and 0xFF. -/
theorem test_wcmd :
    seen (openWith false [] [1, 2] [.ok, .ok]) (exec (.wcmd 0xFF) (openWith false [] [1, 2] [.ok, .ok])) =
      some ([.csa, .x 0x80 1, .x 0xFF 2, .csr], [0x00000000], false) := rfl

/-- V75: the selector fails before any unit. -/
theorem test_wcmd_selector_fails :
    seen (openWith false [] [] [.fail 0]) (exec (.wcmd 0x30) (openWith false [] [] [.fail 0])) =
      some ([.csa, .csr], [0x02000000], false) := rfl

/-- V56. -/
theorem test_wdata :
    seen (openWith false [] [1, 2] [.ok, .ok]) (exec (.wdata 0x41) (openWith false [] [1, 2] [.ok, .ok])) =
      some ([.csa, .x 0x00 1, .x 0x41 2, .csr], [0x00000000], false) := rfl

/-- V59: one frame, the echoes in `BUF`. -/
theorem test_wdatan :
    seen (openWith false [0x48, 0x69, 0x21] [1, 2, 3, 4] [.ok, .ok])
        (exec (.wdatan 3) (openWith false [0x48, 0x69, 0x21] [1, 2, 3, 4] [.ok, .ok])) =
      some ([.csa, .x 0x00 1, .x 0x48 2, .x 0x69 3, .x 0x21 4, .csr], [0x00000000], false) ∧
    buf3 (exec (.wdatan 3) (openWith false [0x48, 0x69, 0x21] [1, 2, 3, 4] [.ok, .ok])) =
      some [some 2, some 3, some 4] := ⟨rfl, rfl⟩

/-- V60. -/
theorem test_wdataw :
    seen (openWith false [] [1, 2, 3] [.ok, .ok]) (exec (.wdataw 0x1234) (openWith false [] [1, 2, 3] [.ok, .ok])) =
      some ([.csa, .x 0x00 1, .x 0x12 2, .x 0x34 3, .csr], [0x00000000], false) := rfl

/-- V62. -/
theorem test_rdata :
    seen (openWith false [] [9, 0x75] [.ok, .ok]) (exec .rdata (openWith false [] [9, 0x75] [.ok, .ok])) =
      some ([.csa, .x 0x40 9, .x 0x00 0x75, .csr], [0x00000075], false) := rfl

/-- V63. -/
theorem test_rstatus :
    seen (openWith false [] [9, 0x80] [.ok, .ok]) (exec .rstatus (openWith false [] [9, 0x80] [.ok, .ok])) =
      some ([.csa, .x 0xC0 9, .x 0x00 0x80, .csr], [0x00000080], false) := rfl

/-- V64. -/
theorem test_wreg :
    seen (openWith false [] [1, 2, 3, 4] [.ok, .ok, .ok, .ok])
        (exec (.wreg 0x30 0x12) (openWith false [] [1, 2, 3, 4] [.ok, .ok, .ok, .ok])) =
      some ([.csa, .x 0x80 1, .x 0x30 2, .csr, .csa, .x 0x00 3, .x 0x12 4, .csr], [0x00000000], false) := rfl

/-- Eight transactions that succeed. -/
def eight : List TxDraw := [.ok, .ok, .ok, .ok, .ok, .ok, .ok, .ok]

/-- V67: the last address that has a high byte. -/
theorem test_wreg16 :
    seen (openWith false [] [1, 2, 3, 4, 5, 6, 7, 8] eight)
        (exec (.wreg16 0xFE 0xBEEF) (openWith false [] [1, 2, 3, 4, 5, 6, 7, 8] eight)) =
      some ([.csa, .x 0x80 1, .x 0xFE 2, .csr, .csa, .x 0x00 3, .x 0xEF 4, .csr,
        .csa, .x 0x80 5, .x 0xFF 6, .csr, .csa, .x 0x00 7, .x 0xBE 8, .csr], [0x00000000], false) := rfl

/-- V73, V68. -/
theorem test_wreg16_fails :
    seen (openWith false [] [1, 2, 3, 4, 5] [.ok, .ok, .ok, .ok, .ok, .fail 0])
        (exec (.wreg16 0x34 0x031F) (openWith false [] [1, 2, 3, 4, 5] [.ok, .ok, .ok, .ok, .ok, .fail 0])) =
      some ([.csa, .x 0x80 1, .x 0x34 2, .csr, .csa, .x 0x00 3, .x 0x1F 4, .csr, .csa, .x 0x80 5, .csr], [0x02000000], false) ∧
    seen (openWith false [] [] []) (exec (.wreg16 0xFF 0x1234) (openWith false [] [] [])) = some ([], [0x06000000], false) :=
  ⟨rfl, rfl⟩

/-- V69. -/
theorem test_rreg :
    seen (openWith false [] [1, 2, 3, 0x80] [.ok, .ok, .ok, .ok])
        (exec (.rreg 0x90) (openWith false [] [1, 2, 3, 0x80] [.ok, .ok, .ok, .ok])) =
      some ([.csa, .x 0x80 1, .x 0x90 2, .csr, .csa, .x 0x40 3, .x 0x00 0x80, .csr], [0x00000080], false) := rfl

/-- V74: the second frame's selector fails after its unit; `RESULT` is unchanged. -/
theorem test_rreg_fails :
    seen (openWith false [] [1, 2, 3] [.ok, .ok, .fail 1]) (exec (.rreg 0x90) (openWith false [] [1, 2, 3] [.ok, .ok, .fail 1])) =
      some ([.csa, .x 0x80 1, .x 0x90 2, .csr, .csa, .x 0x40 3, .csr], [0x02000000], false) ∧
    kept (exec (.rreg 0x90) (openWith false [] [1, 2, 3] [.ok, .ok, .fail 1])) = some (.fatal, none, none, .fatal) := ⟨rfl, rfl⟩

/-! ### Checks (2.4), reset, the reference device -/

/-- V76, V77, V78. -/
theorem test_priority_dead :
    seen (stopped .fatal) (command 0x02000001 (stopped .fatal)) = some ([], [0x03000000], false) ∧
    seen (stopped .fatal) (command 0x02000000 (stopped .fatal)) = some ([], [0x07000000], false) ∧
    seen (closedWith [] []) (command 0x04000000 (closedWith [] [])) = some ([], [0x04000000], false) := ⟨rfl, rfl, rfl⟩

/-- V79, V80, V81. -/
theorem test_priority_open :
    seen (openWith false [] [] []) (command 0x04000000 (openWith false [] [] [])) = some ([], [0x05000000], false) ∧
    seen (openWith true [] [] []) (command 0x19FF0000 (openWith true [] [] [])) = some ([], [0x05000000], true) ∧
    seen (openWith false [] [] []) (command 0x19FF0000 (openWith false [] [] [])) = some ([], [0x06000000], false) := ⟨rfl, rfl, rfl⟩

/-- R200: a reset after one event of a WCMD leaves the open frame closed in the epoch and no response. -/
theorem test_reset_during :
    (stateOf (step { openWith false [] [1, 2] [.ok, .ok] with host := [.resetDuring 0x10000030 1] })).map
        (fun t => (t.st, t.trace, t.rsps, t.epochs)) =
      some (.closed, [], [], [[.cfgApplied 0x080040, .csa, .csr]]) := rfl

/-- V40: the frames of the read-back with the values the reference device gives are its run; with another value they are not. -/
theorem test_reference_device :
    (RefDevice.start 0).produces config [[(0x80, 1), (0x34, 1)], [(0x00, 1), (0x1F, 1)], [(0x80, 1), (0x35, 1)],
      [(0x00, 1), (0x03, 1)], [(0x80, 1), (0x34, 1)], [(0x40, 1), (0x00, 0x1F)]] = true ∧
    (RefDevice.start 0).produces config [[(0x80, 1), (0x34, 1)], [(0x00, 1), (0x1F, 1)],
      [(0x40, 1), (0x00, 0x03)]] = false := ⟨rfl, rfl⟩

/-- R35: 0xA5 and 0x01 bit by bit. -/
theorem test_serial_bits :
    serialBits 8 0 0xA5 = [true, false, true, false, false, true, false, true] ∧
    serialBits 8 1 0x01 = [true, false, false, false, false, false, false, false] := ⟨rfl, rfl⟩

/-- R24, R55: after INIT with `bitOrder = 1` the byte 0x01 goes out least significant bit first, and a later INIT with `bitOrder = 0`
turns the order of later units only. -/
theorem test_wire_order_follows_init :
    (stateOf (runOps [.init 0 1 8 64, .beginFrame, .xferb 0x01, .endFrame, .init 0 0 8 64, .beginFrame, .xferb 0x01]
      { closedWith [true, true] [] with env := { Env.start with inits := [true, true], miso := [0x80, 0x80], tx := [.ok, .ok] } })).map
        (fun t => (serialTrace t, mosiBits 0x80 t)) =
      some ([some ([true, false, false, false, false, false, false, false], [false, false, false, false, false, false, false, true]),
          some ([false, false, false, false, false, false, false, true], [true, false, false, false, false, false, false, false])],
        some [true, false, false, false, false, false, false, false]) := rfl

/-! ### Witnesses: the hypotheses of each statement, met together -/

/-- The parameters of the vectors are allowed, and so are chunks of two bytes, the least. -/
theorem config_wf : config.wf ∧ { config with chunk := 2 }.wf := by decide

/-- Both senses of the two parameters that may be either are allowed. -/
theorem lowFirst_wf : (lowFirst (openWith false [] [] [])).config.wf := by decide

/-- An open channel, not selected, with the platform outcomes `tx`. -/
def ready (tx : List TxDraw) : State := openWith false [] [] tx

/-- An open channel with select held and the platform outcomes `tx`. -/
def selected (tx : List TxDraw) : State := openWith true [] [] tx

/-- `s` with `a` as the host's next action and `.reset` after it. -/
def withNext (a : HostAction) (s : State) : State := { s with host := [a, .reset] }

/-- The premises of `ChecksInOrder` for an operation that needs level `cs`: a dead, a closed, a failed channel, the other level. -/
def ChecksMet (cs : Bool) : Prop :=
  (stopped .fatal).st = .fatal ∧ (stopped .closed).st = .closed ∧ (stopped .failed).st = .failed ∧
  (openWith (!cs) [] [] []).st = .opened ∧ some cs = some (!(openWith (!cs) [] [] []).cs)

theorem checks_met : ChecksMet false ∧ ChecksMet true := ⟨⟨rfl, rfl, rfl, rfl, rfl⟩, ⟨rfl, rfl, rfl, rfl, rfl⟩⟩

/-- The premises of `ProtocolRule` for a plan cut at frame `f`: all transactions succeed in `ok`, the selector of `f` fails in
`sel`, its payload in `pay`. -/
def RuleMet (plan : Config → Plan) (before after : Plan) (f : Byte × List Byte) (ok sel pay : State) (p : Nat) : Prop :=
  (ok.config.wf ∧ ok.st = .opened ∧ ok.cs = false ∧ PlatformOk ok (2 * (plan ok.config).length)) ∧
  (sel.config.wf ∧ sel.st = .opened ∧ sel.cs = false ∧ plan sel.config = before ++ f :: after ∧
    PlatformOk sel (2 * before.length) ∧ txOutcome sel (2 * before.length) = .fail p) ∧
  (pay.config.wf ∧ pay.st = .opened ∧ pay.cs = false ∧ plan pay.config = before ++ f :: after ∧
    PlatformOk pay (2 * before.length + 1) ∧ txOutcome pay (2 * before.length + 1) = .fail p)

theorem witness_DecodeOfEncodeIsIdentity : (Instr.write 8388607 true).wellFormed = true := by decide

theorem witness_EncodeOfDecodeIsIdentity : decode 0x1A0000FF = .ok (.rreg 0xFF) := rfl

theorem witness_IllegalWordRefusedInEveryState :
    (withNext (.command 0x02000001) (stopped .fatal)).seq = .idle ∧
    (withNext (.command 0x02000001) (stopped .fatal)).host = .command 0x02000001 :: [.reset] ∧ ¬ legalWord 0x02000001 :=
  ⟨rfl, rfl, by unfold legalWord; decide⟩

theorem witness_StepRunsDecodedOperation :
    ((withNext (.command 0x02000000) (ready [])).seq = .idle ∧
      (withNext (.command 0x02000000) (ready [])).host = .command 0x02000000 :: [.reset] ∧ decode 0x02000000 = .ok .beginFrame) ∧
    decode (BitVec.ofNat 32 0x1A0000FF) = .ok (.rreg 0xFF) ∧ 0x1A0000FF < 2 ^ 32 :=
  ⟨⟨rfl, rfl, rfl⟩, rfl, by decide⟩

theorem witness_HostWritesOneByteOfBuf :
    ((ready []).seq = .idle ∧ (ready []).host = []) ∧
    ((withNext (.bufWrite 8191 0x55) (ready [])).host = .bufWrite 8191 0x55 :: [.reset] ∧
      8191 < (withNext (.bufWrite 8191 0x55) (ready [])).config.bufMax) ∧
    ((withNext (.bufWrite 8192 0x55) (ready [])).host = .bufWrite 8192 0x55 :: [.reset] ∧
      (withNext (.bufWrite 8192 0x55) (ready [])).config.bufMax ≤ 8192) :=
  ⟨⟨rfl, rfl⟩, ⟨rfl, by decide⟩, ⟨rfl, by decide⟩⟩

theorem witness_ResetRestartsFromAnyState :
    ((withNext .reset (selected [])).seq = .idle ∧ (withNext .reset (selected [])).host = .reset :: [.reset]) ∧
    ((withNext (.resetDuring 0 1) (selected [])).host = .resetDuring 0 1 :: [.reset] ∧
      decode 0 = .error (.reservedOpcode 0)) ∧
    WireOrdered (withNext .reset (selected [])) ∧
    (withNext (.resetDuring 0x10000030 1) (ready [])).host = .resetDuring 0x10000030 1 :: [.reset] ∧
    decode 0x10000030 = .ok (.wcmd 0x30) ∧ WireOrdered (withNext (.resetDuring 0x10000030 1) (ready [])) :=
  ⟨⟨rfl, rfl⟩, ⟨rfl, rfl⟩, rfl, rfl, rfl, rfl⟩

theorem witness_LifecycleRefusals :
    (stopped .fatal).st = .fatal ∧ ((stopped .closed).st = .closed ∧ isInit .beginFrame = false) ∧
    (stopped .failed).st = .failed := ⟨rfl, ⟨rfl, rfl⟩, rfl⟩

/-- The other level; the right level with size 0, one past `BUF_MAX`, address 0xFF; and the largest size and last address that pass. -/
theorem witness_ChipSelectAndArgumentRefusals :
    ((ready []).st = .opened ∧ needsCs (.write 1 true) = some (!(ready []).cs)) ∧
    ((selected []).st = .opened ∧ needsCs (.write 0 true) ≠ some (!(selected []).cs) ∧
      badArgs (selected []).config.bufMax (.write 0 true) ∧ badArgs (selected []).config.bufMax (.write 8193 true)) ∧
    (needsCs (.wreg16 0xFF 0) ≠ some (!(ready []).cs) ∧ badArgs (ready []).config.bufMax (.wreg16 0xFF 0)) ∧
    ¬ badArgs (selected []).config.bufMax (.write 8192 true) ∧ ¬ badArgs (ready []).config.bufMax (.wreg16 0xFE 0) := by
  refine ⟨⟨rfl, rfl⟩, ⟨rfl, by decide, .inl rfl, .inr (by decide)⟩, ⟨by decide, rfl⟩, ?_, ?_⟩
  · rintro (h | h)
    · exact absurd h (by decide)
    · exact absurd h (by decide)
  · exact fun h => absurd (show (0xFE : Byte) = 0xFF from h) (by decide)

theorem witness_RefusalChangesNothing :
    (selected []).seq = .idle ∧
    (∃ t, command 0x02000000 (selected []) = .next t ∧ t.lastst ∈ [Status.errCmd, .errState, .errSeq, .errArg, .errDead]) ∧
    ∃ t, command 0x02000001 (selected []) = .next t ∧ t.lastst ∈ [Status.errCmd, .errState, .errSeq, .errArg, .errDead] :=
  ⟨rfl, ⟨_, rfl, by decide⟩, ⟨_, rfl, by decide⟩⟩

/-- An illegal word, a dead, a failed and a closed channel, an open one with the wrong level, bad arguments, and none of it. -/
theorem witness_FirstFailingCheckDecides :
    ((withNext (.command 0) (ready [])).host = .command 0 :: [.reset] ∧ ¬ legalWord 0) ∧
    decode 0x04000000 = .ok (.write 0 false) ∧
    ((withNext (.command 0x04000000) (stopped .fatal)).seq = .idle ∧ (stopped .fatal).st = .fatal) ∧
    ((stopped .failed).st = .failed ∧ (stopped .closed).st = .closed ∧ isInit (.write 0 false) = false ∧
      isInit (.init 0 0 8 64) = true) ∧
    needsCs (.write 0 false) = some (!(ready []).cs) ∧
    (needsCs (.write 0 false) ≠ some (!(selected []).cs) ∧ badArgs (selected []).config.bufMax (.write 0 false)) ∧
    (needsCs .beginFrame ≠ some (!(ready []).cs) ∧ ¬ badArgs (ready []).config.bufMax .beginFrame) :=
  ⟨⟨rfl, by unfold legalWord; decide⟩, rfl, ⟨rfl, rfl⟩, ⟨rfl, rfl, rfl, rfl⟩, rfl, ⟨by decide, .inl rfl⟩, ⟨by decide, id⟩⟩

/-- Dead, failed, selected; a draw that succeeds on a legal BusConfig; one that fails; an illegal BusConfig. -/
theorem witness_InitAppliesConfigOrFails :
    (stopped .fatal).st = .fatal ∧ (stopped .failed).st = .failed ∧ ((selected []).st = .opened ∧ (selected []).cs = true) ∧
    ((closedWith [true] []).st = .closed ∧ (closedWith [true] []).cs = false ∧
      (closedWith [true] []).env.initDraw (closedWith [true] []).env.initAt = true ∧
      legal (closedWith [true] []).config (0#2 ++ 0#1 ++ 8#5 ++ 1#16) = true) ∧
    (closedWith [false] []).env.initDraw (closedWith [false] []).env.initAt = false ∧
    legal (closedWith [true] []).config (0#2 ++ 0#1 ++ 8#5 ++ 0#16) = false :=
  ⟨rfl, rfl, ⟨rfl, rfl⟩, ⟨rfl, rfl, rfl, rfl⟩, rfl, rfl⟩

theorem witness_CfgFieldsAreInitOperands :
    (closedWith [true] []).config.wf ∧
    ∃ t, exec (.init 3 1 8 65535) (closedWith [true] []) = .next t ∧ t.lastst = .ok := ⟨config_wf.1, _, rfl, rfl⟩

theorem witness_IllegalBusConfigAlwaysFails :
    (config.cfgLegal = .standard ∧ config.divBits = 16) ∧
    { config with cfgLegal := .table [0x080040] }.cfgLegal = .table [0x080040] ∧
    (closedWith [true] []).st = .closed ∧ (closedWith [true] []).cs = false ∧
    legal (closedWith [true] []).config (0#2 ++ 0#1 ++ 16#5 ++ 64#16) = false ∧
    (legal (closedWith [false] []).config (0#2 ++ 0#1 ++ 8#5 ++ 64#16) = true ∧
      (closedWith [false] []).env.initDraw (closedWith [false] []).env.initAt = false) := 
  ⟨⟨rfl, rfl⟩, rfl, rfl, rfl, rfl, rfl, rfl⟩

theorem witness_BeginAssertsChipSelect : ChecksMet false ∧ (ready []).st = .opened ∧ (ready []).cs = false :=
  ⟨checks_met.1, rfl, rfl⟩

theorem witness_EndReleasesChipSelect :
    ChecksMet false ∧ (selected []).st = .opened ∧ (selected []).cs = true ∧ (ready []).st = .opened ∧ (ready []).cs = false :=
  ⟨checks_met.1, rfl, rfl, rfl, rfl⟩

/-- Bad sizes; the least and the largest size with every chunk succeeding; the second of two chunks failing. -/
theorem witness_WriteSendsBufferAndStoresEcho :
    ChecksMet true ∧
    (decide (1 ≤ 0 ∧ 0 ≤ (selected []).config.bufMax) = false ∧ decide (1 ≤ 8193 ∧ 8193 ≤ (selected []).config.bufMax) = false) ∧
    ((selected [.ok, .ok]).config.wf ∧ (selected [.ok, .ok]).st = .opened ∧ (selected [.ok, .ok]).cs = true ∧
      1 ≤ 1 ∧ 8192 ≤ (selected [.ok, .ok]).config.bufMax ∧
      PlatformOk (selected [.ok, .ok]) (chunkCount (selected [.ok, .ok]).config.chunk 8192)) ∧
    ((smallChunks (selected [.ok, .fail 1])).config.wf ∧ 1 < chunkCount (smallChunks (selected [.ok, .fail 1])).config.chunk 3 ∧
      PlatformOk (smallChunks (selected [.ok, .fail 1])) 1 ∧ txOutcome (smallChunks (selected [.ok, .fail 1])) 1 = .fail 1) :=
  ⟨checks_met.2, by decide, ⟨config_wf.1, rfl, rfl, by decide, by decide, by unfold PlatformOk; decide⟩,
    ⟨config_wf.2, by decide, by unfold PlatformOk; decide, rfl⟩⟩

theorem witness_XferbExchangesOneByte :
    ChecksMet true ∧ ((selected [.ok]).st = .opened ∧ (selected [.ok]).cs = true ∧ txOutcome (selected [.ok]) 0 = .ok) ∧
    txOutcome (selected [.fail 0]) 0 = .fail 0 ∧ txOutcome (selected [.fail 1]) 0 = .fail 1 :=
  ⟨checks_met.2, ⟨rfl, rfl, rfl⟩, rfl, rfl⟩

theorem witness_XferwExchangesWordHighByteFirst :
    ChecksMet true ∧
    ((selected [.ok, .ok]).config.wf ∧ (selected [.ok, .ok]).st = .opened ∧ (selected [.ok, .ok]).cs = true ∧
      ((0x12 : Byte), (0x34 : Byte)) =
        (if (selected [.ok, .ok]).config.wordHighFirst then ((0x12 : Byte), (0x34 : Byte)) else (0x34, 0x12)) ∧
      txOutcome (selected [.ok, .ok]) 0 = .ok ∧ PlatformOk (selected [.ok, .ok]) 2) ∧
    ((lowFirst (selected [.ok])).config.wf ∧
      ((0x34 : Byte), (0x12 : Byte)) =
        (if (lowFirst (selected [.ok])).config.wordHighFirst then ((0x12 : Byte), (0x34 : Byte)) else (0x34, 0x12))) ∧
    txOutcome (selected [.fail 0]) 0 = .fail 0 ∧ txOutcome (selected [.fail 2]) 0 = .fail 2 :=
  ⟨checks_met.2, ⟨config_wf.1, rfl, rfl, rfl, rfl, by unfold PlatformOk; decide⟩, ⟨lowFirst_wf, rfl⟩, rfl, rfl⟩

theorem witness_WcmdSendsCommandFrame :
    ChecksMet false ∧ RuleMet (fun c => [(c.selCW, [0xFF])]) [] [] (0x80, [0xFF]) (ready [.ok, .ok]) (ready [.fail 1])
      (ready [.ok, .fail 1]) 1 :=
  ⟨checks_met.1, ⟨config_wf.1, rfl, rfl, by unfold PlatformOk; decide⟩,
    ⟨config_wf.1, rfl, rfl, rfl, by unfold PlatformOk; decide, rfl⟩, config_wf.1, rfl, rfl, rfl, by unfold PlatformOk; decide, rfl⟩

theorem witness_WdataSendsDataFrame :
    ChecksMet false ∧ RuleMet (fun c => [(c.selDW, [0x41])]) [] [] (0x00, [0x41]) (ready [.ok, .ok]) (ready [.fail 0])
      (ready [.ok, .fail 0]) 0 :=
  ⟨checks_met.1, ⟨config_wf.1, rfl, rfl, by unfold PlatformOk; decide⟩,
    ⟨config_wf.1, rfl, rfl, rfl, by unfold PlatformOk; decide, rfl⟩, config_wf.1, rfl, rfl, rfl, by unfold PlatformOk; decide, rfl⟩

/-- Bad sizes; the largest size with every transaction succeeding; the selector failing; the second of two chunks failing. -/
theorem witness_WdatanSendsBufferInOneFrame :
    ChecksMet false ∧
    (decide (1 ≤ 0 ∧ 0 ≤ (ready []).config.bufMax) = false ∧ decide (1 ≤ 8193 ∧ 8193 ≤ (ready []).config.bufMax) = false) ∧
    ((ready [.ok, .ok, .ok]).config.wf ∧ (ready [.ok, .ok, .ok]).st = .opened ∧ (ready [.ok, .ok, .ok]).cs = false ∧
      8192 ≤ (ready [.ok, .ok, .ok]).config.bufMax ∧
      PlatformOk (ready [.ok, .ok, .ok]) (1 + chunkCount (ready [.ok, .ok, .ok]).config.chunk 8192)) ∧
    txOutcome (ready [.fail 1]) 0 = .fail 1 ∧
    ((smallChunks (ready [.ok, .ok, .fail 1])).config.wf ∧
      1 < chunkCount (smallChunks (ready [.ok, .ok, .fail 1])).config.chunk 3 ∧
      PlatformOk (smallChunks (ready [.ok, .ok, .fail 1])) (1 + 1) ∧
      txOutcome (smallChunks (ready [.ok, .ok, .fail 1])) (1 + 1) = .fail 1) :=
  ⟨checks_met.1, by decide, ⟨config_wf.1, rfl, rfl, by decide, by unfold PlatformOk; decide⟩, rfl,
    ⟨config_wf.2, by decide, by unfold PlatformOk; decide, rfl⟩⟩

theorem witness_WdatawSendsWordHighByteFirst :
    ChecksMet false ∧ RuleMet
      (fun c => [(c.selDW, if c.wordHighFirst then [0x12, 0x34] else [0x34, 0x12])]) [] [] (0x00, [0x12, 0x34]) (ready [.ok, .ok]) (ready [.fail 1])
      (ready [.ok, .fail 1]) 1 ∧
    RuleMet (fun c => [(c.selDW, if c.wordHighFirst then [0x12, 0x34] else [0x34, 0x12])]) [] [] (0x00, [0x34, 0x12])
      (lowFirst (ready [.ok, .ok])) (lowFirst (ready [.fail 1])) (lowFirst (ready [.ok, .fail 1])) 1 :=
  ⟨checks_met.1, ⟨⟨config_wf.1, rfl, rfl, by unfold PlatformOk; decide⟩,
      ⟨config_wf.1, rfl, rfl, rfl, by unfold PlatformOk; decide, rfl⟩, config_wf.1, rfl, rfl, rfl, by unfold PlatformOk; decide, rfl⟩,
    ⟨lowFirst_wf, rfl, rfl, by unfold PlatformOk; decide⟩,
      ⟨lowFirst_wf, rfl, rfl, rfl, by unfold PlatformOk; decide, rfl⟩, lowFirst_wf, rfl, rfl, rfl, by unfold PlatformOk; decide, rfl⟩

theorem witness_RdataReturnsSecondByte :
    ChecksMet false ∧ RuleMet (fun c => [(c.selDR, [c.dummy])]) [] [] (0x40, [0x00]) (ready [.ok, .ok]) (ready [.fail 0])
      (ready [.ok, .fail 0]) 0 :=
  ⟨checks_met.1, ⟨config_wf.1, rfl, rfl, by unfold PlatformOk; decide⟩,
    ⟨config_wf.1, rfl, rfl, rfl, by unfold PlatformOk; decide, rfl⟩, config_wf.1, rfl, rfl, rfl, by unfold PlatformOk; decide, rfl⟩

theorem witness_RstatusReturnsSecondByte :
    ChecksMet false ∧ RuleMet (fun c => [(c.selSR, [c.dummy])]) [] [] (0xC0, [0x00]) (ready [.ok, .ok]) (ready [.fail 0])
      (ready [.ok, .fail 0]) 0 :=
  ⟨checks_met.1, ⟨config_wf.1, rfl, rfl, by unfold PlatformOk; decide⟩,
    ⟨config_wf.1, rfl, rfl, rfl, by unfold PlatformOk; decide, rfl⟩, config_wf.1, rfl, rfl, rfl, by unfold PlatformOk; decide, rfl⟩

theorem witness_WregSendsTwoFrames :
    ChecksMet false ∧ RuleMet (fun c => [(c.selCW, [0x30]), (c.selDW, [0x12])]) [(0x80, [0x30])] [] (0x00, [0x12])
      (ready [.ok, .ok, .ok, .ok]) (ready [.ok, .ok, .fail 1]) (ready [.ok, .ok, .ok, .fail 1]) 1 :=
  ⟨checks_met.1, ⟨config_wf.1, rfl, rfl, by unfold PlatformOk; decide⟩,
    ⟨config_wf.1, rfl, rfl, rfl, by unfold PlatformOk; decide, rfl⟩, config_wf.1, rfl, rfl, rfl, by unfold PlatformOk; decide, rfl⟩

/-- The last address that passes, its high byte at 0xFF; and address 0xFF, whose argument check fails. -/
theorem witness_Wreg16SendsLowThenHighByte :
    ChecksMet false ∧ ((0xFE : Byte) ≠ 0xFF → (0xFF : Byte).toNat = (0xFE : Byte).toNat + 1) ∧
    decide ((0xFE : Byte) ≠ 0xFF) = true ∧ decide ((0xFF : Byte) ≠ 0xFF) = false ∧
    RuleMet (fun c => [(c.selCW, [0xFE]), (c.selDW, [0xEF]), (c.selCW, [0xFF]), (c.selDW, [0xBE])])
      [(0x80, [0xFE]), (0x00, [0xEF])] [(0x00, [0xBE])] (0x80, [0xFF]) (ready eight) (ready [.ok, .ok, .ok, .ok, .fail 0])
      (ready [.ok, .ok, .ok, .ok, .ok, .fail 0]) 0 :=
  ⟨checks_met.1, by decide, by decide, by decide, ⟨config_wf.1, rfl, rfl, by unfold PlatformOk; decide⟩,
    ⟨config_wf.1, rfl, rfl, rfl, by unfold PlatformOk; decide, rfl⟩, config_wf.1, rfl, rfl, rfl, by unfold PlatformOk; decide, rfl⟩

theorem witness_RregReturnsLastByte :
    ChecksMet false ∧ RuleMet (fun c => [(c.selCW, [0x90]), (c.selDR, [c.dummy])]) [(0x80, [0x90])] [] (0x40, [0x00])
      (ready [.ok, .ok, .ok, .ok]) (ready [.ok, .ok, .fail 1]) (ready [.ok, .ok, .ok, .fail 1]) 1 :=
  ⟨checks_met.1, ⟨config_wf.1, rfl, rfl, by unfold PlatformOk; decide⟩,
    ⟨config_wf.1, rfl, rfl, rfl, by unfold PlatformOk; decide, rfl⟩, config_wf.1, rfl, rfl, rfl, by unfold PlatformOk; decide, rfl⟩

/-- A word whose operation ends well with a result, one whose operation has none, a refusal, an illegal word, an INIT. -/
theorem witness_OneResponseWordPerOperation :
    (∃ t, command 0x050000A5 (openWith true [] [0x3C] [.ok]) = .next t ∧ t.lastst = .ok ∧ decode 0x050000A5 = .ok (.xferb 0xA5) ∧
      hasResult (.xferb 0xA5) = true) ∧
    (decode 0x02000000 = .ok .beginFrame ∧ hasResult .beginFrame = false) ∧
    (∃ t, command 0x050000A5 (ready []) = .next t ∧ t.lastst ≠ .ok) ∧ (∃ t, command 0 (ready []) = .next t ∧ t.lastst ≠ .ok) ∧
    decode 0x01080040 = .ok (.init 0 0 8 64) :=
  ⟨⟨_, rfl, rfl, rfl, rfl⟩, ⟨rfl, rfl⟩, ⟨_, rfl, by decide⟩, ⟨_, rfl, by decide⟩, rfl⟩

/-- A byte read and a word transfer that end well, an operation without result, and a failure. -/
theorem witness_ResultWrittenOnlyBySuccessfulReads :
    config.wf ∧
    (∃ t, exec (.xferw 0xABCD) (openWith true [] [0x12, 0x34] [.ok]) = .next t ∧ t.lastst = .ok ∧
      hasResult (.xferw 0xABCD) = true) ∧
    (∃ t, exec (.rreg 0x90) (openWith false [] [1, 2, 3, 0xFF] [.ok, .ok, .ok, .ok]) = .next t ∧ t.lastst = .ok ∧
      hasResult (.rreg 0x90) = true ∧ ∀ x, Instr.rreg 0x90 ≠ .xferw x) ∧
    (∃ t, exec .beginFrame (ready []) = .next t ∧ hasResult .beginFrame = false) ∧
    ∃ t, exec .rdata (ready [.fail 0]) = .next t ∧ t.lastst ≠ .ok :=
  ⟨config_wf.1, ⟨_, rfl, rfl, rfl⟩, ⟨_, rfl, rfl, rfl, fun _ h => by cases h⟩, ⟨_, rfl, rfl⟩, ⟨_, rfl, by decide⟩⟩

/-- A step that opens, one that dies, and a reset of each kind. -/
theorem witness_LifecycleTransitions :
    (closedWith [true] [.command 0x01080040]).seq = .idle ∧
    (∃ t, step (closedWith [true] [.command 0x01080040]) = .next t ∧ t.st = .opened) ∧
    (∃ t, step (withNext (.command 0x10000030) (ready [.fail 0])) = .next t ∧ t.st = .fatal) ∧
    resetNext (withNext .reset (stopped .fatal)) ∧ resetNext (withNext (.resetDuring 0x10000030 0) (ready [])) :=
  ⟨rfl, ⟨_, rfl, rfl⟩, ⟨_, rfl, rfl⟩, .inl ⟨_, rfl⟩, .inr ⟨_, _, _, rfl⟩⟩

theorem witness_FailureStatesLeftOnlyByReset :
    (withNext (.command 0x01080040) (stopped .failed)).seq = .idle ∧
    (withNext (.command 0x01080040) (stopped .failed)).st = .failed ∧
    (∃ t, step (withNext (.command 0x01080040) (stopped .failed)) = .next t) ∧
    ∃ t, step (withNext .reset (stopped .fatal)) = .next t := ⟨rfl, rfl, ⟨_, rfl⟩, ⟨_, rfl⟩⟩

theorem witness_FatalEntryReleasesThenDies :
    ∃ t, exec (.wcmd 0x30) (ready [.fail 0]) = .next t ∧ t.lastst = .fatal := ⟨_, rfl, rfl⟩

theorem witness_CfgWrittenOnlyByInit :
    (∃ t, exec (.init 3 1 8 65535) (closedWith [true] []) = .next t ∧ t.cfg = some 0xE8FFFF) ∧
    ∃ t, exec (.wcmd 0x30) (ready [.fail 0]) = .next t ∧ t.cfg = none := ⟨⟨_, rfl, rfl⟩, ⟨_, rfl, rfl⟩⟩

theorem witness_OperationFrame : ∃ t, exec (.wcmd 0x30) (ready [.ok, .ok]) = .next t ∧ t.lastst = .ok := ⟨_, rfl, rfl⟩

theorem witness_OnlyBufferWritesTouchBuf :
    (∃ t, exec .beginFrame (ready []) = .next t ∧ reach .beginFrame = 0) ∧
    ∃ t, exec (.write 1 true) (openWith true [0x11, 0x22] [0x0A] [.ok]) = .next t ∧ reach (.write 1 true) ≤ 1 :=
  ⟨⟨_, rfl, rfl⟩, ⟨_, rfl, by decide⟩⟩

theorem witness_ConfigurationNeverChanges : ∃ t, step (withNext .reset (ready [])) = .next t := ⟨_, rfl⟩

/-- The operations that pass are those of the statement's first clause; then a closed channel, a selected one, bad arguments. -/
theorem witness_ProtocolOperationAlwaysReleases :
    (isProtocol (.wreg16 0xFE 0) = true ∧ (ready []).st = .opened ∧ (ready []).cs = false ∧
      ¬ badArgs (ready []).config.bufMax (.wreg16 0xFE 0)) ∧
    (stopped .closed).st ≠ .opened ∧ (selected []).cs = true ∧ badArgs (ready []).config.bufMax (.wreg16 0xFF 0) :=
  ⟨⟨rfl, rfl, rfl, fun h => absurd (show (0xFE : Byte) = 0xFF from h) (by decide)⟩, by decide, rfl, rfl⟩

/-- Two states with different histories; WDATAN needs the same `BUF`, RDATA does not. -/
theorem witness_ProtocolOperationIsStateless :
    isProtocol .rdata = true ∧ (∀ n, Instr.rdata ≠ .wdatan n) ∧ isProtocol (.wdatan 1) = true ∧
    { ready [.ok, .ok] with result := some 7, trace := [] } ≠ ready [.ok, .ok] ∧
    { ready [.ok, .ok] with result := some 7, trace := [] }.config = (ready [.ok, .ok]).config ∧
    { ready [.ok, .ok] with result := some 7, trace := [] }.env = (ready [.ok, .ok]).env :=
  ⟨rfl, fun _ h => Instr.noConfusion h, rfl, by decide, rfl, rfl⟩

/-- A selected channel in order, with a step. -/
theorem witness_StepKeepsWireOrder :
    WireOrdered (withNext (.command 0x03000000) (selected [])) ∧
    ∃ t, step (withNext (.command 0x03000000) (selected [])) = .next t := ⟨rfl, _, rfl⟩

theorem witness_StepKeepsCfgLastApplied :
    CfgIsLastApplied (withNext (.command 0x02000000) (ready [])) ∧
    ∃ t, step (withNext (.command 0x02000000) (ready [])) = .next t :=
  ⟨⟨fun _ => ⟨rfl, rfl⟩, fun h => absurd rfl h⟩, _, rfl⟩

/-- A buffer with a byte at its last index, and a step that writes there. -/
theorem witness_StepKeepsBufCanonical :
    BufInRange { withNext (.bufWrite 8191 0x55) (ready []) with buf := [(8191, 0x33)] } ∧
    ∃ t, step { withNext (.bufWrite 8191 0x55) (ready []) with buf := [(8191, 0x33)] } = .next t :=
  ⟨⟨by decide, by decide⟩, _, rfl⟩

/-- A selected channel that meets every invariant, with a closed epoch behind it. -/
theorem witness_StepKeepsInvariant :
    Invariant { withNext (.command 0x03000000) (selected []) with epochs := [[.csa, .csr]] } ∧
    ∃ t, step { withNext (.command 0x03000000) (selected []) with epochs := [[.csa, .csr]] } = .next t :=
  ⟨{ config := config_wf.1
     cs := fun _ => rfl
     seq := rfl
     wire := rfl
     cfg := ⟨fun _ => ⟨rfl, rfl⟩, fun h => absurd rfl h⟩
     buf := ⟨by decide, by decide⟩
     epochs := fun t ht => by rw [List.mem_singleton.1 ht]; rfl
     status := rfl }, _, rfl⟩

/-- The three composites, WREG16 at its last address, once with success and once with a failure. -/
theorem witness_CompositeEqualsExpansion :
    ((ready eight).config.wf ∧ (ready eight).st = .opened ∧ (ready eight).cs = false) ∧
    ((0xFE : Byte) ≠ 0xFF ∧ (0xFF : Byte).toNat = (0xFE : Byte).toNat + 1) ∧
    (∃ t, exec (.wreg16 0xFE (0x12#8 ++ 0x34#8)) (ready eight) = .next t ∧ t.lastst = .ok) ∧
    ∃ t, exec (.wreg 0xFE 0x34) (ready [.ok, .fail 0]) = .next t ∧ t.lastst ≠ .ok :=
  ⟨⟨config_wf.1, rfl, rfl⟩, by decide, ⟨_, rfl, rfl⟩, ⟨_, rfl, by decide⟩⟩

theorem witness_HandBuiltFrameIsProtocolFrame :
    (ready [.ok, .ok]).config.wf ∧ (ready [.ok, .ok]).st = .opened ∧ (ready [.ok, .ok]).cs = false ∧
    1 ≤ [(0x30 : Byte)].length ∧ [(0x30 : Byte)].length ≤ (ready [.ok, .ok]).config.bufMax ∧
    PlatformOk (ready [.ok, .ok]) (1 + chunkCount (ready [.ok, .ok]).config.chunk [(0x30 : Byte)].length) :=
  ⟨config_wf.1, rfl, rfl, by decide, by decide, by unfold PlatformOk; decide⟩

/-- Two held pieces that are cut at other places than the whole. -/
theorem witness_HeldWritesChainIntoOneFrame :
    (smallChunks (selected [.ok, .ok, .ok])).config.wf ∧ (smallChunks (selected [.ok, .ok, .ok])).st = .opened ∧
    (smallChunks (selected [.ok, .ok, .ok])).cs = true ∧ [(1 : Byte)].length + [(2 : Byte), 3].length ≤ config.bufMax ∧
    PlatformOk (smallChunks (selected [.ok, .ok, .ok])) (chunkCount 2 1 + chunkCount 2 2) ∧
    PlatformOk (smallChunks (selected [.ok, .ok, .ok])) (chunkCount 2 (1 + 2)) :=
  ⟨config_wf.2, rfl, rfl, by decide, by unfold PlatformOk; decide, by unfold PlatformOk; decide⟩

/-- Three bytes in one chunk and in three, the least chunk being one byte. -/
theorem witness_ChunkingIsInvisible :
    1 ≤ (selected [.ok, .ok, .ok]).config.chunk ∧ 1 ≤ 1 ∧ (selected [.ok, .ok, .ok]).st = .opened ∧
    (selected [.ok, .ok, .ok]).cs = true ∧ 3 ≤ (selected [.ok, .ok, .ok]).config.bufMax ∧
    PlatformOk (selected [.ok, .ok, .ok]) (chunkCount (selected [.ok, .ok, .ok]).config.chunk 3) ∧
    PlatformOk (selected [.ok, .ok, .ok]) (chunkCount 1 3) :=
  ⟨by decide, by decide, rfl, rfl, by decide, by unfold PlatformOk; decide, by unfold PlatformOk; decide⟩

theorem witness_RepeatedWriteSendsEchoes :
    (selected [.ok, .ok]).config.wf ∧ (selected [.ok, .ok]).st = .opened ∧ (selected [.ok, .ok]).cs = true ∧
    4096 ≤ (selected [.ok, .ok]).config.bufMax ∧
    PlatformOk (selected [.ok, .ok]) (2 * chunkCount (selected [.ok, .ok]).config.chunk 4096) :=
  ⟨config_wf.1, rfl, rfl, by decide, by unfold PlatformOk; decide⟩

/-- V40 whole: the device answers 0x1F and then 0x03, the trace is the reference device's, and all sixteen transactions succeed. -/
theorem witness_ReferenceDeviceReadsBackWrittenWord :
    let s := openWith false [] [1, 1, 1, 1, 1, 1, 1, 1, 1, 1, 1, 0x1F, 1, 1, 1, 0x03] (eight ++ eight)
    s.config.wf ∧ s.st = .opened ∧ s.cs = false ∧ (0x34 : Byte) ≠ 0xFF ∧ (0x35 : Byte).toNat = (0x34 : Byte).toNat + 1 ∧
    PlatformOk s 16 ∧ ∃ t u, runOps [.wreg16 0x34 (0x03#8 ++ 0x1F#8), .rreg 0x34] s = .next t ∧ exec (.rreg 0x35) t = .next u ∧
      (RefDevice.start 0).produces s.config (frames (u.trace.drop s.trace.length)) = true :=
  ⟨config_wf.1, rfl, rfl, by decide, by decide, by unfold PlatformOk; decide, _, _, rfl, rfl, rfl⟩

/-- A result that has a value, and none. -/
theorem witness_StatusRegistersFollowState :
    { ready [] with result := some 0xFFFF }.result = some 0xFFFF ∧ (ready []).result = none := ⟨rfl, rfl⟩

theorem witness_SerialBitsRoundTrip : config.unitBits = 8 := rfl

/-- Both bit orders in `CFG`, no `CFG`, an operation that exchanges units, one that sets the order and one that loses it. -/
theorem witness_WireOrderIsCfgBitOrder :
    (ready []).config.unitBits = 8 ∧ (∃ c, (ready []).cfg = some c ∧ c.getLsbD 21 = false) ∧
    (∃ c, { ready [] with cfg := some 0x280040 }.cfg = some c ∧ c.getLsbD 21 = true) ∧ State.reset.cfg = none ∧
    CfgIsLastApplied (ready [.ok, .ok]) ∧ CfgIsLastApplied (ready [.fail 0]) ∧ CfgIsLastApplied (closedWith [true] []) ∧
    (∃ t, exec (.wcmd 0x30) (ready [.ok, .ok]) = .next t ∧ exchanged t.trace ≠ []) ∧
    (∃ t, exec (.wcmd 0x30) (ready [.fail 0]) = .next t ∧ t.st = .fatal) ∧
    ∃ t, exec (.init 0 1 8 64) (closedWith [true] []) = .next t ∧ t.lastst = .ok :=
  ⟨rfl, ⟨_, rfl, rfl⟩, ⟨_, rfl, rfl⟩, rfl, ⟨fun _ => ⟨rfl, rfl⟩, fun h => absurd rfl h⟩,
    ⟨fun _ => ⟨rfl, rfl⟩, fun h => absurd rfl h⟩, ⟨fun h => (by cases h), fun _ => rfl⟩, ⟨_, rfl, by decide⟩, ⟨_, rfl, rfl⟩, _, rfl, rfl⟩

/-- An operation that leaves `CFG`, and one that takes it away. -/
theorem witness_BitOrderChangesNoValue :
    (∃ t, exec (.wcmd 0x30) (ready [.ok, .ok]) = .next t ∧ t.cfg = (ready [.ok, .ok]).cfg) ∧
    ∃ t, exec (.wcmd 0x30) (ready [.fail 0]) = .next t ∧ t.cfg = none := ⟨⟨_, rfl, rfl⟩, _, rfl, rfl⟩

end Sys2Proof.Tests
end

/-! SUPPORT. What no operation and no step changes (00_scope.md R8): the parameters, and around an operation the host's actions, the
closed epochs and the events already in `TRACE`; and which operations change `CS` (10_state.md R28). -/

namespace Sys2Proof.Machine

/-! ### The frame of an operation -/

/-- What every operation leaves alone: the parameters, the host's actions, the closed epochs, and the events already in `TRACE`. -/
structure Framed (s t : State) : Prop where
  config : t.config = s.config
  host : t.host = s.host
  epochs : t.epochs = s.epochs
  trace : s.trace <+: t.trace

theorem Framed.trans {s t u : State} (h₁ : Framed s t) (h₂ : Framed t u) : Framed s u where
  config := h₂.config.trans h₁.config
  host := h₂.host.trans h₁.host
  epochs := h₂.epochs.trans h₁.epochs
  trace := h₁.trace.trans h₂.trace

theorem Worked.framed {N : Nat} {s t : State} (h : Worked N s t) : Framed s t where
  config := h.config
  host := h.host
  epochs := h.epochs
  trace := let ⟨E, hE, _⟩ := h.trace; ⟨E, hE.symm⟩

theorem finish_framed (c : Status) (r : Option HalfWord) (s : State) : Framed s (finish c r s) :=
  ⟨rfl, rfl, rfl, List.prefix_rfl⟩

theorem fatalEntry_framed (s : State) : Framed s (fatalEntry s) where
  config := fatalEntry_config s
  host := fatalEntry_host s
  epochs := fatalEntry_epochs s
  trace := by
    rw [fatalEntry_trace]
    split
    · exact List.prefix_append ..
    · exact List.prefix_rfl

/-- An INIT past its checks applies its BusConfig, which is then legal and drawn to succeed, or it fails (R113). -/
theorem runInit_cases (c : BusConfig) (s : State) :
    (s.env.initDraw s.env.initAt = true ∧ legal s.config c = true ∧
      runInit c s = finish .ok none (emit (.cfgApplied c)
        { s with env := { s.env with initAt := s.env.initAt + 1 }, cfg := some c, st := .opened })) ∨
    ((s.env.initDraw s.env.initAt && legal s.config c) = false ∧
      runInit c s = finish .initFail none
        { s with env := { s.env with initAt := s.env.initAt + 1 }, st := .failed, cfg := none }) := by
  cases h : s.env.initDraw s.env.initAt && legal s.config c with
  | true =>
    obtain ⟨hd, hl⟩ := Bool.and_eq_true_iff.1 h
    exact .inl ⟨hd, hl, by simp only [runInit, h]; rfl⟩
  | false => exact .inr ⟨rfl, by simp only [runInit, h]; rfl⟩

theorem runInit_framed (c : BusConfig) (s : State) : Framed s (runInit c s) := by
  obtain ⟨-, -, e⟩ | ⟨-, e⟩ := runInit_cases c s <;> rw [e]
  · exact ⟨rfl, rfl, rfl, List.prefix_append ..⟩
  · exact ⟨rfl, rfl, rfl, List.prefix_rfl⟩

theorem runInit_cs (c : BusConfig) (s : State) : (runInit c s).cs = s.cs := by
  obtain ⟨-, -, e⟩ | ⟨-, e⟩ := runInit_cases c s <;> rw [e] <;> rfl

theorem exec_framed {i : Instr} {s t : State} (h : exec i s = .next t) : Framed s t := by
  obtain ⟨t', e, hcases⟩ := exec_cases i s
  cases e.symm.trans h
  obtain ⟨c, -, rfl⟩ | ⟨m, b, w, d, -, -, -, rfl⟩ | ⟨-, -, -, -, u, hu, hend⟩ := hcases
  · exact finish_framed c none s
  · exact runInit_framed _ s
  · obtain ⟨r, -, -, rfl⟩ | ⟨-, rfl⟩ := hend
    · exact hu.framed.trans (finish_framed .ok r u)
    · exact hu.framed.trans (fatalEntry_framed u)

/-! ### Chip-select -/

/-- A register-protocol operation that is refused leaves `CS`; one that runs starts and, unless it dies, ends with `CS = 0` (R148). -/
theorem exec_protocol_cs {i : Instr} {s t : State} (hp : isProtocol i = true) (h : exec i s = .next t) :
    t.cs = s.cs ∨ t.st = .fatal := by
  obtain ⟨t', e, hcases⟩ := exec_cases i s
  cases e.symm.trans h
  obtain ⟨c, -, rfl⟩ | ⟨m, b, w, d, rfl, -⟩ | ⟨-, -, -, hs, u, -, hend⟩ := hcases
  · exact .inl rfl
  · cases hp
  · obtain ⟨r, -, hu, rfl⟩ | ⟨-, rfl⟩ := hend
    · exact .inl ((hu hp).trans (hs hp).symm)
    · exact .inr rfl

/-- The shape of XFERB and XFERW (R119, R120): one transaction with select held, which stays held unless it fails. -/
theorem checked_transfer_cs (o : State → List Byte) (v : State → List Byte → HalfWord) (s : State) :
    (checked (trafficFailure (some true) true s)
      (fun s => (transfer (o s) s).close fun s rcv => retValue (v s rcv) s) s).cs = s.cs ∨
    (checked (trafficFailure (some true) true s)
      (fun s => (transfer (o s) s).close fun s rcv => retValue (v s rcv) s) s).st = .fatal := by
  obtain ⟨c, -, e⟩ | ⟨hf, e⟩ := checked_cases (f := trafficFailure (some true) true s)
    (run := fun s => (transfer (o s) s).close fun s rcv => retValue (v s rcv) s) (s := s) <;> rw [e]
  · exact .inl rfl
  · obtain ⟨-, -, hcs, -⟩ := firstFailure_none hf
    have hs : s.cs = true := hcs true rfl
    obtain ⟨u, -, ⟨r, hu, e⟩ | ⟨-, e⟩⟩ :=
      (transfer_fate 0 hs (o s)).close (k := fun s rcv => retValue (v s rcv) s) <;> rw [e]
    · exact .inl (hu.trans hs.symm)
    · exact .inr rfl

/-- `CS` is changed by BEGIN, END, WRITE and the fatal entry alone (R28, R121 (d)). -/
theorem exec_cs {i : Instr} {s t : State} (h : exec i s = .next t) :
    t.cs = s.cs ∨ t.st = .fatal ∨ i = .beginFrame ∨ i = .endFrame ∨ ∃ size hold, i = .write size hold := by
  cases i with
  | beginFrame => exact .inr (.inr (.inl rfl))
  | endFrame => exact .inr (.inr (.inr (.inl rfl)))
  | write size hold => exact .inr (.inr (.inr (.inr ⟨size, hold, rfl⟩)))
  | init m b w d =>
    cases h
    obtain ⟨c, -, e⟩ | ⟨-, e⟩ := checked_cases (f := initFailure s) (run := runInit (initConfig m b w d)) (s := s)
    · exact .inl ((congrArg State.cs e).trans (finish_cs c none s))
    · exact .inl ((congrArg State.cs e).trans (runInit_cs _ s))
  | xferb b =>
    cases h
    exact (checked_transfer_cs (fun _ => [b]) (fun _ rcv => byteResult rcv) s).imp_right .inl
  | xferw w =>
    cases h
    exact (checked_transfer_cs (fun s => wordUnits s.config w) (fun s rcv => wordResult s.config rcv) s).imp_right .inl
  | _ => exact (exec_protocol_cs rfl h).imp_right .inl

/-! ### The parameters over a step -/

/-- A command word, legal or not, leaves the parameters alone (R8, R91). -/
theorem command_config {w : CmdWord} {s t : State} (h : command w s = .next t) : t.config = s.config := by
  unfold command at h
  cases hd : decode w with
  | ok i =>
    rw [hd] at h
    exact (exec_framed (s := { s with seq := .running i }) h).config
  | error r =>
    rw [hd] at h
    cases h
    rfl

/-- A reset in mid-operation takes the parameters from before the operation (R200). -/
theorem commandThenReset_config {w : CmdWord} {k : Nat} {s t : State} (h : commandThenReset w k s = .next t) :
    t.config = s.config := by
  unfold commandThenReset at h
  split at h <;> cases h
  rfl

theorem hostAction_config {s t : State} (h : hostAction s = .next t) : t.config = s.config := by
  unfold hostAction at h
  split at h
  case h_1 => cases h; rfl
  case h_2 w rest _ => exact command_config (s := { s with host := rest }) h
  case h_3 i b rest _ => split at h <;> cases h; rfl
  case h_4 => cases h; rfl
  case h_5 w k rest _ => exact commandThenReset_config (s := { s with host := rest }) h

theorem step_config {s t : State} (h : step s = .next t) : t.config = s.config := by
  unfold step stepBlock at h
  cases hq : s.seq with
  | running i =>
    rw [hq] at h
    exact (exec_framed h).config
  | idle =>
    rw [hq] at h
    exact hostAction_config h

/-! ### The obligations -/

/-- Settles O37: the frame by `exec_framed`, chip-select by `exec_cs`. -/
theorem operationFrame : Obligations.OperationFrame := by
  intro i s t h
  obtain ⟨hconfig, hhost, hepochs, htrace⟩ := exec_framed h
  exact ⟨hconfig, hhost, hepochs, htrace, exec_cs h⟩

/-- Settles O39, by the cases of a step: an operation in progress, or the host's next action. -/
theorem configurationNeverChanges : Obligations.ConfigurationNeverChanges :=
  fun _ _ h => step_config h

end Sys2Proof.Machine

/-! SUPPORT. What one step of the block can do, said once, and from it the invariants of 10_state.md R41: a predicate that the shared
operations keep is kept by every operation and by every step. -/

namespace Sys2Proof.Machine

/-! ### What a command word and a step can do -/

/-- A command word runs its operation with `SEQ` holding it, or is refused as illegal (R36, R91, R173). -/
theorem command_cases {w : CmdWord} {s t : State} (h : command w s = .next t) :
    (∃ i, decode w = .ok i ∧ exec i { s with seq := .running i } = .next t) ∨
    (∃ e, decode w = .error e ∧ t = refuse .errCmd s) := by
  unfold command at h
  cases hd : decode w with
  | ok i =>
    rw [hd] at h
    exact .inl ⟨i, rfl, h⟩
  | error e =>
    rw [hd] at h
    cases h
    exact .inr ⟨e, rfl, rfl⟩

theorem command_framed {w : CmdWord} {s t : State} (h : command w s = .next t) : Framed s t := by
  obtain ⟨i, -, h⟩ | ⟨e, -, rfl⟩ := command_cases h
  · obtain ⟨hconfig, hhost, hepochs, htrace⟩ := exec_framed h
    exact ⟨hconfig, hhost, hepochs, htrace⟩
  · exact finish_framed .errCmd none s

/-- What a step leads to: the end of the operation in the sequencer, or what the host's next action makes of an idle block (R38). -/
inductive Stepped (s : State) : State → Prop
  | running {i : Instr} {t : State} (hseq : s.seq = .running i) (h : exec i s = .next t) : Stepped s t
  | waiting (hseq : s.seq = .idle) (hhost : s.host = []) : Stepped s s
  | command {w : CmdWord} {rest : List HostAction} {t : State} (hseq : s.seq = .idle) (hhost : s.host = .command w :: rest)
      (h : Machine.command w { s with host := rest } = .next t) : Stepped s t
  | bufWrite {i : Nat} {b : Byte} {rest : List HostAction} (hseq : s.seq = .idle) (hhost : s.host = .bufWrite i b :: rest)
      (hi : i < s.config.bufMax) : Stepped s (hostBufWrite i b { s with host := rest })
  | reset {rest : List HostAction} (hseq : s.seq = .idle) (hhost : s.host = .reset :: rest) :
      Stepped s (resetBlock { s with host := rest })
  | resetDuring {w : CmdWord} {k : Nat} {rest : List HostAction} {done : State} (hseq : s.seq = .idle)
      (hhost : s.host = .resetDuring w k :: rest) (h : Machine.command w { s with host := rest } = .next done) :
      Stepped s (resetDuringOp { s with host := rest } done k)

/-- A step of an idle block is the host's next action. -/
theorem step_idle {s : State} (h : s.seq = .idle) : step s = hostAction s := by
  simp only [step, stepBlock, h]

theorem step_stepped {s t : State} (h : step s = .next t) : Stepped s t := by
  cases hseq : s.seq with
  | running i =>
    simp only [step, stepBlock, hseq] at h
    exact .running hseq h
  | idle =>
    rw [step_idle hseq] at h
    unfold hostAction at h
    split at h
    case h_1 hhost => cases h; exact .waiting hseq hhost
    case h_2 w rest hhost => exact .command hseq hhost h
    case h_3 i b rest hhost =>
      split at h
      case isTrue hi => cases h; exact .bufWrite hseq hhost hi
      case isFalse => cases h
    case h_4 rest hhost => cases h; exact .reset hseq hhost
    case h_5 w k rest hhost =>
      unfold commandThenReset at h
      split at h
      case h_1 done hdone => cases h; exact .resetDuring hseq hhost hdone
      case h_2 => cases h
      case h_3 => cases h

/-! ### Predicates the shared operations keep -/

/-- `P` holds after reset whatever is outside the block, does not look at `SEQ` or at the host's actions, and is kept by each way an
operation or the host changes the state. -/
structure KeptByParts (P : State → Prop) : Prop where
  finish : ∀ {s : State} (c : Status) (r : Option HalfWord), P s → P (finish c r s)
  init : ∀ {s : State} (c : BusConfig), s.cs = false → P s → P (runInit c s)
  work : ∀ {N : Nat} {s u : State}, s.st = .opened → N ≤ s.config.bufMax → Worked N s u → P s → P u
  fatal : ∀ {s : State}, s.cs = true → P s → P (fatalEntry s)
  waiting : ∀ {s : State} (q : Seq) (host : List HostAction), P s → P { s with seq := q, host := host }
  bufWrite : ∀ {s : State} {i : Nat} (b : Byte), i < s.config.bufMax → P s → P (hostBufWrite i b s)
  reset : ∀ (config : Config) (host : List HostAction) (epochs : List (List Event)) (env : Env),
    P { State.reset with config := config, host := host, epochs := epochs, env := env }

theorem KeptByParts.exec {P : State → Prop} (hP : KeptByParts P) {i : Instr} {s t : State} (hs : P s)
    (h : exec i s = .next t) : P t := by
  obtain ⟨t', e, hcases⟩ := exec_cases i s
  cases e.symm.trans h
  obtain ⟨c, -, rfl⟩ | ⟨m, b, w, d, -, -, hcs, rfl⟩ | ⟨-, hst, hreach, -, u, hu, hend⟩ := hcases
  · exact hP.finish c none hs
  · exact hP.init _ hcs hs
  · have hPu : P u := hP.work hst hreach hu hs
    obtain ⟨r, -, -, rfl⟩ | ⟨hcs, rfl⟩ := hend
    · exact hP.finish .ok r hPu
    · exact hP.fatal hcs hPu

theorem KeptByParts.command {P : State → Prop} (hP : KeptByParts P) {w : CmdWord} {s t : State} (hs : P s)
    (h : command w s = .next t) : P t := by
  obtain ⟨i, -, h⟩ | ⟨e, -, rfl⟩ := command_cases h
  · exact hP.exec (hP.waiting (.running i) s.host hs) h
  · exact hP.finish .errCmd none hs

theorem KeptByParts.step {P : State → Prop} (hP : KeptByParts P) {s t : State} (hs : P s) (h : step s = .next t) : P t := by
  have queued : ∀ rest, P { s with host := rest } := fun rest => hP.waiting s.seq rest hs
  cases step_stepped h with
  | running _ h => exact hP.exec hs h
  | waiting => exact hs
  | command _ _ h => exact hP.command (queued _) h
  | bufWrite _ _ hi => exact hP.bufWrite _ hi (queued _)
  | reset => exact hP.reset _ _ _ _
  | resetDuring => exact hP.reset _ _ _ _

/-! ### The order on the wire (R33, R41) -/

/-- Work on the wire adds events in an allowed order, so it keeps the whole trace in order. -/
theorem WireOrdered.append {s t : State} {E : List Event} (hs : WireOrdered s) (htrace : t.trace = s.trace ++ E)
    (hE : wireScan s.cs E = some t.cs) : WireOrdered t := by
  unfold WireOrdered at hs ⊢
  rw [htrace, wireScan_append, hs]
  exact hE

theorem wireOrdered_kept : KeptByParts WireOrdered where
  finish _ _ hs := hs
  init {s} c hcs hs := by
    obtain ⟨-, -, e⟩ | ⟨-, e⟩ := runInit_cases c s <;> rw [e]
    · exact hs.append (E := [.cfgApplied c]) rfl (by simp [hcs, wireScan, wireStep])
    · exact hs
  work _ _ hu hs :=
    let ⟨_, htrace, hE, _⟩ := hu.trace
    hs.append htrace hE
  fatal {s} hcs hs :=
    hs.append (E := [.csr]) (by rw [fatalEntry_trace, if_pos hcs]) (by rw [hcs, fatalEntry_cs]; rfl)
  waiting _ _ hs := hs
  bufWrite _ _ hs := hs
  reset _ _ _ _ := rfl

/-- Settles O43, by `wireOrdered_kept`: every part of an operation adds events in an order the wire allows from `CS` on. -/
theorem stepKeepsWireOrder : Obligations.StepKeepsWireOrder :=
  fun _ _ hs h => wireOrdered_kept.step hs h

/-! ### `CFG` and the last CFGAPPLIED (R27, R41) -/

theorem lastApplied_concat_cfgApplied (t : List Event) (c : BusConfig) : lastApplied (t ++ [.cfgApplied c]) = some c := by
  simp [lastApplied]

/-- Events that apply no BusConfig leave the last one applied as it was. -/
theorem lastApplied_append {E : List Event} (h : ∀ c, Event.cfgApplied c ∉ E) (t : List Event) :
    lastApplied (t ++ E) = lastApplied t := by
  induction E generalizing t with
  | nil => rw [List.append_nil]
  | cons e E ih =>
    have hone : lastApplied (t ++ [e]) = lastApplied t := by
      cases e with
      | cfgApplied c => exact absurd List.mem_cons_self (h c)
      | csa => simp [lastApplied]
      | csr => simp [lastApplied]
      | x o i => simp [lastApplied]
    rw [List.append_cons, ih fun c hc => h c (List.mem_cons_of_mem e hc), hone]

theorem cfgIsLastApplied_kept : KeptByParts CfgIsLastApplied where
  finish _ _ hs := hs
  init {s} c _ _ := by
    obtain ⟨-, -, e⟩ | ⟨-, e⟩ := runInit_cases c s <;> rw [e]
    · exact ⟨fun _ => ⟨rfl, lastApplied_concat_cfgApplied s.trace c⟩, fun h => absurd rfl h⟩
    · exact ⟨(nomatch ·), fun _ => rfl⟩
  work hst _ hu hs := by
    obtain ⟨E, htrace, -, hE⟩ := hu.trace
    obtain ⟨hsome, hlast⟩ := hs.1 hst
    refine ⟨fun _ => ⟨by rw [hu.cfg]; exact hsome, ?_⟩, fun h => absurd (hu.st.trans hst) h⟩
    rw [htrace, lastApplied_append hE, hu.cfg, hlast]
  fatal _ _ := ⟨(nomatch ·), fun _ => rfl⟩
  waiting _ _ hs := hs
  bufWrite _ _ hs := hs
  reset _ _ _ _ := ⟨(nomatch ·), fun _ => rfl⟩

/-- Settles O44, by `cfgIsLastApplied_kept`: only an INIT applies a BusConfig, and the failure states lose `CFG`. -/
theorem stepKeepsCfgLastApplied : Obligations.StepKeepsCfgLastApplied :=
  fun _ _ hs h => cfgIsLastApplied_kept.step hs h

/-! ### `BUF` inside its bound (R31) -/

theorem bufInRange_kept : KeptByParts BufInRange where
  finish _ _ hs := hs
  init {s} c _ hs := by
    obtain ⟨-, -, e⟩ | ⟨-, e⟩ := runInit_cases c s <;> rw [e] <;> exact hs
  work _ hN hu hs := by
    refine ⟨hu.wf hs.1, fun c hc => ?_⟩
    rw [hu.config]
    exact (hu.mem c hc).elim (fun hlt => Nat.lt_of_lt_of_le hlt hN) (hs.2 c)
  fatal {s} _ hs := by
    unfold BufInRange
    rw [fatalEntry_buf, fatalEntry_config]
    exact hs
  waiting _ _ hs := hs
  bufWrite {_ i} b hi hs :=
    ⟨Memory.wf_set hs.1 i b, fun c hc => (Memory.mem_set hc).elim (fun e => e ▸ hi) (hs.2 c)⟩
  reset _ _ _ _ := ⟨List.Pairwise.nil, fun _ hc => nomatch hc⟩

/-- Settles O45, by `bufInRange_kept`: an operation writes below its reach, which its checks hold to `BUF_MAX`. -/
theorem stepKeepsBufCanonical : Obligations.StepKeepsBufCanonical :=
  fun _ _ hs h => bufInRange_kept.step hs h

/-! ### Chip-select, the last response and `SEQ` (R28, R34, R36, R90) -/

theorem csImpliesOpen_kept : KeptByParts CsImpliesOpen where
  finish _ _ hs := hs
  init {s} c hcs _ := fun h => by rw [runInit_cs, hcs] at h; cases h
  work hst _ hu _ := fun _ => hu.st.trans hst
  fatal _ _ := fun h => by rw [fatalEntry_cs] at h; cases h
  waiting _ _ hs := hs
  bufWrite _ _ hs := hs
  reset _ _ _ _ := fun h => nomatch h

/-- The end of an operation puts the status it leaves in `LASTST` into its response word. -/
theorem lastResponseIsStatus_finish (c : Status) (r : Option HalfWord) (s : State) : LastResponseIsStatus (finish c r s) := by
  simp [LastResponseIsStatus, response_code]

theorem lastResponseIsStatus_kept : KeptByParts LastResponseIsStatus where
  finish c r _ := lastResponseIsStatus_finish c r _
  init {s} c _ _ := by
    obtain ⟨-, -, e⟩ | ⟨-, e⟩ := runInit_cases c s <;> rw [e] <;> exact lastResponseIsStatus_finish _ _ _
  work _ _ hu hs := by
    unfold LastResponseIsStatus
    rw [hu.rsps, hu.lastst]
    exact hs
  fatal _ _ := lastResponseIsStatus_finish .fatal none _
  waiting _ _ hs := hs
  bufWrite _ _ hs := hs
  reset _ _ _ _ := rfl

/-- Every operation leaves the sequencer idle (R36). -/
theorem exec_seqIdle {i : Instr} {s t : State} (h : exec i s = .next t) : SeqIdle t := by
  obtain ⟨t', e, hcases⟩ := exec_cases i s
  cases e.symm.trans h
  obtain ⟨c, -, rfl⟩ | ⟨m, b, w, d, -, -, -, rfl⟩ | ⟨-, -, -, -, u, -, hend⟩ := hcases
  · rfl
  · obtain ⟨-, -, e⟩ | ⟨-, e⟩ := runInit_cases (initConfig m b w d) s <;> rw [e] <;> rfl
  · obtain ⟨r, -, -, rfl⟩ | ⟨-, rfl⟩ := hend <;> rfl

theorem step_seqIdle {s t : State} (h : step s = .next t) : SeqIdle t := by
  cases step_stepped h with
  | running _ h => exact exec_seqIdle h
  | waiting hseq => exact hseq
  | command _ _ h =>
    obtain ⟨i, -, h⟩ | ⟨e, -, rfl⟩ := command_cases h
    · exact exec_seqIdle h
    · rfl
  | bufWrite hseq => exact hseq
  | reset => rfl
  | resetDuring => rfl

/-! ### Closed epochs (R200) -/

/-- An event the wire allows leads chip-select where `wireStep` says. -/
theorem traceCs_concat {t : List Event} {e : Event} {cs : Bool} (h : wireStep (traceCs t) e = some cs) :
    traceCs (t ++ [e]) = cs := by
  cases e with
  | csa =>
    obtain ⟨-, rfl⟩ : traceCs t = false ∧ true = cs := by simpa [wireStep] using h
    simp [traceCs]
  | csr =>
    obtain ⟨-, rfl⟩ : traceCs t = true ∧ false = cs := by simpa [wireStep] using h
    simp [traceCs]
  | x o i =>
    obtain ⟨ht, rfl⟩ : traceCs t = true ∧ true = cs := by simpa [wireStep] using h
    simpa [traceCs] using ht
  | cfgApplied c =>
    obtain ⟨ht, rfl⟩ : traceCs t = false ∧ false = cs := by simpa [wireStep] using h
    simpa [traceCs] using ht

/-- A trace in order leads chip-select where its last CSA or CSR says (R41 d). -/
theorem traceCs_of_wireScan {t : List Event} {cs : Bool} (h : wireScan false t = some cs) : traceCs t = cs := by
  induction t using List.reverseRecOn generalizing cs with
  | nil => exact Option.some.inj h
  | append_singleton t e ih =>
    rw [wireScan_append] at h
    obtain ⟨c, hc, he⟩ := Option.bind_eq_some_iff.1 h
    refine traceCs_concat ?_
    rw [ih hc]
    cases hstep : wireStep c e with
    | none => simp [wireScan, hstep] at he
    | some c' => simpa [wireScan, hstep] using he

/-- A trace in order, with its open frame closed, is in order and ends with chip-select deasserted. -/
theorem wireScan_closeTrace {t : List Event} {cs : Bool} (h : wireScan false t = some cs) :
    wireScan false (closeTrace t) = some false := by
  unfold closeTrace
  rw [traceCs_of_wireScan h]
  cases cs with
  | false => exact h
  | true => rw [if_pos rfl, wireScan_append, h]; rfl

/-- What a trace in order begins with is in order. -/
theorem wireScan_of_prefix {a b : List Event} {cs c : Bool} (hab : a <+: b) (h : wireScan cs b = some c) :
    ∃ c', wireScan cs a = some c' := by
  obtain ⟨E, rfl⟩ := hab
  rw [wireScan_append] at h
  obtain ⟨c', hc', -⟩ := Option.bind_eq_some_iff.1 h
  exact ⟨c', hc'⟩

/-- The trace a reset in mid-operation closes is one the whole operation's trace begins with (R200). -/
theorem cut_prefix {a b : List Event} (h : a <+: b) (k : Nat) : a ++ (b.drop a.length).take k <+: b := by
  obtain ⟨E, rfl⟩ := h
  rw [List.drop_left]
  exact (List.prefix_append_right_inj a).2 (List.take_prefix k E)

theorem EpochsClosed.concat {epochs : List (List Event)} {t : List Event} (h : ∀ e ∈ epochs, wireScan false e = some false)
    {cs : Bool} (ht : wireScan false t = some cs) : ∀ e ∈ epochs ++ [closeTrace t], wireScan false e = some false := by
  intro e he
  rcases List.mem_append.1 he with he | he
  · exact h e he
  · rw [List.mem_singleton.1 he]
    exact wireScan_closeTrace ht

/-- Operations leave the closed epochs alone, and a reset closes a trace in order. -/
theorem step_epochsClosed {s t : State} (hwire : WireOrdered s) (hs : EpochsClosed s) (h : step s = .next t) :
    EpochsClosed t := by
  cases step_stepped h with
  | running _ h => unfold EpochsClosed; rw [(exec_framed h).epochs]; exact hs
  | waiting => exact hs
  | command _ _ h => unfold EpochsClosed; rw [(command_framed h).epochs]; exact hs
  | bufWrite => exact hs
  | reset => exact EpochsClosed.concat hs hwire
  | resetDuring _ _ hdone =>
    have hordered := wireOrdered_kept.command (wireOrdered_kept.waiting s.seq _ hwire) hdone
    obtain ⟨c, hc⟩ := wireScan_of_prefix (cut_prefix (command_framed hdone).trace _) hordered
    exact EpochsClosed.concat hs hc

/-- Settles O46: each invariant is kept by its own lemma, the closed epochs with the order on the wire. -/
theorem stepKeepsInvariant : Obligations.StepKeepsInvariant := fun s t hs h =>
  { config := by rw [step_config h]; exact hs.config
    cs := csImpliesOpen_kept.step hs.cs h
    seq := step_seqIdle h
    wire := wireOrdered_kept.step hs.wire h
    cfg := cfgIsLastApplied_kept.step hs.cfg h
    buf := bufInRange_kept.step hs.buf h
    epochs := step_epochsClosed hs.wire hs.epochs h
    status := lastResponseIsStatus_kept.step hs.status h }

end Sys2Proof.Machine

/-! SUPPORT. What an operation does to `CFG`, `ST`, `BUF` and `RESULT` (10_state.md R21, R22, R26, R31, R32). -/

namespace Sys2Proof.Machine

open Sys2Proof.Claims

/-! ### The fields of a BusConfig (R22, R87) -/

section Fields

variable (mode : BitVec 2) (bitOrder : BitVec 1) (wordSize : BitVec 5) (clockDivider : BitVec 16)

theorem cfgMode_initConfig : cfgMode (initConfig mode bitOrder wordSize clockDivider) = mode :=
  calc (mode ++ bitOrder ++ wordSize ++ clockDivider).extractLsb' 22 2
    _ = (mode ++ bitOrder ++ wordSize).extractLsb' 6 2 := BitVec.extractLsb'_append_eq_of_le (by decide)
    _ = (mode ++ bitOrder).extractLsb' 1 2 := BitVec.extractLsb'_append_eq_of_le (by decide)
    _ = mode := BitVec.extractLsb'_append_eq_left

theorem cfgBitOrder_initConfig : cfgBitOrder (initConfig mode bitOrder wordSize clockDivider) = bitOrder :=
  calc (mode ++ bitOrder ++ wordSize ++ clockDivider).extractLsb' 21 1
    _ = (mode ++ bitOrder ++ wordSize).extractLsb' 5 1 := BitVec.extractLsb'_append_eq_of_le (by decide)
    _ = (mode ++ bitOrder).extractLsb' 0 1 := BitVec.extractLsb'_append_eq_of_le (by decide)
    _ = bitOrder := BitVec.extractLsb'_append_eq_right

theorem cfgWordSize_initConfig : cfgWordSize (initConfig mode bitOrder wordSize clockDivider) = wordSize :=
  calc (mode ++ bitOrder ++ wordSize ++ clockDivider).extractLsb' 16 5
    _ = (mode ++ bitOrder ++ wordSize).extractLsb' 0 5 := BitVec.extractLsb'_append_eq_of_le (by decide)
    _ = wordSize := BitVec.extractLsb'_append_eq_right

/-- The divider field, `DIV_BITS` having R8's value. -/
theorem cfgClockDivider_initConfig {divBits : Nat} (h : divBits = 16) :
    (cfgClockDivider divBits (initConfig mode bitOrder wordSize clockDivider)).toNat = clockDivider.toNat := by
  subst h
  exact congrArg BitVec.toNat (BitVec.extractLsb'_append_eq_right (a := mode ++ bitOrder ++ wordSize))

/-- `CFG` and the command word of INIT have their fields at the same positions (R22, R87). -/
theorem encode_init_low :
    (encode (.init mode bitOrder wordSize clockDivider)).extractLsb' 0 24 =
      initConfig mode bitOrder wordSize clockDivider := by
  apply BitVec.eq_of_getLsbD_eq
  intro i hi
  simp only [encode, initConfig, BitVec.getLsbD_extractLsb', BitVec.getLsbD_append, hi, decide_true, Bool.true_and,
    Nat.zero_add]
  rw [if_pos (show i - 16 - 5 - 1 < 2 by omega)]

/-- The default `CFG_LEGAL` on INIT's operands (R26). -/
theorem legal_standard_initConfig {p : Config} (hp : p.cfgLegal = .standard) (hd : p.divBits = 16) :
    legal p (initConfig mode bitOrder wordSize clockDivider) = true ↔ wordSize = 8 ∧ 1 ≤ clockDivider.toNat := by
  have hdiv := cfgClockDivider_initConfig mode bitOrder wordSize clockDivider hd
  simp only [legal, hp, Bool.and_eq_true, beq_iff_eq, bne_iff_ne, ne_eq, cfgWordSize_initConfig, ← BitVec.toNat_inj, hdiv]
  simp [Nat.one_le_iff_ne_zero]

/-! ### How an INIT ends (R113) -/

/-- INIT runs where its row of R174 and R175 holds. -/
theorem exec_init_of_checks {s : State} (hst : s.st = .closed ∨ s.st = .opened) (hcs : s.cs = false) :
    exec (.init mode bitOrder wordSize clockDivider) s = .next (runInit (initConfig mode bitOrder wordSize clockDivider) s) := by
  have hnone : initFailure s = none := by
    obtain h | h := hst <;> simp [initFailure, firstFailure, h, hcs]
  change Host.Outcome.next (checked (initFailure s) _ s) = _
  rw [hnone]
  rfl

end Fields

/-- An INIT that ends with ST_OK applied its BusConfig (R113). -/
theorem runInit_of_ok {c : BusConfig} {s : State} (h : (runInit c s).lastst = .ok) :
    (runInit c s).st = .opened ∧ (runInit c s).cfg = some c := by
  obtain ⟨-, -, e⟩ | ⟨-, e⟩ := runInit_cases c s
  · rw [e]; exact ⟨rfl, rfl⟩
  · rw [e] at h; cases h

/-- An INIT past its checks fails where the draw says so or the BusConfig is outside `CFG_LEGAL` (R26, R113). -/
theorem runInit_fails {c : BusConfig} {s : State} (h : legal s.config c = false ∨ s.env.initDraw s.env.initAt = false) :
    (runInit c s).st = .failed ∧ (runInit c s).lastst = .initFail ∧ (runInit c s).cfg = none := by
  obtain ⟨hd, hl, -⟩ | ⟨-, e⟩ := runInit_cases c s
  · obtain h | h := h
    · rw [hl] at h; cases h
    · rw [hd] at h; cases h
  · rw [e]; exact ⟨rfl, rfl, rfl⟩

theorem runInit_st (c : BusConfig) (s : State) : (runInit c s).st = .opened ∨ (runInit c s).st = .failed := by
  obtain ⟨-, -, e⟩ | ⟨-, e⟩ := runInit_cases c s <;> rw [e]
  · exact .inl rfl
  · exact .inr rfl

/-- An INIT that ends with ST_OK was not refused: `CFG` holds its operands. -/
theorem exec_init_ok {mode : BitVec 2} {bitOrder : BitVec 1} {wordSize : BitVec 5} {clockDivider : BitVec 16} {s t : State}
    (h : exec (.init mode bitOrder wordSize clockDivider) s = .next t) (hok : t.lastst = .ok) :
    t.cfg = some (initConfig mode bitOrder wordSize clockDivider) := by
  obtain ⟨t', e, hcases⟩ := exec_cases (.init mode bitOrder wordSize clockDivider) s
  cases e.symm.trans h
  obtain ⟨c, hc, rfl⟩ | ⟨m, b, w, d, hi, -, -, rfl⟩ | ⟨hi, -⟩ := hcases
  · cases (hok : c = .ok)
    simp at hc
  · cases hi
    exact (runInit_of_ok hok).2
  · exact absurd rfl (hi mode bitOrder wordSize clockDivider)

/-- Settles O14: `CFG` holds the operands by `exec_init_ok`, at the positions of the command word by `encode_init_low`. -/
theorem cfgFieldsAreInitOperands : Obligations.CfgFieldsAreInitOperands := by
  intro m b w d s t hwf h hok
  obtain ⟨-, -, -, -, -, -, hdiv⟩ := hwf
  exact ⟨initConfig m b w d, exec_init_ok h hok, (encode_init_low m b w d).symm, cfgMode_initConfig m b w d,
    cfgBitOrder_initConfig m b w d, cfgWordSize_initConfig m b w d, cfgClockDivider_initConfig m b w d hdiv⟩

/-- Settles O15: the predicate by `legal_standard_initConfig`, the failure by `runInit_fails`. -/
theorem illegalBusConfigAlwaysFails : Obligations.IllegalBusConfigAlwaysFails := by
  refine ⟨fun m b w d p hp hd => legal_standard_initConfig m b w d hp hd, fun p l c hp => ?_,
    fun m b w d s hst hcs hfail => ⟨_, exec_init_of_checks m b w d hst hcs, runInit_fails hfail⟩⟩
  simp [legal, hp]

/-- Settles O36, by the cases of an operation: only an INIT and the fatal entry touch `CFG`. -/
theorem cfgWrittenOnlyByInit : Obligations.CfgWrittenOnlyByInit := by
  intro i s t h
  obtain ⟨t', e, hcases⟩ := exec_cases i s
  cases e.symm.trans h
  obtain ⟨c, -, rfl⟩ | ⟨m, b, w, d, rfl, -, -, rfl⟩ | ⟨-, -, -, -, u, hu, hend⟩ := hcases
  · exact .inl rfl
  · obtain ⟨-, -, e⟩ | ⟨-, e⟩ := runInit_cases (initConfig m b w d) s <;> rw [e]
    · exact .inr (.inl ⟨rfl, rfl, rfl, congrArg some (encode_init_low m b w d).symm⟩)
    · exact .inr (.inr ⟨rfl, .inl rfl⟩)
  · obtain ⟨r, -, -, rfl⟩ | ⟨-, rfl⟩ := hend
    · exact .inl hu.cfg
    · exact .inr (.inr ⟨rfl, .inr rfl⟩)

/-! ### The lifecycle (R21) -/

/-- What an operation does to `ST`: nothing, or it is an INIT that ran, or another operation that died. -/
theorem exec_st {i : Instr} {s t : State} (h : exec i s = .next t) :
    t.st = s.st ∨
    (isInit i = true ∧ (s.st = .closed ∨ s.st = .opened) ∧ (t.st = .opened ∨ t.st = .failed)) ∨
    (isInit i = false ∧ s.st = .opened ∧ t.st = .fatal ∧ t.lastst = .fatal) := by
  obtain ⟨t', e, hcases⟩ := exec_cases i s
  cases e.symm.trans h
  obtain ⟨c, -, rfl⟩ | ⟨m, b, w, d, rfl, hst, -, rfl⟩ | ⟨hi, hst, -, -, u, hu, hend⟩ := hcases
  · exact .inl rfl
  · exact .inr (.inl ⟨rfl, hst, runInit_st _ s⟩)
  · obtain ⟨r, -, -, rfl⟩ | ⟨-, rfl⟩ := hend
    · exact .inl hu.st
    · have hinit : isInit i = false := by
        cases i with
        | init m b w d => exact absurd rfl (hi m b w d)
        | _ => rfl
      exact .inr (.inr ⟨hinit, hst, rfl, rfl⟩)

/-- A command word always leads to a next state. -/
theorem command_next (w : CmdWord) (s : State) : ∃ t, command w s = .next t := by
  unfold command
  cases decode w with
  | ok i =>
    obtain ⟨t, h, -⟩ := exec_cases i { s with seq := .running i }
    exact ⟨t, h⟩
  | error e => exact ⟨_, rfl⟩

/-- A reset of an idle block always leads to CLOSED (R200). -/
theorem step_of_resetNext {s : State} (hseq : s.seq = .idle) (h : resetNext s) : ∃ t, step s = .next t ∧ t.st = .closed := by
  rw [step_idle hseq]
  unfold hostAction
  obtain ⟨rest, h⟩ | ⟨w, k, rest, h⟩ := h <;> rw [h]
  · exact ⟨_, rfl, rfl⟩
  · obtain ⟨done, hdone⟩ := command_next w { s with host := rest }
    exact ⟨resetDuringOp { s with host := rest } done k, by simp only [commandThenReset, hdone], rfl⟩

/-- Settles O33: the transitions by the cases of a step and `exec_st`, the reset by `step_of_resetNext`. -/
theorem lifecycleTransitions : Obligations.LifecycleTransitions := by
  refine ⟨fun s t hseq h => ?_, fun s hseq h => step_of_resetNext hseq h⟩
  cases step_stepped h with
  | running hrun => rw [hseq] at hrun; cases hrun
  | waiting => exact .inl rfl
  | @command w rest _ _ hhost hw =>
    obtain ⟨i, hd, hi⟩ | ⟨e, -, rfl⟩ := command_cases hw
    · exact (exec_st hi).imp_right fun hst => .inl ⟨w, rest, i, hhost, hd, hst⟩
    · exact .inl rfl
  | bufWrite => exact .inl rfl
  | reset _ hhost => exact .inr (.inr ⟨.inl ⟨_, hhost⟩, rfl⟩)
  | resetDuring _ hhost => exact .inr (.inr ⟨.inr ⟨_, _, _, hhost⟩, rfl⟩)

/-! ### `BUF` (R31) -/

theorem runInit_buf (c : BusConfig) (s : State) : (runInit c s).buf = s.buf := by
  obtain ⟨-, -, e⟩ | ⟨-, e⟩ := runInit_cases c s <;> rw [e] <;> rfl

/-- Settles O38, by the cases of an operation: work writes below the operation's reach, everything else leaves `BUF` alone. -/
theorem onlyBufferWritesTouchBuf : Obligations.OnlyBufferWritesTouchBuf := by
  intro i s t h
  have of_eq : ∀ {t : State}, t.buf = s.buf →
      (reach i = 0 → t.buf = s.buf) ∧ ∀ j, reach i ≤ j → hostBufRead j t = hostBufRead j s :=
    fun e => ⟨fun _ => e, fun j _ => congrArg (Memory.get · j) e⟩
  obtain ⟨t', e, hcases⟩ := exec_cases i s
  cases e.symm.trans h
  obtain ⟨c, -, rfl⟩ | ⟨m, b, w, d, -, -, -, rfl⟩ | ⟨-, -, -, -, u, hu, hend⟩ := hcases
  · exact of_eq rfl
  · exact of_eq (runInit_buf _ s)
  · have hbuf : t.buf = u.buf := by
      obtain ⟨r, -, -, rfl⟩ | ⟨-, rfl⟩ := hend
      · rfl
      · exact fatalEntry_buf u
    exact ⟨fun h0 => hbuf.trans (hu.kept h0), fun j hj => (congrArg (Memory.get · j) hbuf).trans (hu.out j hj)⟩

end Sys2Proof.Machine

/-! SUPPORT. What a read receives and where it ends up: `RESULT`, the response word and the last bytes of `TRACE` (10_state.md R32,
20_memory.md R54). -/

namespace Sys2Proof.Machine

/-! ### `RESULT` and the response (R32, R90) -/

theorem runInit_result (c : BusConfig) (s : State) : (runInit c s).result = s.result := by
  obtain ⟨-, -, e⟩ | ⟨-, e⟩ := runInit_cases c s <;> rw [e] <;> rfl

/-- An operation with a result that ends with ST_OK puts it into `RESULT` and into its response; any other leaves `RESULT`. -/
theorem exec_result {i : Instr} {s t : State} (h : exec i s = .next t) :
    (t.lastst = .ok ∧ hasResult i = true ∧ ∃ v, t.result = some v ∧ t.rsps = s.rsps ++ [response .ok (some v)]) ∨
    ((t.lastst ≠ .ok ∨ hasResult i = false) ∧ t.result = s.result) := by
  obtain ⟨t', e, hcases⟩ := exec_cases i s
  cases e.symm.trans h
  obtain ⟨c, hc, rfl⟩ | ⟨m, b, w, d, rfl, -, -, rfl⟩ | ⟨-, -, -, -, u, hu, hend⟩ := hcases
  · refine .inr ⟨.inl fun hok => ?_, rfl⟩
    cases (hok : c = .ok)
    simp at hc
  · exact .inr ⟨.inr rfl, runInit_result _ s⟩
  · obtain ⟨r, hr, -, rfl⟩ | ⟨-, rfl⟩ := hend
    · cases r with
      | none => exact .inr ⟨.inr hr.symm, hu.result⟩
      | some v => exact .inl ⟨rfl, hr.symm, v, rfl, by rw [finish_rsps, hu.rsps]⟩
    · exact .inr ⟨.inl nofun, (fatalEntry_result u).trans hu.result⟩

/-! ### Bytes received (R111, R112) -/

theorem received_append (a b : List Event) : received (a ++ b) = received a ++ received b := List.filterMap_append

theorem received_wireUnits {o i : List Byte} (h : o.length = i.length) : received (wireUnits o i) = i := by
  induction o generalizing i with
  | nil => exact (List.length_eq_zero_iff.1 h.symm).symm
  | cons b o ih =>
    cases i with
    | nil => cases h
    | cons c i => exact congrArg (c :: ·) (ih (Nat.succ.inj h))

/-- A part of an operation went through with `n` bytes, which are the last `n` received in the trace, or ended in the fatal entry. -/
def Answered (n : Nat) (s : State) : Flow → Prop
  | .going t rcv => t.config = s.config ∧ rcv.length = n ∧ rcv <:+ received t.trace
  | .dead t => t.lastst = .fatal

theorem Answered.andThen {m n : Nat} {s : State} {f : Flow} {k : State → List Byte → Flow} (h : Answered m s f)
    (hk : ∀ t r, t.config = s.config → Answered n t (k t r)) : Answered n s (f.andThen k) := by
  cases f with
  | dead t => exact h
  | going t r =>
    have h' := hk t r h.1
    simp only [Flow.andThen]
    cases hkt : k t r with
    | going u q => rw [hkt] at h'; exact ⟨h'.1.trans h.1, h'.2⟩
    | dead u => rw [hkt] at h'; exact h'

theorem transfer_answered (o : List Byte) (s : State) : Answered o.length s (transfer o s) := by
  cases hd : txOutcome s 0 with
  | ok =>
    rw [transfer_ok hd]
    refine ⟨rfl, answers_length s 0 o.length, received s.trace, ?_⟩
    rw [show (moved s (wireUnits o (answers s 0 o.length)) o.length 1).trace =
      s.trace ++ wireUnits o (answers s 0 o.length) from rfl, received_append,
      received_wireUnits (answers_length s 0 o.length).symm]
  | fail p => rw [transfer_fail hd]; exact fatalEntry_lastst _

theorem frame_answered (sel : Byte) {pay : List Byte} {s : State} (h1 : 1 ≤ pay.length)
    (h2 : pay.length ≤ s.config.chunk) : Answered pay.length s (frame sel pay s) := by
  cases hsel : txOutcome s 0 with
  | fail p => rw [frame_fail_selector hsel]; exact fatalEntry_lastst _
  | ok =>
    cases hpay : txOutcome s 1 with
    | fail p => rw [frame_fail_payload h1 h2 hsel hpay]; exact fatalEntry_lastst _
    | ok =>
      rw [frame_ok h1 h2 hsel hpay]
      refine ⟨rfl, answers_length s 1 pay.length, received s.trace ++ answers s 0 1, ?_⟩
      have hunits : received (wireUnits (sel :: pay) (answers s 0 (1 + pay.length))) =
          answers s 0 1 ++ answers s 1 pay.length := by
        rw [received_wireUnits (by rw [answers_length, List.length_cons, Nat.add_comm]), ← answers_append, Nat.zero_add]
      simp only [moved, received_append, hunits]
      simp [received]

/-! ### The value of a read -/

/-- An operation on the wire that ends with ST_OK went through: its end is what its part on the wire leaves. -/
theorem checked_close_ok {n : Nat} {needCs : Option Bool} {argsOk : Bool} {flow : State → Flow}
    {k : State → List Byte → State} {s t : State} (hflow : Answered n s (flow s))
    (ht : t = checked (trafficFailure needCs argsOk s) (fun s => (flow s).close k) s) (hok : t.lastst = .ok) :
    ∃ u rcv, Answered n s (.going u rcv) ∧ t = k u rcv := by
  subst ht
  obtain ⟨c, hc, e⟩ | ⟨-, e⟩ := checked_cases (f := trafficFailure needCs argsOk s) (run := fun s => (flow s).close k) (s := s)
  · rw [e] at hok
    cases (hok : c = .ok)
    have := firstFailure_some hc
    simp at this
  · rw [e] at hok ⊢
    cases hf : flow s with
    | going u rcv =>
      rw [hf] at hflow
      exact ⟨u, rcv, hflow, rfl⟩
    | dead u =>
      rw [hf] at hflow hok
      cases hok.symm.trans hflow

/-- A read of one byte: the byte received last, zero-extended. -/
theorem checked_byteResult {needCs : Option Bool} {flow : State → Flow} {s t : State} (hflow : Answered 1 s (flow s))
    (ht : t = checked (trafficFailure needCs true s)
      (fun s => (flow s).close fun s rcv => retValue (byteResult rcv) s) s) (hok : t.lastst = .ok) :
    ∃ b, (received t.trace).getLast? = some b ∧ t.result = some (zext16 b) := by
  obtain ⟨u, rcv, ⟨-, hlen, l, hl⟩, rfl⟩ := checked_close_ok hflow ht hok
  obtain ⟨b, rfl⟩ := List.length_eq_one_iff.1 hlen
  exact ⟨b, by rw [retValue_eq, finish_trace, ← hl, List.getLast?_concat], rfl⟩

/-- The four operations whose result is one byte (R119, R146, R147, R152). -/
theorem exec_byteResult {i : Instr} {s t : State} (hchunk : 1 ≤ s.config.chunk) (hres : hasResult i = true)
    (hi : ∀ x, i ≠ .xferw x) (h : exec i s = .next t) (hok : t.lastst = .ok) :
    ∃ b, (received t.trace).getLast? = some b ∧ t.result = some (zext16 b) := by
  have byteFrame : ∀ sel b (u : State), u.config = s.config → Answered 1 u (frame sel [b] u) := fun sel b u hu =>
    frame_answered sel (pay := [b]) Nat.le.refl (by rw [hu]; exact hchunk)
  cases i with
  | xferb b =>
    cases h
    exact checked_byteResult (flow := transfer [b]) (transfer_answered [b] s) rfl hok
  | rdata =>
    cases h
    exact checked_byteResult (flow := readFrame) (byteFrame _ _ s rfl) rfl hok
  | rstatus =>
    cases h
    exact checked_byteResult (flow := fun s => frame s.config.selSR [s.config.dummy] s) (byteFrame _ _ s rfl) rfl hok
  | rreg addr =>
    cases h
    exact checked_byteResult (flow := fun s => (commandFrame addr s).andThen fun s _ => readFrame s)
      ((byteFrame _ addr s rfl).andThen fun t _ ht => byteFrame _ _ t ht) rfl hok
  | xferw w => exact absurd rfl (hi w)
  | _ => cases hres

/-- XFERW's result is the two bytes received last, in the order a word goes on the wire (R54, R120). -/
theorem exec_xferw_result {w : HalfWord} {s t : State} (hword : s.config.wordBits = 16) (hunit : s.config.unitBits = 8)
    (h : exec (.xferw w) s = .next t) (hok : t.lastst = .ok) :
    ∃ l i0 i1, received t.trace = l ++ [i0, i1] ∧
      t.result = some (if s.config.wordHighFirst then i0 ++ i1 else i1 ++ i0) := by
  cases h
  obtain ⟨u, rcv, ⟨hconfig, hlen, l, hl⟩, e⟩ := checked_close_ok (flow := fun s => transfer (wordUnits s.config w) s)
    (k := fun s rcv => retValue (wordResult s.config rcv) s) (transfer_answered _ s) rfl hok
  have hlen2 : rcv.length = 2 := by
    rw [hlen, wordUnits]
    split <;> simp [hword, hunit]
  obtain ⟨i0, i1, rfl⟩ := List.length_eq_two.1 hlen2
  refine ⟨l, i0, i1, (congrArg (received ·.trace) e).trans hl.symm, (congrArg State.result e).trans ?_⟩
  rw [retValue_eq, finish_result, hconfig, wordResult_pair hunit]
  rfl

theorem zext16_eq_append (b : Byte) : zext16 b = (0#8 ++ b : BitVec 16) :=
  BitVec.setWidth_eq_append (by decide)

/-- Settles O32: where the result goes by `exec_result`, its value by `exec_byteResult` and `exec_xferw_result`. -/
theorem resultWrittenOnlyBySuccessfulReads : Obligations.ResultWrittenOnlyBySuccessfulReads := by
  refine ⟨rfl, fun i s t hwf h => ?_⟩
  obtain ⟨-, -, -, hchunk, hword, hunit, -⟩ := hwf
  have not_both (hok : t.lastst = .ok) (hres : hasResult i = true) : ¬ (t.lastst ≠ .ok ∨ hasResult i = false) := by
    simp [hok, hres]
  obtain ⟨hok, hres, v, hv, hrsp⟩ | ⟨hno, hkept⟩ := exec_result h
  · refine ⟨fun _ _ => ⟨v, _, hv, hrsp, response_result .ok (some v), fun hi => ?_, fun x hx => ?_⟩,
      fun hno => absurd hno (not_both hok hres)⟩
    · obtain ⟨b, hb, hbv⟩ := exec_byteResult (by omega) hres hi h hok
      cases hv.symm.trans hbv
      exact ⟨b, hb, by rw [zext16_eq_append]; exact lo8_append 0 b, by rw [zext16_eq_append]; exact hi8_append 0 b⟩
    · subst hx
      obtain ⟨l, i0, i1, hl, hlv⟩ := exec_xferw_result hword hunit h hok
      exact ⟨l, i0, i1, hl, Option.some.inj (hv.symm.trans hlv)⟩
  · exact ⟨fun hok hres => absurd hno (not_both hok hres), fun _ => hkept⟩

end Sys2Proof.Machine

/-! SUPPORT. A step and the host's window on `BUF` written out, the state after reset, the status registers, and the bits of a unit
(10_state.md R31, R35 to R41, 70_reset_and_hazards.md R203). -/

namespace Sys2Proof.Machine

open Sys2Proof.Claims

/-! ### The host's next action (R31, R38) -/

/-- A legal command word next: its operation runs, the action taken and `SEQ` holding it (R36, R60). -/
theorem step_of_command {s : State} {w : CmdWord} {i : Instr} {rest : List HostAction} (hseq : s.seq = .idle)
    (hhost : s.host = .command w :: rest) (hw : decode w = .ok i) :
    step s = exec i { s with host := rest, seq := .running i } := by
  rw [step_idle hseq]
  simp only [hostAction, hhost, command, hw]
  rfl

theorem tableWord_eq {w : Nat} (h : w < 2 ^ 32) : tableWord 32 w = BitVec.ofNat 32 w := by
  rw [tableWord, Nat.mod_eq_of_lt h]

/-- Settles O5: both clauses are `step_of_command`, the second for the word `withFetchWord` presents. -/
theorem stepRunsDecodedOperation : Obligations.StepRunsDecodedOperation := by
  refine ⟨fun s w i rest hseq hhost hw => step_of_command hseq hhost hw, fun s w i hw hlt => ?_⟩
  exact step_of_command (s := s.withFetchWord 32 w) rfl rfl (by rw [tableWord_eq hlt]; exact hw)

/-- The host's write of a byte of `BUF` below `BUF_MAX` (R31). -/
theorem step_of_bufWrite {s : State} {i : Nat} {b : Byte} {rest : List HostAction} (hseq : s.seq = .idle)
    (hhost : s.host = .bufWrite i b :: rest) :
    step s = if i < s.config.bufMax then .next (hostBufWrite i b { s with host := rest }) else .fault (.bufIndex i) := by
  rw [step_idle hseq]
  simp only [hostAction, hhost]

/-- Settles O6: the write by `step_of_bufWrite`, what reads back by `Memory.get_set`. -/
theorem hostWritesOneByteOfBuf : Obligations.HostWritesOneByteOfBuf := by
  intro s hseq
  refine ⟨fun hhost => ?_, fun i b rest hhost => ⟨fun hi => ?_, fun hi => ?_⟩⟩
  · rw [step_idle hseq]
    simp only [hostAction, hhost]
  · exact ⟨hostBufWrite i b { s with host := rest }, by rw [step_of_bufWrite hseq hhost, if_pos hi],
      fun j => Memory.get_set s.buf i j b, rfl⟩
  · rw [step_of_bufWrite hseq hhost, if_neg (by omega)]

/-! ### After reset (R203) -/

/-- The parameters after reset meet what R8 and R9 ask of them, whatever the OPEN ones are. -/
theorem afterReset_wf : Config.afterReset.wf :=
  ⟨by decide, Nat.le_add_left 1 _, Config.openBufMax.isLt, by decide, rfl, rfl, rfl⟩

/-- Settles O42, invariant by invariant. -/
theorem resetMeetsInvariant : Obligations.ResetMeetsInvariant where
  config := afterReset_wf
  cs := nofun
  seq := rfl
  wire := rfl
  cfg := ⟨nofun, fun _ => rfl⟩
  buf := ⟨Memory.wf_reset, nofun⟩
  epochs := nofun
  status := rfl

/-! ### Status registers (R37) -/

/-- The four fields of S0. -/
theorem statusS0_fields (s : State) :
    (statusS0 s).extractLsb' 0 2 = lifecycleBits s.st ∧ (statusS0 s).getLsbD 2 = s.cs ∧
    (statusS0 s).getLsbD 3 = busy s ∧ (statusS0 s).extractLsb' 4 4 = 0 := by
  unfold statusS0
  generalize lifecycleBits s.st = st
  generalize busy s = busy
  generalize s.cs = cs
  revert st busy cs
  decide

theorem busy_iff (s : State) : busy s = true ↔ s.seq ≠ .idle := bne_iff_ne

theorem code_eq_codeNumber (c : Status) : c.code = codeNumber c := by
  cases c <;> rfl

/-- Settles O53: S0 by `statusS0_fields`, the numbers of S3 by `code_eq_codeNumber`. -/
theorem statusRegistersFollowState : Obligations.StatusRegistersFollowState := by
  intro s
  obtain ⟨hst, hcs, hbusy, hzero⟩ := statusS0_fields s
  refine ⟨⟨statusS0 s, rfl, rfl, ?_, hcs, by rw [hbusy, busy_iff], hzero⟩, rfl, fun v hv => ?_, fun hv => ?_,
    code_eq_codeNumber s.lastst, congrArg (fun c => some (BitVec.setWidth 24 c)) (code_eq_codeNumber s.lastst), rfl⟩
  · rw [hst]
    cases s.st <;> rfl
  · simp [statusRead, statusS2, hv]
  · simp [statusRead, statusS2, hv]

/-! ### The bits of a unit (R24, R35, R55) -/

/-- The position in the byte of the bit at place `k` of the order. -/
theorem serialBits_getElem? {n k : Nat} (hk : k < n) (order : BitVec 1) (b : Byte) :
    (serialBits n order b)[k]? = some (b.getLsbD (if order = 0 then n - 1 - k else k)) := by
  simp [serialBits, hk]

/-- A byte put together bit by bit from place 0 up. -/
theorem getLsbD_foldl_or (f : Nat → Bool) (n : Nat) {j : Nat} (hj : j < 8) :
    ((List.range n).foldl (fun b k => b ||| (BitVec.setWidth 8 (BitVec.ofBool (f k)) <<< k)) (0 : Byte)).getLsbD j =
      (decide (j < n) && f j) := by
  induction n with
  | zero => simp
  | succ n ih =>
    rw [List.range_succ, List.foldl_append, List.foldl_cons, List.foldl_nil, BitVec.getLsbD_or, ih]
    obtain hlt | rfl | hgt := Nat.lt_trichotomy j n
    · simp [hlt, Nat.lt_succ_of_lt hlt]
    · simp [hj]
    · simp [show ¬ j < n by omega, show ¬ j < n + 1 by omega, show j - n ≠ 0 by omega]

/-- A unit's bits assembled in the order they were sent in are the byte (R55). -/
theorem fromSerialBits_serialBits (order : BitVec 1) (b : Byte) : fromSerialBits 8 order (serialBits 8 order b) = b := by
  apply BitVec.eq_of_getLsbD_eq
  intro j hj
  rw [fromSerialBits, getLsbD_foldl_or _ 8 hj]
  by_cases h : order = 0
  · rw [if_pos h, serialBits_getElem? (by omega), if_pos h, show 8 - 1 - (8 - 1 - j) = j by omega]
    simp [hj]
  · rw [if_neg h, serialBits_getElem? hj, if_neg h]
    simp [hj]

/-- The two orders are each other's reverse (R24). -/
theorem serialBits_reverse (n : Nat) (b : Byte) : serialBits n 0 b = (serialBits n 1 b).reverse := by
  apply List.ext_getElem
  · simp [serialBits]
  · intro k h _
    simp [serialBits]

/-- Settles O54: place by place with `serialBits_getElem?`, the round trip by `fromSerialBits_serialBits`. -/
theorem serialBitsRoundTrip : Obligations.SerialBitsRoundTrip := by
  intro p b hp
  rw [hp]
  refine ⟨fun order => fromSerialBits_serialBits order b, fun k hk => ⟨?_, ?_⟩, serialBits_reverse 8 b⟩
  · exact serialBits_getElem? hk 0 b
  · exact serialBits_getElem? hk 1 b

end Sys2Proof.Machine

/-! SUPPORT. No operation reads `CFG`, and the bits of every unit are in the order of the `CFG` the operation ran in (20_memory.md R55). -/

namespace Sys2Proof.Machine

/-! ### No operation reads `CFG` (R24, R27, R55) -/

/-- `run` does not look at `CFG`: with another `CFG` it leaves the same state but for `CFG`, which it leaves alone in both or writes
alike. -/
def CfgBlind (run : State → State) : Prop :=
  ∀ (s : State) (cfg : Option BusConfig), ∃ cfg', run { s with cfg := cfg } = { run s with cfg := cfg' } ∧
    (((run s).cfg = s.cfg ∧ cfg' = cfg) ∨ cfg' = (run s).cfg)

/-- What carries any `CFG` through unchanged is blind to it: carried through, the state's own `CFG` shows that it is kept. -/
theorem CfgBlind.of_withCfg {run : State → State}
    (h : ∀ s cfg, run { s with cfg := cfg } = { run s with cfg := cfg }) : CfgBlind run :=
  fun s cfg =>
    have hkept : run s = { run s with cfg := s.cfg } := h s s.cfg
    ⟨cfg, h s cfg, .inl ⟨by rw [hkept], rfl⟩⟩

/-- The end of an operation whose part on the wire carries `CFG` through. -/
theorem CfgBlind.close {flow : State → Flow} (v : Config → List Byte → Option HalfWord)
    (hflow : ∀ s cfg, flow { s with cfg := cfg } = (flow s).withCfg cfg) :
    CfgBlind fun s => (flow s).close fun s rcv => finish .ok (v s.config rcv) s := by
  intro s cfg
  have hkept : flow s = (flow s).withCfg s.cfg := hflow s s.cfg
  simp only [hflow s cfg]
  cases hfs : flow s with
  | dead t => exact ⟨t.cfg, rfl, .inr rfl⟩
  | going t rcv =>
    rw [hfs] at hkept
    have ht : t = { t with cfg := s.cfg } := (Flow.going.inj hkept).1
    have hcfg : t.cfg = s.cfg := by rw [ht]
    exact ⟨cfg, rfl, .inl ⟨hcfg, rfl⟩⟩

/-- A refusal leaves `CFG` alone. -/
theorem CfgBlind.checked {failure : State → Option Status} {run : State → State} (hrun : CfgBlind run)
    (hfailure : ∀ s cfg, failure { s with cfg := cfg } = failure s) : CfgBlind fun s => checked (failure s) run s := by
  intro s cfg
  simp only [hfailure s cfg]
  cases failure s with
  | some c => exact ⟨cfg, rfl, .inl ⟨rfl, rfl⟩⟩
  | none => exact hrun s cfg

/-- INIT past its checks writes `CFG` whatever it was. -/
theorem runInit_withCfg (c : BusConfig) (cfg : Option BusConfig) (s : State) :
    runInit c { s with cfg := cfg } = runInit c s := rfl

/-- The checks of an operation do not look at `CFG`, nor does what runs behind them: an INIT overwrites it, and no other operation
reads it. -/
theorem exec_checked_cfgBlind (i : Instr) :
    ∃ (failure : State → Option Status) (run : State → State), (∀ s, exec i s = .next (checked (failure s) run s)) ∧
      (∀ s cfg, failure { s with cfg := cfg } = failure s) ∧ CfgBlind run := by
  cases i with
  | init m b w d =>
    exact ⟨_, _, fun _ => rfl, fun _ _ => rfl, fun s cfg => ⟨_, runInit_withCfg _ cfg s, .inr rfl⟩⟩
  | beginFrame => exact ⟨_, _, fun _ => rfl, fun _ _ => rfl, .of_withCfg fun _ _ => rfl⟩
  | endFrame =>
    exact ⟨_, _, fun _ => rfl, fun _ _ => rfl, .of_withCfg fun s cfg => congrArg (finish .ok none) (release_withCfg cfg s)⟩
  | write size hold =>
    exact ⟨_, _, fun _ => rfl, fun _ _ => rfl, .close (fun _ _ => none) fun s cfg => sendChunks_withCfg cfg hold _ size _ 0 s⟩
  | xferb b =>
    exact ⟨_, _, fun _ => rfl, fun _ _ => rfl, .close (fun _ rcv => some (byteResult rcv))
      fun s cfg => transfer_withCfg cfg _ s⟩
  | xferw w =>
    exact ⟨_, _, fun _ => rfl, fun _ _ => rfl, .close (fun p rcv => some (wordResult p rcv))
      fun s cfg => transfer_withCfg cfg _ s⟩
  | wcmd addr =>
    exact ⟨_, _, fun _ => rfl, fun _ _ => rfl, .close (fun _ _ => none) fun s cfg => commandFrame_withCfg cfg addr s⟩
  | wdata v =>
    exact ⟨_, _, fun _ => rfl, fun _ _ => rfl, .close (fun _ _ => none) fun s cfg => frame_withCfg cfg _ _ s⟩
  | wdatan n =>
    exact ⟨_, _, fun _ => rfl, fun _ _ => rfl, .close (fun _ _ => none) fun s cfg => frameBuffer_withCfg cfg _ n s⟩
  | wdataw w =>
    exact ⟨_, _, fun _ => rfl, fun _ _ => rfl, .close (fun _ _ => none) fun s cfg => frame_withCfg cfg _ _ s⟩
  | rdata =>
    exact ⟨_, _, fun _ => rfl, fun _ _ => rfl, .close (fun _ rcv => some (byteResult rcv))
      fun s cfg => readFrame_withCfg cfg s⟩
  | rstatus =>
    exact ⟨_, _, fun _ => rfl, fun _ _ => rfl, .close (fun _ rcv => some (byteResult rcv))
      fun s cfg => frame_withCfg cfg _ _ s⟩
  | wreg addr v =>
    exact ⟨_, _, fun _ => rfl, fun _ _ => rfl, .close (fun _ _ => none) fun s cfg => registerWrite_withCfg cfg addr v s⟩
  | wreg16 addr v =>
    refine ⟨_, _, fun _ => rfl, fun _ _ => rfl, .close (fun _ _ => none) fun s cfg => ?_⟩
    rw [registerWrite_withCfg]
    exact Flow.withCfg_andThen fun t _ => registerWrite_withCfg cfg _ _ t
  | rreg addr =>
    refine ⟨_, _, fun _ => rfl, fun _ _ => rfl, .close (fun _ rcv => some (byteResult rcv)) fun s cfg => ?_⟩
    rw [commandFrame_withCfg]
    exact Flow.withCfg_andThen fun t _ => readFrame_withCfg cfg t

/-- Settles O56, by `exec_checked_cfgBlind`: no operation reads `CFG`. -/
theorem bitOrderChangesNoValue : Obligations.BitOrderChangesNoValue := by
  intro i s t cfg h
  obtain ⟨failure, run, hexec, hfailure, hrun⟩ := exec_checked_cfgBlind i
  obtain ⟨cfg', heq, hcfg⟩ := hrun.checked hfailure s cfg
  cases (hexec s).symm.trans h
  exact ⟨cfg', (hexec _).trans (congrArg _ heq), hcfg⟩

/-! ### The order of bits on the wire (R24, R35, R55) -/

/-- `CFG.bitOrder` is bit 21 of `CFG` (R22). -/
theorem cfgBitOrder_eq_ofBool (c : BusConfig) : cfgBitOrder c = BitVec.ofBool (c.getLsbD 21) := by
  apply BitVec.eq_of_getLsbD_eq
  intro k hk
  obtain rfl : k = 0 := by omega
  simp [cfgBitOrder]

/-- An operation applies a BusConfig and exchanges no unit, or applies none; units are exchanged only while the channel is OPEN. -/
theorem exec_events {i : Instr} {s t : State} (h : exec i s = .next t) :
    ∃ E, t.trace = s.trace ++ E ∧
      ((∃ c, E = [.cfgApplied c]) ∨ ((∀ c, Event.cfgApplied c ∉ E) ∧ (E = [] ∨ s.st = .opened))) := by
  obtain ⟨t', e, hcases⟩ := exec_cases i s
  cases e.symm.trans h
  obtain ⟨c, -, rfl⟩ | ⟨m, b, w, d, -, -, -, rfl⟩ | ⟨-, hst, -, -, u, hu, hend⟩ := hcases
  · exact ⟨[], (List.append_nil _).symm, .inr ⟨fun _ => List.not_mem_nil, .inl rfl⟩⟩
  · obtain ⟨-, -, e⟩ | ⟨-, e⟩ := runInit_cases (initConfig m b w d) s <;> rw [e]
    · exact ⟨_, rfl, .inl ⟨_, rfl⟩⟩
    · exact ⟨[], (List.append_nil _).symm, .inr ⟨fun _ => List.not_mem_nil, .inl rfl⟩⟩
  · obtain ⟨E, htrace, -, hE⟩ := hu.trace
    obtain ⟨r, -, -, rfl⟩ | ⟨hcs, rfl⟩ := hend
    · exact ⟨E, htrace, .inr ⟨hE, .inr hst⟩⟩
    · refine ⟨E ++ [.csr], ?_, .inr ⟨fun c hc => ?_, .inr hst⟩⟩
      · rw [fatalEntry_trace, if_pos hcs, htrace, List.append_assoc]
      · exact hE c (by simpa using hc)

/-- The units an operation exchanges, bit by bit: in the order of the `CFG` it ran in, and none without `CFG`. -/
theorem exec_serialTrace {i : Instr} {s t : State} (hs : CfgIsLastApplied s) (h : exec i s = .next t) :
    ∃ E, t.trace = s.trace ++ E ∧ (s.cfg = none → exchanged E = []) ∧ ∀ c, s.cfg = some c →
      serialTrace t = serialTrace s ++ (exchanged E).map fun u => some (serialUnit s.config.unitBits c u.1 u.2) := by
  obtain ⟨E, htrace, hE⟩ := exec_events h
  have hserial : serialTrace t =
      serialTrace s ++ serialFrom s.config.unitBits (lastApplied s.trace) E := by
    rw [serialTrace, htrace, (exec_framed h).config, serialFrom_append]
    rfl
  refine ⟨E, htrace, ?_⟩
  obtain ⟨c, rfl⟩ | ⟨hnone, rfl | hst⟩ := hE
  · exact ⟨fun _ => rfl, fun _ _ => hserial⟩
  · exact ⟨fun _ => rfl, fun _ _ => hserial⟩
  · obtain ⟨hsome, hlast⟩ := hs.1 hst
    refine ⟨fun hc => by simp [hc] at hsome, fun c hc => ?_⟩
    rw [hserial, hlast, hc, serialFrom_of_no_cfgApplied hnone]
    rfl

/-- What an operation does to the bit order: nothing, or it is an INIT that set its operand, or `CFG` is lost (R22, R27). -/
theorem exec_serialOrder {i : Instr} {s t : State} (h : exec i s = .next t) :
    serialOrder t = serialOrder s ∨
    (∃ m b w d, i = .init m b w d ∧ t.lastst = .ok ∧ serialOrder t = some b) ∨
    (serialOrder t = none ∧ (t.st = .failed ∨ t.st = .fatal)) := by
  obtain hkept | ⟨hinit, hok, -, -⟩ | ⟨hnone, hst⟩ := cfgWrittenOnlyByInit i s t h
  · exact .inl (congrArg (Option.map cfgBitOrder) hkept)
  · cases i with
    | init m b w d =>
      refine .inr (.inl ⟨m, b, w, d, rfl, hok, ?_⟩)
      rw [serialOrder, exec_init_ok h hok, Option.map_some, cfgBitOrder_initConfig]
    | _ => cases hinit
  · exact .inr (.inr ⟨congrArg (Option.map cfgBitOrder) hnone, hst⟩)

/-- Settles O55: the bits of a byte by `serialBits_getElem?`, an operation's units by `exec_serialTrace`, the order in force by
`exec_serialOrder`. -/
theorem wireOrderIsCfgBitOrder : Obligations.WireOrderIsCfgBitOrder := by
  refine ⟨fun s o hunit => ⟨fun c hc => ?_, fun hc => by simp [mosiBits, serialOrder, hc]⟩,
    fun i s t hs h => exec_serialTrace hs h, fun i s t h => exec_serialOrder h⟩
  refine ⟨serialBits 8 (cfgBitOrder c) o, by simp [mosiBits, serialOrder, hc, hunit], by simp [serialBits], ?_, fun k hk => ?_⟩
  · simp [misoByte, serialOrder, hc, hunit, fromSerialBits_serialBits]
  · rw [serialBits_getElem? hk, cfgBitOrder_eq_ofBool]
    cases c.getLsbD 21 <;> rfl

end Sys2Proof.Machine

/-! SUPPORT. A WRITE none of whose transactions fails, and what a second one sends (20_memory.md R66, 41_bus_transport.md R118). -/

namespace Sys2Proof.Machine

/-- `s` after a whole write of the bytes `o` from `BUF`, select still held (R118): they are on the wire and `BUF` holds their echoes;
`u` is the position of the draws for bytes without value. -/
def echoed (size : Nat) (s : State) (o : List Byte) (u : Nat) : State :=
  bufMoved s (wireUnits o (answers s 0 size)) size (chunkCount s.config.chunk size)
    (Memory.setRange s.buf 0 (answers s 0 size)) u

theorem txOutcome_echoed (size : Nat) (s : State) (o : List Byte) (u j : Nat) :
    txOutcome (echoed size s o u) j = txOutcome s (chunkCount s.config.chunk size + j) :=
  txOutcome_bufMoved ..

theorem answers_echoed (size : Nat) (s : State) (o : List Byte) (u off n : Nat) :
    answers (echoed size s o u) off n = answers s (size + off) n :=
  answers_bufMoved ..

/-- A write from `BUF` none of whose transactions fails (R118): every byte goes out in order, and the last chunk holds select or
releases it. -/
theorem sendBuffer_ok {size : Nat} {s : State} (hold : Bool) (hchunk : 1 ≤ s.config.chunk) (hsize : 1 ≤ size)
    (hok : PlatformOk s (chunkCount s.config.chunk size)) :
    ∃ o u, SentFrom s 0 size o ∧
      sendBuffer size hold s = .going (if hold then echoed size s o u else release (echoed size s o u)) [] := by
  have hcover := chunks_cover (size := size) hchunk
  obtain ⟨o, u, ho, hsend⟩ := sendChunks_ok (size := size) (k := 0) (left := chunkCount s.config.chunk size)
    (by rw [Nat.zero_add]; exact hcover) (fun j hj => by rw [Nat.zero_add]; exact chunk_starts hchunk hj) hok
  rw [Nat.zero_mul, Nat.sub_zero] at ho hsend
  obtain ⟨left, hleft⟩ : ∃ left, chunkCount s.config.chunk size = left + 1 :=
    Nat.exists_eq_succ_of_ne_zero fun h0 => by rw [h0] at hcover; omega
  refine ⟨o, u, ho, ?_⟩
  rw [sendBuffer, hleft, sendChunks_hold, ← hleft, hsend]
  rfl

/-- A WRITE none of whose transactions fails: its checks pass and it ends with ST_OK (R118, R174, R175). -/
theorem exec_write_ok {size : Nat} {s : State} (hold : Bool) (hchunk : 1 ≤ s.config.chunk) (hst : s.st = .opened)
    (hcs : s.cs = true) (hsize : 1 ≤ size) (hmax : size ≤ s.config.bufMax)
    (hok : PlatformOk s (chunkCount s.config.chunk size)) :
    ∃ o u, SentFrom s 0 size o ∧ exec (.write size hold) s =
      .next (finish .ok none (if hold then echoed size s o u else release (echoed size s o u))) := by
  obtain ⟨o, u, ho, hsend⟩ := sendBuffer_ok hold hchunk hsize hok
  refine ⟨o, u, ho, ?_⟩
  have hchecks : trafficFailure (some true) (sizeOk size s) s = none :=
    trafficFailure_none hst (by simp [hcs]) (by simp [sizeOk, hsize, hmax])
  simp only [exec, execWrite, checked, hchecks, hsend]
  rfl

/-- Where `BUF` holds the bytes `b` from index 0 on, they are what is sent. -/
theorem SentFrom.of_setRange {s : State} {m : List Host.Cell} {b o : List Byte} (h : SentFrom s 0 b.length o)
    (hbuf : s.buf = Memory.setRange m 0 b) : o = b := by
  obtain ⟨hlen, hsent⟩ := h
  apply List.ext_getElem hlen
  intro j hjo hj
  refine Option.some.inj ((List.getElem?_eq_getElem hjo).symm.trans (hsent j (b[j]) hj ?_))
  rw [hbuf, Memory.get_setRange, Nat.zero_add, if_pos (by omega), Nat.sub_zero, List.getElem?_eq_getElem hj]

/-- Settles O51: the first WRITE leaves its echoes in `BUF` (`exec_write_ok`), and they are what the second one sends. -/
theorem repeatedWriteSendsEchoes : Obligations.RepeatedWriteSendsEchoes := by
  intro size hold s hwf hst hcs hsize hmax hok
  obtain ⟨-, -, -, hchunk, -⟩ := hwf
  have hchunk : 1 ≤ s.config.chunk := by omega
  obtain ⟨o₁, u₁, -, hfirst⟩ := exec_write_ok true hchunk hst hcs hsize hmax fun j hj => hok j (by omega)
  let t := finish .ok none (echoed size s o₁ u₁)
  have hok₂ : PlatformOk t (chunkCount s.config.chunk size) := fun j hj =>
    (txOutcome_echoed size s o₁ u₁ j).trans (hok _ (by omega))
  obtain ⟨o₂, u₂, ho₂, hsecond⟩ := exec_write_ok (s := t) hold hchunk hst hcs hsize hmax hok₂
  have hsent : o₂ = answers s 0 size :=
    SentFrom.of_setRange (m := s.buf) (by rw [answers_length]; exact ho₂) rfl
  have htrace : (echoed size t o₂ u₂).trace = t.trace ++ wireUnits (answers s 0 size) (answers s size size) := by
    rw [← hsent]
    exact congrArg (t.trace ++ wireUnits o₂ ·) (answers_echoed size s o₁ u₁ 0 size)
  have hheld : (echoed size t o₂ u₂).cs = true := hcs
  refine ⟨t, _, hfirst, hsecond, ?_⟩
  cases hold with
  | true => simp [htrace]
  | false => simp [htrace, hheld]

end Sys2Proof.Machine

/-! SUPPORT. Register writes and reads none of whose transactions fails, and what the reference device answers to them
(42_register_protocol.md R150 to R152, 20_memory.md R64). -/

namespace Sys2Proof.Machine

/-! ### After an operation that ended with ST_OK -/

theorem finish_moved (s : State) (evs : List Event) (units txs : Nat) (r : Option HalfWord) :
    finish .ok r (moved s evs units txs) = completed s s.cs evs units txs r := by
  rw [finish, response_ok]
  rfl

theorem platformOk_completed {s : State} (cs : Bool) (evs : List Event) (units : Nat) {txs n : Nat} (r : Option HalfWord)
    (hok : PlatformOk s (txs + n)) : PlatformOk (completed s cs evs units txs r) n := fun j hj =>
  (txOutcome_moved s evs units txs j).trans (hok (txs + j) (by omega))

/-- What frames put on the wire depends on the draws alone. -/
theorem planEvents_of_env {s t : State} (h : s.env = t.env) (off : Nat) (p : Plan) :
    planEvents s off p = planEvents t off p := by
  induction p generalizing off with
  | nil => rfl
  | cons f p ih => simp only [planEvents, answers, h, ih]

theorem planEvents_completed (s : State) (cs : Bool) (evs : List Event) (units txs off : Nat) (r : Option HalfWord) (p : Plan) :
    planEvents (completed s cs evs units txs r) off p = planEvents s (units + off) p := by
  rw [← planEvents_moved s evs units txs]
  exact planEvents_of_env (t := moved s evs units txs) (by rfl) off p

theorem planEvents_append (s : State) (off : Nat) (p q : Plan) :
    planEvents s off (p ++ q) = planEvents s off p ++ planEvents s (off + planUnits p) q := by
  induction p generalizing off with
  | nil => rfl
  | cons f p ih => simp only [List.cons_append, planEvents, planUnits, ih, List.append_assoc, Nat.add_assoc]

/-- The first of several operations ends and the others go on from there (R60). -/
theorem runOps_cons {i : Instr} {is : List Instr} {s t : State} (h : exec i s = .next t) : runOps (i :: is) s = runOps is t := by
  simp only [runOps, h]

/-! ### The two frames of a register write and of a register read (R84) -/

/-- The frames of a register write (R150). -/
def writePlan (p : Config) (addr v : Byte) : Plan := [(p.selCW, [addr]), (p.selDW, [v])]

/-- The frames of a register read (R152). -/
def readPlan (p : Config) (addr : Byte) : Plan := [(p.selCW, [addr]), (p.selDR, [p.dummy])]

/-- Two frames with one byte of payload each, none of whose transactions fails: the answer is what the second payload received. -/
theorem twoFrames_ok {s : State} {sel₁ sel₂ a b : Byte} {k : State → List Byte → Flow} (hchunk : 1 ≤ s.config.chunk)
    (hcs : s.cs = false) (hok : PlatformOk s 4) (hk : ∀ t rcv, t.config = s.config → k t rcv = frame sel₂ [b] t) :
    (frame sel₁ [a] s).andThen k =
      .going (moved s (planEvents s 0 [(sel₁, [a]), (sel₂, [b])]) 4 4) (answers s 3 1) := by
  have hplan : (frame sel₁ [a] s).andThen k = sendPlan [(sel₁, [a]), (sel₂, [b])] [] s := by
    have hfirst := frame_ok (sel := sel₁) (pay := [a]) Nat.le.refl hchunk (hok 0 (by decide)) (hok 1 (by decide))
    rw [deselected hcs] at hfirst
    rw [sendPlan, hfirst, Flow.andThen, hk (moved _ _ _ _) _ rfl, Flow.andThen, sendPlan]
    cases frame sel₂ [b] _ <;> rfl
  have hfits : PlanFits s [(sel₁, [a]), (sel₂, [b])] := by simp [PlanFits, hchunk]
  exact hplan.trans (sendPlan_ok hcs hfits hok)

theorem registerWrite_ok {s : State} (addr v : Byte) (hchunk : 1 ≤ s.config.chunk) (hcs : s.cs = false)
    (hok : PlatformOk s 4) :
    registerWrite addr v s = .going (moved s (planEvents s 0 (writePlan s.config addr v)) 4 4) (answers s 3 1) :=
  twoFrames_ok hchunk hcs hok fun t _ ht => by rw [dataFrame, ht]

/-- A register read with select deasserted none of whose transactions fails: the result is the fourth byte received (R152). -/
theorem exec_rreg_ok {s : State} (addr : Byte) (hchunk : 1 ≤ s.config.chunk) (hst : s.st = .opened) (hcs : s.cs = false)
    (hok : PlatformOk s 4) :
    exec (.rreg addr) s = .next (completed s s.cs (planEvents s 0 (readPlan s.config addr)) 4 4
      (some (zext16 (s.env.misoByte (s.env.misoAt + 3))))) := by
  have hchecks : trafficFailure (some false) true s = none := trafficFailure_none hst (by simp [hcs]) rfl
  have hflow : (commandFrame addr s).andThen (fun s _ => readFrame s) =
      .going (moved s (planEvents s 0 (readPlan s.config addr)) 4 4) (answers s 3 1) :=
    twoFrames_ok hchunk hcs hok fun t _ ht => by rw [readFrame, ht]
  rw [← finish_moved]
  simp only [exec, execRreg, protocolOp, checked, hchecks, hflow]
  rfl

/-- A 16-bit register write with select deasserted none of whose transactions fails: two register writes (R151). -/
theorem exec_wreg16_ok {s : State} {addr : Byte} (v : HalfWord) (hchunk : 1 ≤ s.config.chunk) (hst : s.st = .opened)
    (hcs : s.cs = false) (haddr : addr ≠ 0xFF) (hok : PlatformOk s 8) :
    exec (.wreg16 addr v) s = .next (completed s s.cs (planEvents s 0
      (writePlan s.config addr (lo8 v) ++ writePlan s.config (nextAddr addr) (hi8 v))) 8 8 none) := by
  have hchecks : trafficFailure (some false) (decide (addr.toNat ≤ 0xFE)) s = none := by
    have hnext := nextAddr_toNat haddr
    have hlt := (nextAddr addr).isLt
    exact trafficFailure_none hst (by simp [hcs]) (by simp; omega)
  have hlow := registerWrite_ok addr (lo8 v) hchunk hcs fun j hj => hok j (by omega)
  have hhigh := registerWrite_ok (s := moved s (planEvents s 0 (writePlan s.config addr (lo8 v))) 4 4)
    (nextAddr addr) (hi8 v) hchunk hcs fun j hj => (txOutcome_moved ..).trans (hok _ (by omega))
  rw [← finish_moved, planEvents_append]
  simp only [exec, execWreg16, protocolOp, checked, hchecks, hlow, Flow.andThen, hhigh, Flow.close, moved_moved,
    planEvents_moved]
  rfl

/-! ### The reference device (R64) -/

/-- The first frame of a trace of frames with one byte of payload. -/
theorem frames_planEvents_cons (s : State) (off : Nat) (sel b : Byte) (p : Plan) :
    frames (planEvents s off ((sel, [b]) :: p)) =
      [(sel, s.env.misoByte (s.env.misoAt + off)), (b, s.env.misoByte (s.env.misoAt + (off + 1)))] ::
        frames (planEvents s (off + 2) p) := rfl

section Device

variable {p : Config} (hwf : p.wf)
include hwf

/-- The device tells a data frame from a command frame, and a read from a write (R9). -/
theorem selectors_ne : p.selDW ≠ p.selCW ∧ p.selDR ≠ p.selCW ∧ p.selDR ≠ p.selDW := by
  obtain ⟨hsel, -⟩ := hwf
  simp only [List.nodup_cons, List.mem_cons, List.not_mem_nil, not_or] at hsel
  obtain ⟨⟨-, hcwdw, hcwdr, -⟩, -, ⟨hdwdr, -⟩, -⟩ := hsel
  exact ⟨Ne.symm hcwdw, Ne.symm hcwdr, Ne.symm hdwdr⟩

/-- Through a register write the reference device remembers the address and the register's new value. -/
theorem produces_writePlan (d : RefDevice) (s : State) (off : Nat) (addr v : Byte) (q : Plan) :
    d.produces p (frames (planEvents s off (writePlan p addr v ++ q))) =
      RefDevice.produces p { d with ptr := some addr, reg := Memory.set d.reg addr.toNat v }
        (frames (planEvents s (off + 4) q)) := by
  obtain ⟨hdwcw, -, -⟩ := selectors_ne hwf
  simp [writePlan, frames_planEvents_cons, RefDevice.produces, RefDevice.onFrame, hdwcw]

/-- Through a register read the reference device answers the value it holds for the address. -/
theorem produces_readPlan {d : RefDevice} {s : State} {off : Nat} {addr : Byte} {q : Plan}
    (h : d.produces p (frames (planEvents s off (readPlan p addr ++ q))) = true) :
    Memory.get d.reg addr.toNat = some (s.env.misoByte (s.env.misoAt + (off + 3))) ∧
      RefDevice.produces p { d with ptr := some addr } (frames (planEvents s (off + 4) q)) = true := by
  obtain ⟨-, hdrcw, hdrdw⟩ := selectors_ne hwf
  cases hreg : Memory.get d.reg addr.toNat with
  | none => simp [readPlan, frames_planEvents_cons, RefDevice.produces, RefDevice.onFrame, hdrcw, hdrdw, hreg] at h
  | some b =>
    obtain ⟨hb, hq⟩ : s.env.misoByte (s.env.misoAt + (off + 3)) = b ∧
        RefDevice.produces p { d with ptr := some addr } (frames (planEvents s (off + 4) q)) = true := by
      simpa [readPlan, frames_planEvents_cons, RefDevice.produces, RefDevice.onFrame, hdrcw, hdrdw, hreg] using h
    exact ⟨congrArg some hb.symm, hq⟩

/-- A device that sees two registers written and then read answers what was written (R64). -/
theorem produces_readBack {d : RefDevice} {s : State} {a b v w : Byte} (hne : a.toNat ≠ b.toNat)
    (h : d.produces p (frames (planEvents s 0
      (writePlan p a v ++ (writePlan p b w ++ (readPlan p a ++ (readPlan p b ++ [])))))) = true) :
    s.env.misoByte (s.env.misoAt + 11) = v ∧ s.env.misoByte (s.env.misoAt + 15) = w := by
  rw [produces_writePlan hwf, produces_writePlan hwf] at h
  obtain ⟨hv, h⟩ := produces_readPlan hwf h
  obtain ⟨hw, -⟩ := produces_readPlan hwf h
  simp only [Memory.get_set, hne, if_true, if_false, Option.some.injEq] at hv hw
  exact ⟨hv.symm, hw.symm⟩

end Device

/-- Settles O52: each operation puts its frames on the wire (`exec_wreg16_ok`, `exec_rreg_ok`), and a reference device that answers
these frames answers the bytes written (`produces_readBack`). -/
theorem referenceDeviceReadsBackWrittenWord : Obligations.ReferenceDeviceReadsBackWrittenWord := by
  intro addr next hi lo d s hwf hst hcs haddr hnext hok
  have hchunk : 1 ≤ s.config.chunk := by
    obtain ⟨-, -, -, hchunk, -⟩ := hwf
    omega
  obtain rfl : next = nextAddr addr := BitVec.eq_of_toNat_eq (hnext.trans (nextAddr_toNat haddr).symm)
  have hwrite := exec_wreg16_ok (hi ++ lo) hchunk hst hcs haddr fun j hj => hok j (by omega)
  rw [lo8_append, hi8_append] at hwrite
  generalize hE₁ : planEvents s 0 (writePlan s.config addr lo ++ writePlan s.config (nextAddr addr) hi) = E₁ at hwrite
  let t₁ := completed s s.cs E₁ 8 8 none
  have hok₁ : PlatformOk t₁ 8 := platformOk_completed _ _ _ _ hok
  have hlow := exec_rreg_ok (s := t₁) addr hchunk hst hcs fun j hj => hok₁ j (by omega)
  generalize hE₂ : planEvents t₁ 0 (readPlan t₁.config addr) = E₂ at hlow
  let t₂ := completed t₁ t₁.cs E₂ 4 4 (some (zext16 (t₁.env.misoByte (t₁.env.misoAt + 3))))
  have hhigh := exec_rreg_ok (s := t₂) (nextAddr addr) hchunk hst hcs (platformOk_completed _ _ _ _ hok₁)
  generalize hE₃ : planEvents t₂ 0 (readPlan t₂.config (nextAddr addr)) = E₃ at hhigh
  have hframes : (s.trace ++ E₁ ++ E₂ ++ E₃).drop s.trace.length = planEvents s 0 (writePlan s.config addr lo ++
      (writePlan s.config (nextAddr addr) hi ++ (readPlan s.config addr ++ (readPlan s.config (nextAddr addr) ++ [])))) := by
    rw [← hE₁, ← hE₂, ← hE₃]
    simp only [t₁, t₂, planEvents_completed, List.append_assoc, List.drop_left, planEvents_append, List.append_nil]
    rfl
  refine ⟨t₂, _, (runOps_cons hwrite).trans (runOps_cons hlow), hhigh, fun hdev => ?_⟩
  obtain ⟨hlo, hhi⟩ := produces_readBack hwf (by omega) (hframes ▸ hdev)
  exact ⟨congrArg (fun b => some (zext16 b)) hlo, congrArg (fun b => some (zext16 b)) hhi⟩

end Sys2Proof.Machine

/-! SUPPORT. The decoder against the opcode table and against the encoder (30_encoding.md R86 to R93): a word decodes exactly when it
matches a row, and `decode` and `encode` are each other's inverse on legal words and well-formed operations. -/

namespace Sys2Proof

open Sys2Proof.Claims Sys2Proof.Machine

/-! ### The rows of the opcode table (R88, R91) -/

/-- The row of an opcode as mask and match: the opcode byte fixed, the must-be-zero bits of its format 0. -/
def Opcode.row (o : Opcode) : CmdWord × CmdWord :=
  (BitVec.allOnes 8 ++ o.format.mbz.setWidth 24, o.code ++ 0#24)

/-- The table written out from the spec has exactly the rows of the decoder's opcodes. -/
theorem opcodeRows_eq : opcodeRows = Opcode.all.map Opcode.row := by decide

theorem Opcode.mem_all (o : Opcode) : o ∈ Opcode.all := by
  cases o <;> decide

/-- No must-be-zero bit lies in the opcode byte (R86). -/
theorem CmdFormat.mbz_eq_append (f : CmdFormat) : f.mbz = 0#8 ++ f.mbz.setWidth 24 := by
  cases f <;> rfl

/-- Two words cut at the same place are equal when their parts are. -/
theorem append_eq_append_iff {m n : Nat} {a c : BitVec m} {b d : BitVec n} : a ++ b = c ++ d ↔ a = c ∧ b = d := by
  refine ⟨fun h => ⟨?_, ?_⟩, fun ⟨hac, hbd⟩ => hac ▸ hbd ▸ rfl⟩
  · simpa only [BitVec.extractLsb'_append_eq_left] using congrArg (BitVec.extractLsb' n m) h
  · simpa only [BitVec.extractLsb'_append_eq_right] using congrArg (BitVec.extractLsb' 0 n) h

/-- Matching a row is having its opcode and no must-be-zero bit set (R91, R93). -/
theorem Opcode.and_row_iff (o : Opcode) (w : CmdWord) :
    w &&& o.row.1 = o.row.2 ↔ w.extractLsb' 24 8 = o.code ∧ w &&& o.format.mbz = 0 := by
  have hw : w.extractLsb' 24 8 ++ w.extractLsb' 0 24 = w :=
    BitVec.extractLsb'_append_extractLsb' (w := 8) (len := 24)
  generalize w.extractLsb' 24 8 = op at hw ⊢
  generalize w.extractLsb' 0 24 = low at hw
  subst hw
  have hmask : (op ++ low) &&& o.row.1 = op ++ (low &&& o.format.mbz.setWidth 24) := by
    rw [Opcode.row, BitVec.and_append, BitVec.and_allOnes]
  have hmbz : (op ++ low) &&& o.format.mbz = 0#8 ++ (low &&& o.format.mbz.setWidth 24) :=
    (congrArg ((op ++ low) &&& ·) o.format.mbz_eq_append).trans (by rw [BitVec.and_append, BitVec.and_zero])
  rw [hmask, hmbz, show (0 : CmdWord) = 0#8 ++ 0#24 from rfl, BitVec.append_right_inj]
  exact append_eq_append_iff

theorem legalWord_iff {w : CmdWord} : legalWord w ↔ ∃ o : Opcode, w &&& o.row.1 = o.row.2 := by
  simp [legalWord, opcodeRows_eq, Opcode.mem_all]

/-- A word decodes exactly when it matches a row (R91, R93). -/
theorem exists_decode_eq_ok_iff {w : CmdWord} : (∃ i, decode w = .ok i) ↔ legalWord w := by
  rw [legalWord_iff]
  constructor
  · rintro ⟨i, h⟩
    obtain ⟨o, hcode, hmbz, -⟩ := decode_eq_ok h
    exact ⟨o, (o.and_row_iff w).2 ⟨hcode, hmbz⟩⟩
  · rintro ⟨o, h⟩
    obtain ⟨hcode, hmbz⟩ := (o.and_row_iff w).1 h
    exact ⟨o.build w, decode_ok hcode hmbz⟩

theorem exists_decode_eq_error_iff {w : CmdWord} : (∃ e, decode w = .error e) ↔ ¬ legalWord w := by
  rw [← exists_decode_eq_ok_iff]
  cases decode w <;> simp

/-! ### Decoding what was encoded -/

/-- The opcode of an operation (R88, R92). -/
def Instr.opcode : Instr → Opcode
  | .init _ _ _ _ => .init
  | .beginFrame => .beginFrame
  | .endFrame => .endFrame
  | .write _ _ => .write
  | .xferb _ => .xferb
  | .xferw _ => .xferw
  | .wcmd _ => .wcmd
  | .wdata _ => .wdata
  | .wdatan _ => .wdatan
  | .wdataw _ => .wdataw
  | .rdata => .rdata
  | .rstatus => .rstatus
  | .wreg _ _ => .wreg
  | .wreg16 _ _ => .wreg16
  | .rreg _ => .rreg

theorem Instr.opcode_row (i : Instr) : i.opcode.row = (Laws.Encoding.rowMask i, Laws.Encoding.rowMatch i) := by
  cases i <;> simp only [Instr.opcode, Laws.Encoding.rowMask, Laws.Encoding.rowMatch] <;> rfl

/-- The encoder writes a word of the operation's own row. -/
theorem encode_matches_row : ∀ i : Instr, Laws.Encoding.Statement i
  | .init mode bitOrder wordSize clockDivider => Laws.Encoding.init mode bitOrder wordSize clockDivider
  | .beginFrame => Laws.Encoding.beginFrame
  | .endFrame => Laws.Encoding.endFrame
  | .write size hold => Laws.Encoding.write size hold
  | .xferb b => Laws.Encoding.xferb b
  | .xferw w => Laws.Encoding.xferw w
  | .wcmd addr => Laws.Encoding.wcmd addr
  | .wdata v => Laws.Encoding.wdata v
  | .wdatan n => Laws.Encoding.wdatan n
  | .wdataw w => Laws.Encoding.wdataw w
  | .rdata => Laws.Encoding.rdata
  | .rstatus => Laws.Encoding.rstatus
  | .wreg addr v => Laws.Encoding.wreg addr v
  | .wreg16 addr v16 => Laws.Encoding.wreg16 addr v16
  | .rreg addr => Laws.Encoding.rreg addr

/-- A field between the higher bits and the lower ones. -/
theorem extractLsb'_append_middle {a b c : Nat} (x : BitVec a) (y : BitVec b) (z : BitVec c) :
    (x ++ y ++ z).extractLsb' c b = y :=
  calc (x ++ y ++ z).extractLsb' c b
    _ = (x ++ y).extractLsb' (c - c) b := BitVec.extractLsb'_append_eq_of_le Nat.le.refl
    _ = y := by rw [Nat.sub_self, BitVec.extractLsb'_append_eq_right]

/-- One bit as a field of its own. -/
theorem ofBool_getLsbD {n : Nat} (w : BitVec n) (k : Nat) : BitVec.ofBool (w.getLsbD k) = w.extractLsb' k 1 := by
  apply BitVec.eq_of_getLsbD_eq
  intro j hj
  simp [Nat.lt_one_iff.1 hj]

/-- The counts of WRITE and WDATAN fit their field (R86). -/
theorem toNat_count_field {a n : Nat} (h : n < 2 ^ 23) (x : BitVec a) :
    ((x ++ BitVec.ofNat 23 n).extractLsb' 0 23).toNat = n := by
  rw [BitVec.extractLsb'_append_eq_right, BitVec.toNat_ofNat, Nat.mod_eq_of_lt h]

/-- The decoder reads every operand from the field the encoder puts it in (R86, R87). -/
theorem build_encode {i : Instr} (h : i.wellFormed = true) : i.opcode.build (encode i) = i := by
  cases i with
  | init mode bitOrder wordSize clockDivider =>
    have hmode : (0x01#8 ++ mode ++ bitOrder ++ wordSize ++ clockDivider).extractLsb' 22 2 = mode :=
      (BitVec.extractLsb'_append_eq_of_le (by decide)).trans <|
        (BitVec.extractLsb'_append_eq_of_le (by decide)).trans (extractLsb'_append_middle 0x01#8 mode bitOrder)
    have horder : (0x01#8 ++ mode ++ bitOrder ++ wordSize ++ clockDivider).extractLsb' 21 1 = bitOrder :=
      (BitVec.extractLsb'_append_eq_of_le (by decide)).trans (extractLsb'_append_middle (0x01#8 ++ mode) bitOrder wordSize)
    exact congr (congr (congrArg₂ Instr.init hmode horder)
      (extractLsb'_append_middle (0x01#8 ++ mode ++ bitOrder) wordSize clockDivider)) BitVec.extractLsb'_append_eq_right
  | beginFrame | endFrame | rdata | rstatus => rfl
  | write size hold =>
    have hhold : (0x04#8 ++ BitVec.ofBool hold ++ BitVec.ofNat 23 size).getLsbD 23 = hold :=
      BitVec.ofBool_eq_iff_eq.1 ((ofBool_getLsbD _ 23).trans (extractLsb'_append_middle 0x04#8 _ _))
    exact congrArg₂ Instr.write (toNat_count_field (of_decide_eq_true h) (0x04#8 ++ BitVec.ofBool hold)) hhold
  | xferb b => exact congrArg Instr.xferb BitVec.extractLsb'_append_eq_right
  | xferw w => exact congrArg Instr.xferw BitVec.extractLsb'_append_eq_right
  | wcmd addr => exact congrArg Instr.wcmd BitVec.extractLsb'_append_eq_right
  | wdata v => exact congrArg Instr.wdata BitVec.extractLsb'_append_eq_right
  | wdatan n => exact congrArg Instr.wdatan (toNat_count_field (of_decide_eq_true h) (0x12#8 ++ 0#1))
  | wdataw w => exact congrArg Instr.wdataw BitVec.extractLsb'_append_eq_right
  | wreg addr v =>
    exact congrArg₂ Instr.wreg (extractLsb'_append_middle (0x18#8 ++ 0#8) addr v) BitVec.extractLsb'_append_eq_right
  | wreg16 addr v16 =>
    exact congrArg₂ Instr.wreg16 (extractLsb'_append_middle 0x19#8 addr v16) BitVec.extractLsb'_append_eq_right
  | rreg addr => exact congrArg Instr.rreg BitVec.extractLsb'_append_eq_right

/-- Settles O2: the word is in its operation's row by `encode_matches_row`, and its fields are the operands by `build_encode`. -/
theorem decodeOfEncodeIsIdentity : Obligations.DecodeOfEncodeIsIdentity := by
  intro i h
  have hrow : encode i &&& i.opcode.row.1 = i.opcode.row.2 := by
    rw [i.opcode_row]
    exact encode_matches_row i h
  obtain ⟨hcode, hmbz⟩ := (i.opcode.and_row_iff (encode i)).1 hrow
  rw [decode_ok hcode hmbz, build_encode h]

/-! ### Encoding what was decoded -/

/-- A must-be-zero field of a word whose must-be-zero bits are all 0 (R86). -/
theorem extractLsb'_eq_zero_of_mbz {w m : CmdWord} {start len : Nat} (h : w &&& m = 0#32)
    (hm : m.extractLsb' start len = BitVec.allOnes len) : w.extractLsb' start len = 0#len := by
  have hfield := congrArg (BitVec.extractLsb' start len) h
  rwa [BitVec.extractLsb'_and, hm, BitVec.and_allOnes, BitVec.extractLsb'_zero] at hfield

theorem ofNat_toNat_self {n : Nat} (x : BitVec n) : BitVec.ofNat n x.toNat = x := by
  rw [BitVec.ofNat_toNat, BitVec.setWidth_eq]

/-- Three fields next to each other make up the word. -/
theorem append_fields {a b c : Nat} {w : BitVec (a + b + c)} {x : BitVec a} {y : BitVec b} {z : BitVec c}
    (hx : w.extractLsb' (c + b) a = x) (hy : w.extractLsb' c b = y) (hz : w.extractLsb' 0 c = z) : x ++ y ++ z = w := by
  rw [← hx, ← hy, ← hz, BitVec.extractLsb'_append_extractLsb'_eq_extractLsb' rfl, BitVec.extractLsb'_append_extractLsb']

/-- The encoder puts every field back where the decoder read it, and the bits it writes as zero were must-be-zero (R86, R88). -/
theorem encode_build {o : Opcode} {w : CmdWord} (hcode : w.extractLsb' 24 8 = o.code) (hmbz : w &&& o.format.mbz = 0) :
    encode (o.build w) = w := by
  have zeroField : ∀ start len, o.format.mbz.extractLsb' start len = BitVec.allOnes len → w.extractLsb' start len = 0#len :=
    fun _ _ => extractLsb'_eq_zero_of_mbz hmbz
  cases o with
  | init =>
    have hmode : 0x01#8 ++ w.extractLsb' 22 2 = w.extractLsb' 22 10 :=
      (congrArg (· ++ w.extractLsb' 22 2) hcode).symm.trans (BitVec.extractLsb'_append_extractLsb'_eq_extractLsb' rfl)
    have horder : 0x01#8 ++ w.extractLsb' 22 2 ++ w.extractLsb' 21 1 = w.extractLsb' 21 11 :=
      (congrArg (· ++ w.extractLsb' 21 1) hmode).trans (BitVec.extractLsb'_append_extractLsb'_eq_extractLsb' rfl)
    exact append_fields (a := 11) (b := 5) (c := 16) horder.symm rfl rfl
  | beginFrame | endFrame | rdata | rstatus =>
    exact (congrArg₂ (· ++ ·) hcode (zeroField 0 24 rfl)).symm.trans BitVec.extractLsb'_append_extractLsb'
  | write => exact append_fields (a := 8) (b := 1) (c := 23) hcode (ofBool_getLsbD w 23).symm (ofNat_toNat_self _).symm
  | xferb | wcmd | wdata | rreg => exact append_fields (a := 8) (b := 16) (c := 8) hcode (zeroField 8 16 rfl) rfl
  | xferw | wdataw => exact append_fields (a := 8) (b := 8) (c := 16) hcode (zeroField 16 8 rfl) rfl
  | wdatan => exact append_fields (a := 8) (b := 1) (c := 23) hcode (zeroField 23 1 rfl) (ofNat_toNat_self _).symm
  | wreg =>
    have hop : 0x18#8 ++ 0#8 = w.extractLsb' 16 16 :=
      (congrArg₂ (· ++ ·) hcode (zeroField 16 8 rfl)).symm.trans (BitVec.extractLsb'_append_extractLsb'_eq_extractLsb' rfl)
    exact append_fields (a := 16) (b := 8) (c := 8) hop.symm rfl rfl
  | wreg16 => exact append_fields (a := 8) (b := 8) (c := 16) hcode rfl rfl

/-- The operation a word decodes to has counts that fit their field (R86). -/
theorem wellFormed_build (o : Opcode) (w : CmdWord) : (o.build w).wellFormed = true := by
  cases o with
  | write | wdatan => exact decide_eq_true (w.extractLsb' 0 23).isLt
  | _ => rfl

/-- Settles O3: what a word decodes to is read from its fields, and `encode_build` puts them back. -/
theorem encodeOfDecodeIsIdentity : Obligations.EncodeOfDecodeIsIdentity := by
  intro w i h
  obtain ⟨o, hcode, hmbz, rfl⟩ := decode_eq_ok h
  exact ⟨wellFormed_build o w, encode_build hcode hmbz⟩

/-! ### Illegal words (R91, R173) -/

/-- An illegal command word next: it is refused with ST_ERRCMD before any state is looked at (R91, R173). -/
theorem step_of_illegal {s : State} {w : CmdWord} {e : Illegal} {rest : List HostAction} (hseq : s.seq = .idle)
    (hhost : s.host = .command w :: rest) (hw : decode w = .error e) :
    step s = .next (refusedWith .errCmd { s with host := rest }) := by
  rw [step_idle hseq]
  simp only [hostAction, hhost, command, hw, refuse_refusedWith]

/-- Settles O4: legality by `exists_decode_eq_error_iff`, the step by `step_of_illegal`. -/
theorem illegalWordRefusedInEveryState : Obligations.IllegalWordRefusedInEveryState := by
  refine ⟨fun w => exists_decode_eq_error_iff, by unfold legalWord; decide, fun s w rest hseq hhost hw => ?_⟩
  obtain ⟨e, he⟩ := exists_decode_eq_error_iff.2 hw
  rw [step_of_illegal hseq hhost he, refusedWith, ← hseq]
  rfl

/-- Settles O1, word by word: five of the illegal ones have a reserved opcode, the other five a must-be-zero bit set. -/
theorem specWordsDecode : Obligations.SpecWordsDecode := by
  refine ⟨rfl, rfl, rfl, rfl, rfl, rfl, rfl, rfl, rfl, rfl, rfl, rfl, rfl, rfl, rfl, rfl, rfl, ?_⟩
  simp only [List.forall_mem_cons]
  exact ⟨⟨.reservedOpcode 0x00, rfl⟩, ⟨.reservedOpcode 0x07, rfl⟩, ⟨.reservedOpcode 0x16, rfl⟩, ⟨.reservedOpcode 0x1B, rfl⟩,
    ⟨.reservedOpcode 0xFF, rfl⟩, ⟨.mbzSet .beginFrame, rfl⟩, ⟨.mbzSet .wcmd, rfl⟩, ⟨.mbzSet .wdatan, rfl⟩,
    ⟨.mbzSet .wreg, rfl⟩, ⟨.mbzSet .xferw, rfl⟩, nofun⟩

end Sys2Proof

/-! SUPPORT. The response word of a command word, legal or not (30_encoding.md R90, 60_exceptions.md R170). -/

namespace Sys2Proof.Machine

open Sys2Proof.Claims

/-! ### The response of an operation -/

/-- An INIT past its checks ends with ST_OK or ST_INITFAIL, and has no result (R113). -/
theorem runInit_response (c : BusConfig) (s : State) :
    (runInit c s).lastst ∈ [Status.ok, .initFail] ∧
      (runInit c s).rsps = s.rsps ++ [response (runInit c s).lastst none] := by
  obtain ⟨-, -, e⟩ | ⟨-, e⟩ := runInit_cases c s <;> rw [e]
  · exact ⟨.head _, rfl⟩
  · exact ⟨.tail _ (.head _), rfl⟩

/-- INIT has no argument check (R113, R175). -/
theorem initFailure_some {s : State} {c : Status} (h : initFailure s = some c) :
    c ∈ [Status.errDead, .errState, .errSeq] := by
  unfold initFailure firstFailure at h
  split_ifs at h <;> simp_all

/-- How an INIT can end: it succeeds, it fails, or its checks refuse it (R113, R174, R175). -/
theorem exec_init_lastst {m : BitVec 2} {b : BitVec 1} {d : BitVec 5} {c : BitVec 16} {s t : State}
    (h : exec (.init m b d c) s = .next t) : t.lastst ∈ [Status.ok, .initFail, .errDead, .errState, .errSeq] := by
  cases h
  obtain ⟨c', hc, e⟩ | ⟨-, e⟩ := checked_cases (f := initFailure s) (run := runInit (initConfig m b d c)) (s := s) <;> rw [e]
  · exact List.mem_append_right [Status.ok, .initFail] (initFailure_some hc)
  · exact List.mem_append_left [Status.errDead, .errState, .errSeq] (runInit_response _ s).1

/-- An operation without result, or one that does not end with ST_OK, has no result in its response. -/
theorem exec_response_none {i : Instr} {s t : State} (h : exec i s = .next t) (hno : t.lastst ≠ .ok ∨ hasResult i = false) :
    t.rsps = s.rsps ++ [response t.lastst none] := by
  obtain ⟨t', e, hcases⟩ := exec_cases i s
  cases e.symm.trans h
  obtain ⟨c, -, rfl⟩ | ⟨m, b, w, d, -, -, -, rfl⟩ | ⟨-, -, -, -, u, hu, hend⟩ := hcases
  · rfl
  · exact (runInit_response _ s).2
  · obtain ⟨r, hr, -, rfl⟩ | ⟨-, rfl⟩ := hend
    · have hnone : r = none := by
        obtain hok | hres := hno
        · exact absurd rfl hok
        · rwa [hres, Option.isSome_eq_false_iff, Option.isNone_iff_eq_none] at hr
      rw [hnone, finish_rsps, hu.rsps, finish_lastst]
    · rw [fatalEntry_rsps, hu.rsps, fatalEntry_lastst]

/-- What a command word answers (R90): one response with the status in `LASTST`, and the result where there is one. -/
theorem command_response {w : CmdWord} {s t : State} (h : command w s = .next t) :
    ∃ result : Option HalfWord, t.rsps = s.rsps ++ [response t.lastst result] ∧
      (∀ i, decode w = .ok i → t.lastst = .ok → hasResult i = true → t.result = some (result.getD 0)) ∧
      ((t.lastst ≠ .ok ∨ ∀ i, decode w = .ok i → hasResult i = false) → result = none) := by
  obtain ⟨i, hd, hi⟩ | ⟨e, hd, rfl⟩ := command_cases h
  · rw [hd]
    obtain ⟨hok, hres, v, hv, hrsp⟩ | ⟨hno, -⟩ := exec_result hi
    · refine ⟨some v, by rw [hok]; exact hrsp, fun _ _ _ _ => hv, fun hno => ?_⟩
      obtain hno | hno := hno
      · exact absurd hok hno
      · exact absurd (hno i rfl) (by simp [hres])
    · refine ⟨none, exec_response_none (s := { s with seq := .running i }) hi hno, fun j hj hok hres => ?_, fun _ => rfl⟩
      cases hj
      simp [hok, hres] at hno
  · exact ⟨none, rfl, fun i hi => (nomatch hd.symm.trans hi), fun _ => rfl⟩

/-- Settles O31: the word is a response by `command_response`, its fields by the laws of `response`, INIT by `exec_init_lastst`. -/
theorem oneResponseWordPerOperation : Obligations.OneResponseWordPerOperation := by
  intro w s
  obtain ⟨t, h⟩ := command_next w s
  obtain ⟨result, hrsp, hsome, hnone⟩ := command_response h
  refine ⟨t, response t.lastst result, h, hrsp, (response_code _ _).trans (code_eq_codeNumber _), code_eq_codeNumber _,
    response_zero _ _, fun i hd hok hres => ?_, fun hno => ?_, fun m b d c hd => ?_⟩
  · rw [response_result]
    exact hsome i hd hok hres
  · rw [response_result, hnone hno]
    rfl
  · obtain ⟨i, hi, hexec⟩ | ⟨e, he, -⟩ := command_cases h
    · cases hd.symm.trans hi
      exact exec_init_lastst hexec
    · cases hd.symm.trans he

end Sys2Proof.Machine

/-! SUPPORT. The checks of an operation one by one (60_exceptions.md R174, R175, R178), and the operations that exchange no unit:
INIT, BEGIN and END (41_bus_transport.md R113, R116, R117). -/

namespace Sys2Proof.Machine

/-! ### The checks (R174, R175, R178) -/

/-- A dead channel is refused before anything else is looked at. -/
theorem firstFailure_of_fatal {l a : Bool} {needCs : Option Bool} {s : State} (hst : s.st = .fatal) :
    firstFailure l needCs a s = some .errDead := if_pos hst

theorem firstFailure_of_lifecycle {a : Bool} {needCs : Option Bool} {s : State} (hst : s.st ≠ .fatal) :
    firstFailure false needCs a s = some .errState := by
  simp [firstFailure, hst]

theorem firstFailure_of_cs {a : Bool} {needCs : Option Bool} {s : State} (hst : s.st ≠ .fatal)
    (hcs : needCs = some (!s.cs)) : firstFailure true needCs a s = some .errSeq := by
  simp [firstFailure, hst, csCheck_iff.2 hcs]

theorem firstFailure_of_args {needCs : Option Bool} {s : State} (hst : s.st ≠ .fatal) (hcs : needCs ≠ some (!s.cs)) :
    firstFailure true needCs false s = some .errArg := by
  have hlevel : needCs.any (· != s.cs) = false := Bool.eq_false_iff.2 fun h => hcs (csCheck_iff.1 h)
  simp [firstFailure, hst, hlevel]

/-- An operation one of whose checks fails is refused with that check's status (R172). -/
theorem checked_of_failure {f : Option Status} {c : Status} {run : State → State} {s : State} (hf : f = some c) :
    checked f run s = refusedWith c s := by
  subst hf
  exact refuse_refusedWith c s

/-- The checks of every operation but INIT. -/
theorem checksInOrder_of_exec {i : Instr} {needCs : Option Bool} {argsOk : State → Bool} {run : State → State}
    (hexec : ∀ s, exec i s = .next (checked (trafficFailure needCs (argsOk s) s) run s)) :
    ChecksInOrder i needCs argsOk := by
  intro s
  have refused {c : Status} (hf : trafficFailure needCs (argsOk s) s = some c) : exec i s = .next (refusedWith c s) :=
    (hexec s).trans (congrArg _ (checked_of_failure hf))
  refine ⟨fun hst => refused (firstFailure_of_fatal hst), fun hst => refused ?_, fun hst hcs => refused ?_,
    fun hst hcs hargs => refused ?_⟩
  · obtain hst | hst := hst <;> rw [trafficFailure, hst] <;> exact firstFailure_of_lifecycle (by simp [hst])
  · rw [trafficFailure, hst]
    exact firstFailure_of_cs (by simp [hst]) hcs
  · rw [trafficFailure, hst, hargs]
    exact firstFailure_of_args (by simp [hst]) hcs

/-- An operation that needs an open channel runs where its row of R174 and R175 holds. -/
theorem checked_of_traffic {needCs : Option Bool} {argsOk : Bool} {run : State → State} {s : State} (hst : s.st = .opened)
    (hcs : needCs ≠ some (!s.cs)) (hargs : argsOk = true) : checked (trafficFailure needCs argsOk s) run s = run s := by
  rw [trafficFailure_none hst hcs hargs]
  rfl

/-! ### INIT (R113) -/

/-- Settles O13: the checks one by one, the two outcomes by `runInit_cases`. -/
theorem initAppliesConfigOrFails : Obligations.InitAppliesConfigOrFails := by
  refine ⟨fun m b w d => decodeOfEncodeIsIdentity (.init m b w d) rfl, fun m b w d s => ?_⟩
  have refused {c : Status} (hf : initFailure s = some c) : exec (.init m b w d) s = .next (refusedWith c s) :=
    congrArg Host.Outcome.next (checked_of_failure hf)
  refine ⟨fun hst => refused (firstFailure_of_fatal hst), fun hst => refused ?_, fun hst hcs => refused ?_,
    fun hst hcs => ⟨fun hdraw hlegal => ?_, fun hfail => ?_⟩⟩
  · rw [initFailure, hst]
    exact firstFailure_of_lifecycle (by simp [hst])
  · obtain hst | hst := hst <;> rw [initFailure, hst] <;> exact firstFailure_of_cs (by simp [hst]) (by rw [hcs]; rfl)
  · have hlegal : legal s.config (initConfig m b w d) = true := hlegal
    rw [exec_init_of_checks m b w d hst hcs]
    obtain ⟨-, -, e⟩ | ⟨hno, -⟩ := runInit_cases (initConfig m b w d) s
    · rw [e]
      rfl
    · simp [hdraw, hlegal] at hno
  · have hfail : s.env.initDraw s.env.initAt = false ∨ legal s.config (initConfig m b w d) = false := hfail
    rw [exec_init_of_checks m b w d hst hcs]
    obtain ⟨hdraw, hlegal, -⟩ | ⟨-, e⟩ := runInit_cases (initConfig m b w d) s
    · simp [hdraw, hlegal] at hfail
    · rw [e]
      rfl

/-! ### BEGIN and END (R116, R117) -/

theorem exec_begin_of_checks {s : State} (hst : s.st = .opened) (hcs : s.cs = false) :
    exec .beginFrame s = .next (ret (select s)) :=
  congrArg Host.Outcome.next (checked_of_traffic hst (by simp [hcs]) rfl)

theorem exec_end_of_checks {s : State} (hst : s.st = .opened) : exec .endFrame s = .next (ret (release s)) :=
  congrArg Host.Outcome.next (checked_of_traffic hst nofun rfl)

/-- Settles O16: the checks by `checksInOrder_of_exec`; the END after it finds select asserted and releases it. -/
theorem beginAssertsChipSelect : Obligations.BeginAssertsChipSelect := by
  refine ⟨rfl, checksInOrder_of_exec fun _ => rfl, fun s hst hcs => ?_⟩
  have hbegin := exec_begin_of_checks hst hcs
  have hend : exec .endFrame (ret (select s)) = .next (ret (release (ret (select s)))) := exec_end_of_checks hst
  exact ⟨hbegin, _, (runOps_cons hbegin).trans (runOps_cons hend), by simp, by simp⟩

/-- Settles O17: the checks by `checksInOrder_of_exec`, the two levels of `CS` by `release_moved` and `release_idle`. -/
theorem endReleasesChipSelect : Obligations.EndReleasesChipSelect := by
  refine ⟨rfl, checksInOrder_of_exec fun _ => rfl, fun s hst => ⟨fun hcs => ?_, fun hcs => ?_⟩⟩
  · rw [exec_end_of_checks hst, release_moved hcs]
    rfl
  · rw [exec_end_of_checks hst, release_idle hcs]
    rfl

end Sys2Proof.Machine

/-! SUPPORT. The operations that are one transaction with select held: XFERB and XFERW (41_bus_transport.md R119, R120). -/

namespace Sys2Proof.Machine

/-! ### One transaction with select held -/

/-- The answers to the units of a transaction cut after `p` of them. -/
theorem answers_take (s : State) (off n p : Nat) : (answers s off n).take p = answers s off (min p n) := by
  rw [answers, answers, ← List.map_take]
  obtain h | h := Nat.le_total p n
  · rw [List.take_range'_of_length_ge h, Nat.min_eq_left h]
  · rw [List.take_range'_of_length_le h, Nat.min_eq_right h]

/-- The units of a transaction cut after `p` of them (R112). -/
theorem wireUnits_take (s : State) (o : List Byte) (p : Nat) :
    wireUnits (o.take p) (answers s 0 (min p o.length)) = (wireUnits o (answers s 0 o.length)).take p := by
  rw [wireUnits, wireUnits, List.take_zipWith, answers_take]

/-- A transaction that succeeds, with the value `v` it returns (R112, R171). -/
theorem close_transfer_ok {o : List Byte} {s : State} (v : State → List Byte → HalfWord) (hcs : s.cs = true)
    (h : txOutcome s 0 = .ok) :
    (transfer o s).close (fun s rcv => retValue (v s rcv) s) =
      completed s true (wireUnits o (answers s 0 o.length)) o.length 1
        (some (v (moved s (wireUnits o (answers s 0 o.length)) o.length 1) (answers s 0 o.length))) := by
  rw [transfer_ok h, Flow.close, retValue_eq, finish_moved, hcs]

/-- A transaction that fails after `p` of its units ends in the fatal entry (R112, R176). -/
theorem close_transfer_fail {o : List Byte} {s : State} {p : Nat} (k : State → List Byte → State) (hcs : s.cs = true)
    (h : txOutcome s 0 = .fail p) :
    (transfer o s).close k =
      died s ((wireUnits o (answers s 0 o.length)).take p ++ [.csr]) (min p o.length) 1 := by
  rw [transfer_fail h, Flow.close, fatalEntry_moved hcs, List.length_take, wireUnits_take]

/-! ### XFERB (R119) -/

theorem exec_xferb_of_checks {s : State} (b : Byte) (hst : s.st = .opened) (hcs : s.cs = true) :
    exec (.xferb b) s = .next ((transfer [b] s).close fun s rcv => retValue (byteResult rcv) s) :=
  congrArg Host.Outcome.next (checked_of_traffic hst (by simp [hcs]) rfl)

theorem exec_xferb_ok {s : State} (b : Byte) (hst : s.st = .opened) (hcs : s.cs = true) (h : txOutcome s 0 = .ok) :
    exec (.xferb b) s = .next (completed s true [.x b (s.env.misoByte s.env.misoAt)] 1 1
      (some (zext16 (s.env.misoByte s.env.misoAt)))) :=
  (exec_xferb_of_checks b hst hcs).trans
    (congrArg Host.Outcome.next (close_transfer_ok (o := [b]) (fun _ rcv => byteResult rcv) hcs h))

/-- Settles O19: the two outcomes by `close_transfer_ok` and `close_transfer_fail`. -/
theorem xferbExchangesOneByte : Obligations.XferbExchangesOneByte := by
  intro b
  refine ⟨decodeOfEncodeIsIdentity (.xferb b) rfl, checksInOrder_of_exec fun _ => rfl,
    fun s hst hcs => ⟨exec_xferb_ok b hst hcs, fun p h => ?_⟩⟩
  rw [exec_xferb_of_checks b hst hcs, close_transfer_fail _ hcs h]
  cases p <;> simp [wireUnits, answers_succ, answers_zero]

/-! ### XFERW (R120) -/

theorem exec_xferw_of_checks {s : State} (w : HalfWord) (hst : s.st = .opened) (hcs : s.cs = true) :
    exec (.xferw w) s =
      .next ((transfer (wordUnits s.config w) s).close fun s rcv => retValue (wordResult s.config rcv) s) :=
  congrArg Host.Outcome.next (checked_of_traffic hst (by simp [hcs]) rfl)

/-- Two XFERB put both bytes on the wire, in the order they are issued. -/
theorem runOps_xferb_xferb {s : State} (a b : Byte) (hst : s.st = .opened) (hcs : s.cs = true) (hok : PlatformOk s 2) :
    ∃ t, runOps [.xferb a, .xferb b] s = .next t ∧
      t.trace = s.trace ++ [.x a (s.env.misoByte s.env.misoAt), .x b (s.env.misoByte (s.env.misoAt + 1))] := by
  have hfirst := exec_xferb_ok a hst hcs (hok 0 (by decide))
  have hsecond := exec_xferb_ok b (s := completed s true [.x a (s.env.misoByte s.env.misoAt)] 1 1
    (some (zext16 (s.env.misoByte s.env.misoAt)))) hst rfl (platformOk_completed (n := 1) _ _ _ _ hok 0 (by decide))
  exact ⟨_, (runOps_cons hfirst).trans (runOps_cons hsecond), List.append_assoc ..⟩

/-- A word as XFERW's command word has it: its two bytes next to each other. -/
theorem encode_xferw_append (hi lo : Byte) : encode (.xferw (hi ++ lo)) = (0x06#8 ++ 0#8 ++ hi ++ lo : BitVec 32) :=
  (BitVec.append_assoc (x₁ := 0x06#8 ++ 0#8) (x₂ := hi) (x₃ := lo)).symm

/-- Settles O20: the word's two bytes by `wordUnits_append`, the result by `wordResult_pair`, the outcomes as for XFERB. -/
theorem xferwExchangesWordHighByteFirst : Obligations.XferwExchangesWordHighByteFirst := by
  intro hi lo
  refine ⟨?_, checksInOrder_of_exec fun _ => rfl, fun s hwf hst hcs first second horder => ?_⟩
  · rw [← encode_xferw_append]
    exact decodeOfEncodeIsIdentity (.xferw (hi ++ lo)) rfl
  · obtain ⟨-, -, -, -, hword, hunit, -⟩ := hwf
    have hunits : wordUnits s.config (hi ++ lo) = [first, second] := by
      rw [wordUnits_append hword hunit]
      split_ifs at horder ⊢ <;> cases horder <;> rfl
    have hexec := exec_xferw_of_checks (hi ++ lo) hst hcs
    rw [hunits] at hexec
    refine ⟨fun h => ?_, fun p h => ?_, runOps_xferb_xferb first second hst hcs⟩
    · rw [hexec, close_transfer_ok (fun s rcv => wordResult s.config rcv) hcs h]
      exact congrArg (fun r => Host.Outcome.next (completed s true _ 2 1 (some r))) (wordResult_pair hunit _ _)
    · rw [hexec, close_transfer_fail _ hcs h]
      rfl

end Sys2Proof.Machine

/-! SUPPORT. WRITE as a whole (41_bus_transport.md R118): the state it leaves where no chunk fails and where one does. -/

namespace Sys2Proof.Machine

open Sys2Proof.Claims

/-! ### The end of a write from `BUF` -/

/-- `s` after a WRITE none of whose chunks fails, which sent the bytes `o` (R118); `u` is the position of the draws for bytes
without value. -/
def written (size : Nat) (hold : Bool) (s : State) (o : List Byte) (u : Nat) : State :=
  { completed s hold (wireUnits o (answers s 0 size) ++ if hold then [] else [.csr]) size
      (chunkCount s.config.chunk size) none with
    buf := Memory.setRange s.buf 0 (answers s 0 size)
    env := { s.env with
      misoAt := s.env.misoAt + size
      txAt := s.env.txAt + chunkCount s.config.chunk size
      unwrittenAt := u } }

theorem release_bufMoved {s : State} {evs : List Event} {units txs : Nat} {buf : List Host.Cell} {u : Nat}
    (hcs : s.cs = true) :
    release (bufMoved s evs units txs buf u) = bufMoved { s with cs := false } (evs ++ [.csr]) units txs buf u := by
  rw [release_moved (s := bufMoved s evs units txs buf u) hcs]
  simp [moved, bufMoved]

theorem finish_bufMoved (s : State) (evs : List Event) (units txs : Nat) (buf : List Host.Cell) (u : Nat) :
    finish .ok none (bufMoved s evs units txs buf u) = { completed s s.cs evs units txs none with
      buf := buf
      env := { s.env with misoAt := s.env.misoAt + units, txAt := s.env.txAt + txs, unwrittenAt := u } } :=
  finish_moved { s with buf := buf, env := { s.env with unwrittenAt := u } } evs units txs none

/-- The fatal entry after a failed chunk, select still held (R118, R176). -/
theorem fatalEntry_bufMoved {s : State} {evs : List Event} {units txs : Nat} {buf : List Host.Cell} {u : Nat}
    (hcs : s.cs = true) :
    fatalEntry (bufMoved s evs units txs buf u) = { died s (evs ++ [.csr]) units txs with
      buf := buf
      env := { s.env with misoAt := s.env.misoAt + units, txAt := s.env.txAt + txs, unwrittenAt := u } } :=
  fatalEntry_moved (s := { s with buf := buf, env := { s.env with unwrittenAt := u } }) hcs

/-- A whole write with its last chunk's hold or release ends as a WRITE does. -/
theorem finish_echoed (size : Nat) (hold : Bool) {s : State} (o : List Byte) (u : Nat) (hcs : s.cs = true) :
    finish .ok none (if hold then echoed size s o u else release (echoed size s o u)) = written size hold s o u := by
  cases hold with
  | true =>
    rw [if_pos rfl, echoed, finish_bufMoved, hcs, written, if_pos rfl, List.append_nil]
  | false =>
    rw [if_neg Bool.false_ne_true, echoed, release_bufMoved hcs, finish_bufMoved]
    rfl

/-! ### WRITE (R118) -/

theorem chunk_pos_of_wf {c : Config} (h : c.wf) : 1 ≤ c.chunk := by
  obtain ⟨-, -, -, hchunk, -⟩ := h
  omega

theorem exec_write_of_checks {size : Nat} {s : State} (hold : Bool) (hst : s.st = .opened) (hcs : s.cs = true)
    (hsize : 1 ≤ size) (hmax : size ≤ s.config.bufMax) :
    exec (.write size hold) s = .next ((sendBuffer size hold s).close fun s _ => ret s) :=
  congrArg Host.Outcome.next (checked_of_traffic hst (by simp [hcs]) (by simp [sizeOk, hsize, hmax]))

theorem exec_write_written {size : Nat} {s : State} (hold : Bool) (hchunk : 1 ≤ s.config.chunk) (hst : s.st = .opened)
    (hcs : s.cs = true) (hsize : 1 ≤ size) (hmax : size ≤ s.config.bufMax)
    (hok : PlatformOk s (chunkCount s.config.chunk size)) :
    ∃ o u, SentFrom s 0 size o ∧ exec (.write size hold) s = .next (written size hold s o u) := by
  obtain ⟨o, u, ho, hexec⟩ := exec_write_ok hold hchunk hst hcs hsize hmax hok
  exact ⟨o, u, ho, hexec.trans (congrArg Host.Outcome.next (finish_echoed size hold o u hcs))⟩

/-- What is sent from index 0 on is what `BUF` holds there. -/
theorem SentFrom.sendsBuf {s : State} {n : Nat} {o : List Byte} (h : SentFrom s 0 n o) : sendsBuf s n o :=
  ⟨h.1, fun j b hj hb => h.2 j b hj (by rw [Nat.zero_add]; exact hb)⟩

/-- `BUF` byte by byte after a WRITE none of whose chunks fails. -/
theorem hostBufRead_written (size : Nat) (hold : Bool) (s : State) (o : List Byte) (u j : Nat) :
    hostBufRead j (written size hold s o u) = if j < size then (answers s 0 size)[j]? else hostBufRead j s := by
  rw [hostBufRead, written, Memory.get_setRange, answers_length]
  simp [hostBufRead]

theorem chunkCount_pos {chunk size : Nat} (hchunk : 1 ≤ chunk) (hsize : 1 ≤ size) : 0 < chunkCount chunk size :=
  Nat.pos_of_mul_pos_right (Nat.lt_of_lt_of_le hsize (chunks_cover hchunk))

/-- Only the end of a write looks at `hold` (R118). -/
theorem sendBuffer_hold {size : Nat} (hold : Bool) (s : State) (hcount : 0 < chunkCount s.config.chunk size) :
    sendBuffer size hold s =
      (sendBuffer size true s).andThen fun s1 _ => .going (if hold then s1 else release s1) [] := by
  obtain ⟨left, hleft⟩ : ∃ left, chunkCount s.config.chunk size = left + 1 := Nat.exists_eq_succ_of_ne_zero hcount.ne'
  simp only [sendBuffer, hleft]
  exact sendChunks_hold ..

/-- A write from `BUF` whose chunk `k` is the first to fail, after `p` of its units (R112, R118). -/
theorem sendBuffer_fail {size k p : Nat} {s : State} (hold : Bool) (hchunk : 1 ≤ s.config.chunk)
    (hk : k < chunkCount s.config.chunk size) (hok : PlatformOk s k) (hfail : txOutcome s k = .fail p) :
    let lo := k * s.config.chunk
    let len := min s.config.chunk (size - lo)
    ∃ o u, SentFrom s 0 (lo + min p len) o ∧ sendBuffer size hold s = .dead (fatalEntry
      (bufMoved s (wireUnits o (answers s 0 (lo + min p len))) (lo + min p len) (k + 1)
        (Memory.forget (Memory.setRange s.buf 0 (answers s 0 lo)) lo len) u)) := by
  obtain ⟨o, u, ho, hsend⟩ := sendChunks_fail (size := size) (k := 0) hk
    (fun j hj => by rw [Nat.zero_add]; exact chunk_starts hchunk (by omega)) hok hfail
  rw [Nat.zero_mul, Nat.zero_add] at ho hsend
  refine ⟨o, u, ho, ?_⟩
  rw [sendBuffer_hold hold s (Nat.zero_lt_of_lt hk), sendBuffer, hsend]
  rfl

/-- `BUF` byte by byte after a chunk that failed: `n` bytes before it have their echoes, its own `len` bytes no value. -/
theorem get_forget_setRange (s : State) (n len j : Nat) :
    Memory.get (Memory.forget (Memory.setRange s.buf 0 (answers s 0 n)) n len) j =
      if j < n then (answers s 0 n)[j]? else if j < n + len then none else hostBufRead j s := by
  rw [Memory.get_forget, Memory.get_setRange, answers_length]
  by_cases hlt : j < n
  · rw [if_neg (by omega), if_pos (by omega), if_pos hlt, Nat.sub_zero]
  · simp [hlt, Nat.le_of_not_lt hlt, hostBufRead]

/-- Settles O18: without failure by `exec_write_written`, with one by `sendBuffer_fail`. -/
theorem writeSendsBufferAndStoresEcho : Obligations.WriteSendsBufferAndStoresEcho := by
  intro size hold
  refine ⟨fun hsize => decodeOfEncodeIsIdentity (.write size hold) (decide_eq_true hsize),
    checksInOrder_of_exec fun s => by rw [Bool.decide_and]; rfl, fun s hwf hst hcs hsize hmax => ?_⟩
  have hchunk := chunk_pos_of_wf hwf
  refine ⟨fun hok => ?_, fun k p hk hok hfail => ?_⟩
  · obtain ⟨o, u, ho, hexec⟩ := exec_write_written hold hchunk hst hcs hsize hmax hok
    exact ⟨_, o, hexec, ho.sendsBuf, hostBufRead_written size hold s o u, rfl⟩
  · obtain ⟨o, u, ho, hsend⟩ := sendBuffer_fail hold hchunk hk hok hfail
    refine ⟨_, o, exec_write_of_checks hold hst hcs hsize hmax, ho.sendsBuf, fun j => ?_, ?_⟩
    · rw [hsend, Flow.close, hostBufRead, fatalEntry_buf]
      exact get_forget_setRange s _ _ j
    · rw [hsend, Flow.close, fatalEntry_bufMoved hcs]

/-! ### `BUF` filled by the host before a WRITE (R31, R121) -/

theorem hostFill_eq (lo : Nat) (b : List Byte) (s : State) : hostFill lo b s = { s with buf := Memory.setRange s.buf lo b } := by
  induction b generalizing lo s with
  | nil => rfl
  | cons b bs ih => exact ih (lo + 1) (hostBufWrite lo b s)

/-- A WRITE of bytes the host put into `BUF` sends them. -/
theorem exec_write_hostFill {b : List Byte} {s : State} (hold : Bool) (hchunk : 1 ≤ s.config.chunk) (hst : s.st = .opened)
    (hcs : s.cs = true) (hsize : 1 ≤ b.length) (hmax : b.length ≤ s.config.bufMax)
    (hok : PlatformOk s (chunkCount s.config.chunk b.length)) :
    ∃ m u, exec (.write b.length hold) (hostFill 0 b s) = .next (written b.length hold { s with buf := m } b u) := by
  rw [hostFill_eq]
  obtain ⟨o, u, ho, hexec⟩ :=
    exec_write_written (s := { s with buf := Memory.setRange s.buf 0 b }) hold hchunk hst hcs hsize hmax hok
  rw [ho.of_setRange rfl] at hexec
  exact ⟨_, u, hexec⟩

end Sys2Proof.Machine

/-! SUPPORT. Frames put together from several writes (41_bus_transport.md R121), and that the size of a chunk shows nowhere
(R118 c). -/

namespace Sys2Proof.Machine

/-! ### Writes one after another (R121) -/

theorem platformOk_written {size n : Nat} {hold : Bool} {s : State} {o : List Byte} {u : Nat}
    (hok : PlatformOk s (chunkCount s.config.chunk size + n)) : PlatformOk (written size hold s o u) n :=
  platformOk_completed hold [] size none hok

theorem answers_written (size : Nat) (hold : Bool) (s : State) (o : List Byte) (u off n : Nat) :
    answers (written size hold s o u) off n = answers s (size + off) n :=
  answers_moved s [] size 0 off n

/-- A write with hold and a write with release, `BUF` refilled by the host in between, put all their bytes into one frame. -/
theorem exec_write_held_released {a b : List Byte} {s : State} (hchunk : 1 ≤ s.config.chunk) (hst : s.st = .opened)
    (hcs : s.cs = true) (ha : 1 ≤ a.length) (hb : 1 ≤ b.length) (hamax : a.length ≤ s.config.bufMax)
    (hbmax : b.length ≤ s.config.bufMax)
    (hok : PlatformOk s (chunkCount s.config.chunk a.length + chunkCount s.config.chunk b.length)) :
    ∃ t₁ t₂, exec (.write a.length true) (hostFill 0 a s) = .next t₁ ∧
      exec (.write b.length false) (hostFill 0 b t₁) = .next t₂ ∧ t₂.st = .opened ∧ t₂.cs = false ∧
      t₂.trace = s.trace ++ wireUnits (a ++ b) (answers s 0 (a.length + b.length)) ++ [.csr] := by
  obtain ⟨m, u, hfirst⟩ := exec_write_hostFill true hchunk hst hcs ha hamax fun j hj => hok j (by omega)
  let t₁ := written a.length true { s with buf := m } a u
  obtain ⟨m₂, v, hsecond⟩ := exec_write_hostFill (s := t₁) false hchunk hst rfl hb hbmax (platformOk_written hok)
  refine ⟨t₁, _, hfirst, hsecond, hst, rfl, ?_⟩
  have hanswers : answers s 0 (a.length + b.length) = answers s 0 a.length ++ answers t₁ 0 b.length := by
    rw [answers_written, ← answers_append, Nat.zero_add]
    rfl
  rw [hanswers, wireUnits_append (answers_length s 0 a.length).symm]
  simp [t₁, written, completed, answers]

/-- Settles O49: the two writes by `exec_write_held_released`, the one by `exec_write_hostFill`. -/
theorem heldWritesChainIntoOneFrame : Obligations.HeldWritesChainIntoOneFrame := by
  intro a b s hwf hst hcs ha hb hmax hok hokAll
  have hchunk := chunk_pos_of_wf hwf
  obtain ⟨t₁, t₂, hfirst, hsecond, -, hcs₂, htrace⟩ :=
    exec_write_held_released hchunk hst hcs ha hb (by omega) (by omega) hok
  rw [← List.length_append] at hmax hokAll
  obtain ⟨m, u, hall⟩ := exec_write_hostFill false hchunk hst hcs (by rw [List.length_append]; omega) hmax hokAll
  rw [List.length_append] at hall
  have htraceAll : (written (a.length + b.length) false { s with buf := m } (a ++ b) u).trace =
      s.trace ++ wireUnits (a ++ b) (answers s 0 (a.length + b.length)) ++ [.csr] := (List.append_assoc ..).symm
  exact ⟨t₁, t₂, _, hfirst, hsecond, hall, htrace.trans htraceAll.symm, hcs₂, htraceAll⟩

theorem chunkCount_one {chunk : Nat} (h : 1 ≤ chunk) : chunkCount chunk 1 = 1 := by
  rw [chunkCount, Nat.add_sub_cancel_left, Nat.div_self h]

/-- Settles O48: the two writes after BEGIN by `exec_write_held_released`; the END finds select released. -/
theorem handBuiltFrameIsProtocolFrame : Obligations.HandBuiltFrameIsProtocolFrame := by
  intro sel pay s hwf hst hcs hpay hmax hok
  have hchunk := chunk_pos_of_wf hwf
  rw [← chunkCount_one hchunk] at hok
  obtain ⟨t₂, t₃, hsel, hsend, hst₃, hcs₃, htrace⟩ :=
    exec_write_held_released (a := [sel]) (s := ret (select s)) hchunk hst rfl Nat.le.refl hpay (hpay.trans hmax) hmax hok
  have hend := exec_end_of_checks hst₃
  rw [release_idle hcs₃] at hend
  exact ⟨_, t₂, t₃, _, exec_begin_of_checks hst hcs, hsel, hsend, hend, hcs₃, rfl, hcs₃, htrace⟩

/-! ### Where a chunk ends (R118 c) -/

/-- The bytes sent in a trace, oldest first. -/
def sent (t : List Event) : List Byte := (exchanged t).map Prod.fst

theorem sent_append (a b : List Event) : sent (a ++ b) = sent a ++ sent b := by
  rw [sent, exchanged_append, List.map_append]
  rfl

theorem sent_wireUnits {o i : List Byte} (h : o.length = i.length) : sent (wireUnits o i) = o := by
  induction o generalizing i with
  | nil => rfl
  | cons b o ih =>
    cases i with
    | nil => cases h
    | cons c i => exact congrArg (b :: ·) (ih (Nat.succ.inj h))

/-- The bytes of `BUF` from index `lo` on send the same in both states. -/
structure SendAlike (lo : Nat) (s t : State) : Prop where
  buf : ∀ j, lo ≤ j → Memory.get s.buf j = Memory.get t.buf j
  draws : s.env.unwritten = t.env.unwritten
  drawsAt : s.env.unwrittenAt = t.env.unwrittenAt

theorem SendAlike.of_fetchByte {lo : Nat} {s t : State} (h : SendAlike lo s t) :
    (fetchByte lo s).2 = (fetchByte lo t).2 ∧ SendAlike (lo + 1) (fetchByte lo s).1 (fetchByte lo t).1 := by
  obtain ⟨hbuf, hdraws, hat⟩ := h
  have hbuf' : ∀ j, lo + 1 ≤ j → Memory.get s.buf j = Memory.get t.buf j := fun j hj => hbuf j (by omega)
  unfold fetchByte
  rw [hbuf lo Nat.le.refl]
  cases Memory.get t.buf lo with
  | some b => exact ⟨rfl, hbuf', hdraws, hat⟩
  | none => exact ⟨by simp only [Env.unwrittenByte, hdraws, hat], hbuf', hdraws, congrArg (· + 1) hat⟩

theorem SendAlike.fetchBytes_eq {lo : Nat} {s t : State} (h : SendAlike lo s t) (n : Nat) :
    (fetchBytes lo n s).2 = (fetchBytes lo n t).2 := by
  induction n generalizing lo s t with
  | zero => rfl
  | succ n ih =>
    obtain ⟨hbyte, hrest⟩ := h.of_fetchByte
    exact congrArg₂ List.cons hbyte (ih hrest)

/-- The bytes from index `lo` on are those before `lo + m` and those from there on. -/
theorem fetchBytes_add (lo m n : Nat) (s : State) :
    (fetchBytes lo (m + n) s).2 = (fetchBytes lo m s).2 ++ (fetchBytes (lo + m) n (fetchBytes lo m s).1).2 := by
  induction m generalizing lo s with
  | zero => rw [Nat.zero_add]; rfl
  | succ m ih =>
    rw [show m + 1 + n = m + n + 1 by omega, show lo + (m + 1) = lo + 1 + m by omega]
    exact congrArg (_ :: ·) (ih (lo + 1) _)

/-- A chunk that went through sent its bytes of `BUF`, and what `BUF` sends after it is what it sent before. -/
theorem sendChunk_going {lo n : Nat} {s t : State} {rcv : List Byte} (h : sendChunk lo n s = .going t rcv) :
    sent t.trace = sent s.trace ++ (fetchBytes lo n s).2 ∧ SendAlike (lo + n) t (fetchBytes lo n s).1 := by
  obtain ⟨o, u, hfetch, hlen, -⟩ := fetchBytes_spec lo n s
  cases hd : txOutcome { s with env := { s.env with unwrittenAt := u } } 0 with
  | fail p =>
    simp only [sendChunk, hfetch, transact_fail hd] at h
    cases h
  | ok =>
    simp only [sendChunk, hfetch, transact_ok hd] at h
    cases h
    rw [hfetch]
    refine ⟨?_, ?_, rfl, rfl⟩
    · exact (sent_append ..).trans (by rw [sent_wireUnits (answers_length ..).symm])
    · intro j hj
      exact (Memory.get_setRange ..).trans (if_neg (by rw [answers_length]; omega))

/-- Chunks that went through sent the bytes of `BUF` as they were before the first of them. -/
theorem sendChunks_going {chunk size left k : Nat} {s t : State} {rcv : List Byte} (hcover : size ≤ (k + left) * chunk)
    (h : sendChunks true chunk size left k s = .going t rcv) :
    sent t.trace = sent s.trace ++ (fetchBytes (k * chunk) (size - k * chunk) s).2 := by
  induction left generalizing k s with
  | zero =>
    cases h
    rw [show size - k * chunk = 0 from Nat.sub_eq_zero_of_le hcover]
    exact (List.append_nil _).symm
  | succ left ih =>
    rw [sendChunks] at h
    cases hfirst : sendChunk (chunkLo chunk k) (chunkLen chunk size k) s with
    | dead u => rw [hfirst] at h; cases h
    | going u r =>
      simp only [hfirst, Flow.andThen, ite_self, if_true] at h
      obtain ⟨hsent, halike⟩ := sendChunk_going hfirst
      rw [ih (by rw [show k + 1 + left = k + (left + 1) by omega]; exact hcover) h, hsent, List.append_assoc]
      congr 1
      have hk1 : (k + 1) * chunk = k * chunk + chunk := Nat.succ_mul k chunk
      by_cases hlast : size ≤ (k + 1) * chunk
      · have hlen : chunkLen chunk size k = size - k * chunk := by simp only [chunkLen, chunkLo]; omega
        rw [Nat.sub_eq_zero_of_le hlast, hlen]
        exact List.append_nil _
      · have hlen : chunkLen chunk size k = chunk := by simp only [chunkLen, chunkLo]; omega
        rw [hlen, chunkLo] at halike
        rw [hlen, hk1, chunkLo, halike.fetchBytes_eq, ← fetchBytes_add,
          show chunk + (size - (k * chunk + chunk)) = size - k * chunk by omega]

/-- A WRITE none of whose chunks fails sends what `BUF` held before it, whatever the size of a chunk. -/
theorem exec_write_fetched {size : Nat} {s : State} (hold : Bool) (hchunk : 1 ≤ s.config.chunk) (hst : s.st = .opened)
    (hcs : s.cs = true) (hsize : 1 ≤ size) (hmax : size ≤ s.config.bufMax)
    (hok : PlatformOk s (chunkCount s.config.chunk size)) :
    ∃ u, exec (.write size hold) s = .next (written size hold s (fetchBytes 0 size s).2 u) := by
  obtain ⟨o, u, ⟨hlen, -⟩, hsend⟩ := sendBuffer_ok true hchunk hsize hok
  rw [if_pos rfl] at hsend
  have hgoing := sendChunks_going (by rw [Nat.zero_add]; exact chunks_cover hchunk) hsend
  rw [Nat.zero_mul, Nat.sub_zero] at hgoing
  have hsent : sent (echoed size s o u).trace = sent s.trace ++ o :=
    (sent_append ..).trans (by rw [sent_wireUnits (hlen.trans (answers_length ..).symm)])
  rw [← List.append_cancel_left (hsent.symm.trans hgoing)]
  refine ⟨u, ?_⟩
  rw [exec_write_of_checks hold hst hcs hsize hmax, sendBuffer_hold hold s (chunkCount_pos hchunk hsize), hsend]
  exact congrArg Host.Outcome.next (finish_echoed size hold o u hcs)

/-- Settles O50: whatever the size of a chunk, the bytes sent are those `exec_write_fetched` names. -/
theorem chunkingIsInvisible : Obligations.ChunkingIsInvisible := by
  intro size chunk hold s hc hchunk hst hcs hsize hmax hok hok'
  let s' : State := { s with config := { s.config with chunk := chunk } }
  obtain ⟨u, hexec⟩ := exec_write_fetched hold hc hst hcs hsize hmax hok
  obtain ⟨u', hexec'⟩ := exec_write_fetched (s := s') hold hchunk hst hcs hsize hmax hok'
  have halike : SendAlike 0 s' s := ⟨fun _ _ => rfl, rfl, rfl⟩
  rw [halike.fetchBytes_eq] at hexec'
  exact ⟨_, _, hexec, hexec', rfl, rfl, rfl, rfl⟩

end Sys2Proof.Machine

/-! SUPPORT. The register-protocol operations (42_register_protocol.md): each is its checks, its part on the wire, and its end (R140);
the primitives are one frame each, and a composite is its primitives one after another (R84, R94). -/

namespace Sys2Proof.Machine

open Sys2Proof.Claims

/-! ### Checks, part on the wire, end (R140) -/

/-- What a register-protocol operation does between its checks and its end (R142 to R147, R150 to R152). -/
def protocolFlow : Instr → State → Flow
  | .wcmd addr, s => commandFrame addr s
  | .wdata v, s => dataFrame v s
  | .wdatan n, s => frameBuffer s.config.selDW n s
  | .wdataw w, s => frame s.config.selDW (wordUnits s.config w) s
  | .rdata, s => readFrame s
  | .rstatus, s => frame s.config.selSR [s.config.dummy] s
  | .wreg addr v, s => registerWrite addr v s
  | .wreg16 addr v, s => (registerWrite addr (lo8 v) s).andThen fun s _ => registerWrite (nextAddr addr) (hi8 v) s
  | .rreg addr, s => (commandFrame addr s).andThen fun s _ => readFrame s
  | .init _ _ _ _, s | .beginFrame, s | .endFrame, s | .write _ _, s | .xferb _, s | .xferw _, s => .going s []

/-- The argument check of a register-protocol operation (R144, R151). -/
def protocolArgsOk : Instr → State → Bool
  | .wdatan n, s => sizeOk n s
  | .wreg16 addr _, _ => decide (addr.toNat ≤ 0xFE)
  | .init _ _ _ _, _ | .beginFrame, _ | .endFrame, _ | .write _ _, _ | .xferb _, _ | .xferw _, _ | .wcmd _, _ | .wdata _, _
  | .wdataw _, _ | .rdata, _ | .rstatus, _ | .wreg _ _, _ | .rreg _, _ => true

/-- The end of a register-protocol operation that went through: with ST_OK, and with the byte received where it `reads`. -/
def protocolEnd (reads : Bool) (s : State) (rcv : List Byte) : State :=
  finish .ok (if reads then some (byteResult rcv) else none) s

theorem exec_protocol {i : Instr} (hp : isProtocol i = true) (s : State) :
    exec i s = .next (protocolOp (protocolArgsOk i s) (fun s => (protocolFlow i s).close (protocolEnd (hasResult i))) s) := by
  cases i with
  | init | beginFrame | endFrame | write | xferb | xferw => cases hp
  | _ => rfl

theorem exec_protocol_of_checks {i : Instr} {s : State} (hp : isProtocol i = true) (hst : s.st = .opened) (hcs : s.cs = false)
    (hargs : protocolArgsOk i s = true) : exec i s = .next ((protocolFlow i s).close (protocolEnd (hasResult i))) :=
  (exec_protocol hp s).trans (congrArg Host.Outcome.next (checked_of_traffic hst (by simp [hcs]) hargs))

/-- Select is deasserted again behind a register-protocol operation, or the operation died (R148). -/
theorem protocolFlow_fate (i : Instr) {s : State} (hcs : s.cs = false) : Fate (reach i) s false (protocolFlow i s) := by
  have two (addr v : Byte) {s : State} (hcs : s.cs = false) : Fate 0 s false (registerWrite addr v s) :=
    (frame_fate 0 _ _ hcs).andThen fun t _ _ ht => frame_fate 0 _ _ ht
  cases i with
  | wcmd | wdata | wdataw | rdata | rstatus => exact frame_fate 0 _ _ hcs
  | wdatan n => exact frameBuffer_fate _ n hcs
  | wreg addr v => exact two addr v hcs
  | wreg16 addr v => exact (two _ _ hcs).andThen fun t _ _ ht => two _ _ ht
  | rreg addr => exact (frame_fate 0 _ _ hcs).andThen fun t _ _ ht => frame_fate 0 _ _ ht
  | _ => exact ⟨Worked.refl _ s, hcs⟩

/-! ### R148 -/

/-- The last address WREG16 takes (R151). -/
theorem toNat_le_iff_ne_last {addr : Byte} : addr.toNat ≤ 0xFE ↔ addr ≠ 0xFF := by
  bv_omega

theorem protocolArgsOk_iff {i : Instr} (hp : isProtocol i = true) (s : State) :
    protocolArgsOk i s = true ↔ ¬ badArgs s.config.bufMax i := by
  cases i with
  | wdatan n =>
    rw [protocolArgsOk, sizeOk, badArgs, Bool.and_eq_true, decide_eq_true_iff, decide_eq_true_iff]
    omega
  | wreg16 addr v => simpa [protocolArgsOk, badArgs] using toNat_le_iff_ne_last
  | init | beginFrame | endFrame | write | xferb | xferw => cases hp
  | _ => simp [protocolArgsOk, badArgs]

/-- Settles O40: past its checks by `protocolFlow_fate`; a refusal leaves all but `LASTST` and the response. -/
theorem protocolOperationAlwaysReleases : Obligations.ProtocolOperationAlwaysReleases := by
  intro i s hp
  refine ⟨fun hst hcs hargs => ?_, fun hfails => ?_⟩
  · refine ⟨_, exec_protocol_of_checks hp hst hcs ((protocolArgsOk_iff hp s).2 hargs), ?_⟩
    obtain ⟨u, -, ⟨r, hu, e⟩ | ⟨-, e⟩⟩ := (protocolFlow_fate i hcs).close (k := protocolEnd (hasResult i)) <;> rw [e]
    · exact ⟨hu, .inl rfl⟩
    · exact ⟨fatalEntry_cs u, .inr rfl⟩
  · refine ⟨_, exec_protocol hp s, ?_⟩
    rw [protocolOp]
    obtain ⟨c, hc, e⟩ | ⟨hnone, -⟩ := checked_cases (f := trafficFailure (some false) (protocolArgsOk i s) s)
      (run := fun s => (protocolFlow i s).close (protocolEnd (hasResult i))) (s := s)
    · rw [e]
      exact ⟨rfl, firstFailure_some hc⟩
    · obtain ⟨-, hst, hcs, hargs⟩ := firstFailure_none hnone
      obtain h | h | h := hfails
      · exact absurd (of_decide_eq_true hst) h
      · cases h.symm.trans (hcs false rfl)
      · exact absurd h ((protocolArgsOk_iff hp s).1 hargs)

/-! ### Primitives and their frames (R82, R84, R94) -/

/-- The operations that are one frame with operands from the command word (R142, R143, R145 to R147). -/
def isPrimitive : Instr → Bool
  | .wcmd _ | .wdata _ | .wdataw _ | .rdata | .rstatus => true
  | .init _ _ _ _ | .beginFrame | .endFrame | .write _ _ | .xferb _ | .xferw _ | .wdatan _ | .wreg _ _
  | .wreg16 _ _ | .rreg _ => false

/-- The frame of a primitive (R82). -/
def primitiveFrame (p : Config) : Instr → Byte × List Byte
  | .wcmd addr => (p.selCW, [addr])
  | .wdata v => (p.selDW, [v])
  | .wdataw w => (p.selDW, wordUnits p w)
  | .rdata => (p.selDR, [p.dummy])
  | .rstatus => (p.selSR, [p.dummy])
  | .init _ _ _ _ | .beginFrame | .endFrame | .write _ _ | .xferb _ | .xferw _ | .wdatan _ | .wreg _ _
  | .wreg16 _ _ | .rreg _ => (0, [])

theorem isProtocol_of_isPrimitive {i : Instr} (h : isPrimitive i = true) : isProtocol i = true := by
  cases i with
  | wcmd | wdata | wdataw | rdata | rstatus => rfl
  | _ => cases h

theorem protocolArgsOk_of_isPrimitive {i : Instr} (h : isPrimitive i = true) (s : State) : protocolArgsOk i s = true := by
  cases i with
  | wcmd | wdata | wdataw | rdata | rstatus => rfl
  | _ => cases h

theorem protocolFlow_primitive {i : Instr} (h : isPrimitive i = true) (s : State) :
    protocolFlow i s = frame (primitiveFrame s.config i).1 (primitiveFrame s.config i).2 s := by
  cases i with
  | wcmd | wdata | wdataw | rdata | rstatus => rfl
  | _ => cases h

/-- A primitive's payload is one transaction (R141). -/
theorem primitiveFrame_fits {p : Config} (hwf : p.wf) {i : Instr} (h : isPrimitive i = true) :
    1 ≤ (primitiveFrame p i).2.length ∧ (primitiveFrame p i).2.length ≤ p.chunk := by
  obtain ⟨-, -, -, hchunk, hword, hunit, -⟩ := hwf
  cases i with
  | wcmd | wdata | rdata | rstatus => exact ⟨Nat.le.refl, Nat.le_of_succ_le hchunk⟩
  | wdataw w =>
    have hlen : (wordUnits p w).length = 2 := by
      rw [wordUnits]
      split <;> simp [hword, hunit]
    exact ⟨hlen ▸ by decide, hlen ▸ hchunk⟩
  | _ => cases h

/-- A read receives one byte (R83, R89). -/
theorem primitiveFrame_read (p : Config) {i : Instr} (h : isPrimitive i = true) (hread : hasResult i = true) :
    (primitiveFrame p i).2.length = 1 := by
  cases i with
  | rdata | rstatus => rfl
  | wcmd | wdata | wdataw => cases hread
  | _ => cases h

/-! ### Primitives one after another (R84, R94, R153) -/

/-- The parts on the wire of the operations `is` and then of `j`. -/
def inTurn : List Instr → Instr → State → Flow
  | [], j, s => protocolFlow j s
  | i :: is, j, s => (protocolFlow i s).andThen fun s _ => inTurn is j s

/-- What comes after a part of an operation matters only where that part can lead. -/
theorem Fate.andThen_congr {N : Nat} {s : State} {cs : Bool} {f : Flow} {k k' : State → List Byte → Flow} (h : Fate N s cs f)
    (hk : ∀ t r, t.config = s.config → t.cs = cs → k t r = k' t r) : f.andThen k = f.andThen k' := by
  cases f with
  | going t r => exact hk t r h.1.config h.2
  | dead t => rfl

theorem Flow.andThen_assoc (f : Flow) (k k' : State → List Byte → Flow) :
    (f.andThen k).andThen k' = f.andThen fun s rcv => (k s rcv).andThen k' := by
  cases f <;> rfl

/-- Primitives one after another send the plan of their frames. -/
theorem inTurn_eq_sendPlan {is : List Instr} {j : Instr} {s : State} (hprim : ∀ i ∈ is ++ [j], isPrimitive i = true)
    (hcs : s.cs = false) (rcv : List Byte) :
    inTurn is j s = sendPlan ((is ++ [j]).map (primitiveFrame s.config)) rcv s := by
  induction is generalizing s rcv with
  | nil =>
    rw [inTurn, protocolFlow_primitive (hprim j (by simp)), List.nil_append, List.map_singleton, sendPlan]
    cases frame _ _ s <;> rfl
  | cons i is ih =>
    obtain ⟨hi, hprim⟩ := List.forall_mem_cons.1 hprim
    rw [inTurn, protocolFlow_primitive hi, List.cons_append, List.map_cons, sendPlan]
    refine (frame_fate 0 _ _ hcs).andThen_congr fun t r hconfig ht => ?_
    rw [ih hprim ht r, hconfig]

/-! ### The rule of a register-protocol operation (R140, R141) -/

/-- A plan none of whose transactions fails, with its end (R171). -/
theorem close_sendPlan_ok {p : Plan} {reads : Bool} {s : State} (hcs : s.cs = false) (hfits : PlanFits s p)
    (hlast : reads = true → ∃ before f, p = before ++ [f] ∧ f.2.length = 1) (hok : PlatformOk s (2 * p.length)) :
    (sendPlan p [] s).close (protocolEnd reads) = completed s false (planEvents s 0 p) (planUnits p) (2 * p.length)
      (if reads then some (zext16 (s.env.misoByte (s.env.misoAt + planUnits p - 1))) else none) := by
  rw [sendPlan_ok hcs hfits hok, Flow.close, protocolEnd, finish_moved, hcs]
  cases reads with
  | false => rfl
  | true =>
    obtain ⟨before, f, rfl, hone⟩ := hlast rfl
    have hunits : f.2.length ≤ planUnits (before ++ [f]) := planUnits_ge (by simp)
    have hanswer : planAnswer s (before ++ [f]) [] = [s.env.misoByte (s.env.misoAt + planUnits (before ++ [f]) - 1)] := by
      simp only [planAnswer, List.getLast?_concat, hone]
      rw [Nat.add_sub_assoc (by omega)]
      rfl
    rw [hanswer]
    rfl

/-- The rule of an operation whose part on the wire is the primitives `is` and then `j`. -/
theorem protocolRule_of_inTurn {i j : Instr} {is : List Instr} {plan : Config → Plan} {argsOk : Bool}
    (hp : isProtocol i = true) (hargs : ∀ s, protocolArgsOk i s = argsOk) (hflow : ∀ s, protocolFlow i s = inTurn is j s)
    (hprim : ∀ k ∈ is ++ [j], isPrimitive k = true) (hres : hasResult j = hasResult i)
    (hplan : argsOk = true → ∀ p : Config, p.wf → plan p = (is ++ [j]).map (primitiveFrame p)) :
    ProtocolRule i plan (hasResult i) argsOk := by
  refine ⟨checksInOrder_of_exec fun s => by rw [exec_protocol hp, hargs]; rfl, fun s hwf hst hcs hargsOk => ?_⟩
  have hfits : PlanFits s (plan s.config) := by
    rw [hplan hargsOk _ hwf]
    intro f hf
    obtain ⟨k, hk, rfl⟩ := List.mem_map.1 hf
    exact primitiveFrame_fits hwf (hprim k hk)
  have hlast (hread : hasResult i = true) : ∃ before f, plan s.config = before ++ [f] ∧ f.2.length = 1 :=
    ⟨is.map (primitiveFrame s.config), primitiveFrame s.config j, by rw [hplan hargsOk _ hwf, List.map_append]; rfl,
      primitiveFrame_read _ (hprim j (by simp)) (hres.trans hread)⟩
  have hexec : exec i s = .next ((sendPlan (plan s.config) [] s).close (protocolEnd (hasResult i))) := by
    rw [exec_protocol_of_checks hp hst hcs ((hargs s).trans hargsOk), hflow, inTurn_eq_sendPlan hprim hcs [],
      hplan hargsOk _ hwf]
  refine ⟨fun hok => hexec.trans (congrArg _ (close_sendPlan_ok hcs hfits hlast hok)), fun before after f p hcut => ?_⟩
  rw [hcut] at hexec hfits
  have hfits' : PlanFits s (before ++ [f]) := fun g hg =>
    hfits g (by rw [List.append_cons]; exact List.mem_append_left after hg)
  refine ⟨fun hok hfail => ?_, fun hok hfail => ?_⟩
  · rw [hexec, (sendPlan_fail hcs hfits' hok).1 hfail]
    rfl
  · rw [hexec, (sendPlan_fail hcs hfits' fun k hk => hok k (by omega)).2 (hok _ (by omega)) hfail]
    rfl

/-- The rule of a primitive. -/
theorem protocolRule_of_isPrimitive {i : Instr} (h : isPrimitive i = true) {plan : Config → Plan}
    (hplan : ∀ p : Config, p.wf → plan p = [primitiveFrame p i]) : ProtocolRule i plan (hasResult i) true :=
  protocolRule_of_inTurn (is := []) (isProtocol_of_isPrimitive h) (protocolArgsOk_of_isPrimitive h) (fun _ => rfl)
    (by simpa using h) rfl fun _ => hplan

/-- Settles O21: WCMD is one frame. -/
theorem wcmdSendsCommandFrame : Obligations.WcmdSendsCommandFrame := fun addr =>
  ⟨decodeOfEncodeIsIdentity (.wcmd addr) rfl, protocolRule_of_isPrimitive (i := .wcmd addr) rfl fun _ _ => rfl⟩

/-- Settles O22: WDATA is one frame. -/
theorem wdataSendsDataFrame : Obligations.WdataSendsDataFrame := fun v =>
  ⟨decodeOfEncodeIsIdentity (.wdata v) rfl, protocolRule_of_isPrimitive (i := .wdata v) rfl fun _ _ => rfl⟩

/-- Two bytes next to each other at the end of a command word are a word there. -/
theorem append_word {n : Nat} (x : BitVec n) (hi lo : Byte) : (x ++ (hi ++ lo : HalfWord) : BitVec (n + 16)) = x ++ hi ++ lo :=
  BitVec.append_assoc.symm

/-- Settles O24: WDATAW is one frame, its payload the word's two bytes (`wordUnits_append`). -/
theorem wdatawSendsWordHighByteFirst : Obligations.WdatawSendsWordHighByteFirst := by
  intro hi lo
  refine ⟨?_, protocolRule_of_isPrimitive (i := .wdataw (hi ++ lo)) rfl fun p hwf => ?_⟩
  · have henc : encode (.wdataw (hi ++ lo)) = (0x13#8 ++ 0#8 ++ hi ++ lo : BitVec 32) := append_word (0x13#8 ++ 0#8) hi lo
    rw [← henc]
    exact decodeOfEncodeIsIdentity (.wdataw (hi ++ lo)) rfl
  · obtain ⟨-, -, -, -, hword, hunit, -⟩ := hwf
    rw [primitiveFrame, wordUnits_append hword hunit]

/-- Settles O25: RDATA is one frame that reads. -/
theorem rdataReturnsSecondByte : Obligations.RdataReturnsSecondByte :=
  ⟨decodeOfEncodeIsIdentity .rdata rfl, protocolRule_of_isPrimitive (i := .rdata) rfl fun _ _ => rfl⟩

/-- Settles O26: RSTATUS is one frame that reads. -/
theorem rstatusReturnsSecondByte : Obligations.RstatusReturnsSecondByte :=
  ⟨decodeOfEncodeIsIdentity .rstatus rfl, protocolRule_of_isPrimitive (i := .rstatus) rfl fun _ _ => rfl⟩

/-- Settles O27: WREG is WCMD and then WDATA. -/
theorem wregSendsTwoFrames : Obligations.WregSendsTwoFrames := fun addr v =>
  ⟨decodeOfEncodeIsIdentity (.wreg addr v) rfl, protocolRule_of_inTurn (i := .wreg addr v) (is := [.wcmd addr]) (j := .wdata v)
    rfl (fun _ => rfl) (fun _ => rfl) (by simp [isPrimitive]) rfl fun _ _ _ => rfl⟩

/-- A 16-bit register write is two register writes, so four primitives (R151). -/
theorem protocolFlow_wreg16 (addr : Byte) (v : HalfWord) (s : State) :
    protocolFlow (.wreg16 addr v) s =
      inTurn [.wcmd addr, .wdata (lo8 v), .wcmd (nextAddr addr)] (.wdata (hi8 v)) s :=
  Flow.andThen_assoc ..

/-- Settles O28: WREG16 is WCMD, WDATA of the low byte, WCMD, WDATA of the high byte (`protocolFlow_wreg16`). -/
theorem wreg16SendsLowThenHighByte : Obligations.Wreg16SendsLowThenHighByte := by
  intro addr hi lo next hnext
  refine ⟨?_, protocolRule_of_inTurn (i := .wreg16 addr (hi ++ lo)) rfl
    (fun s => decide_eq_decide.2 toNat_le_iff_ne_last) (protocolFlow_wreg16 addr _) (by simp [isPrimitive]) rfl
    fun haddr p _ => ?_⟩
  · have henc : encode (.wreg16 addr (hi ++ lo)) = (0x19#8 ++ addr ++ hi ++ lo : BitVec 32) :=
      append_word (0x19#8 ++ addr) hi lo
    rw [← henc]
    exact decodeOfEncodeIsIdentity (.wreg16 addr (hi ++ lo)) rfl
  · have haddr := of_decide_eq_true haddr
    obtain rfl : next = nextAddr addr := BitVec.eq_of_toNat_eq ((hnext haddr).trans (nextAddr_toNat haddr).symm)
    rw [lo8_append, hi8_append]
    rfl

/-- Settles O29: RREG is WCMD and then RDATA. -/
theorem rregReturnsLastByte : Obligations.RregReturnsLastByte := fun addr =>
  ⟨decodeOfEncodeIsIdentity (.rreg addr) rfl, protocolRule_of_inTurn (i := .rreg addr) (is := [.wcmd addr]) (j := .rdata)
    rfl (fun _ => rfl) (fun _ => rfl) (by simp [isPrimitive]) rfl fun _ _ _ => rfl⟩

end Sys2Proof.Machine

/-! SUPPORT. WDATAN, the one frame whose payload comes from `BUF` (42_register_protocol.md R144): the selector as for every frame,
and behind it a write from `BUF` with select held. -/

namespace Sys2Proof.Machine

open Sys2Proof.Claims

/-- `s` with select asserted and the selector of a frame sent (R141). -/
def addressed (sel : Byte) (s : State) : State := moved (select s) (wireUnits [sel] (answers s 0 1)) 1 1

theorem txOutcome_addressed (sel : Byte) (s : State) (j : Nat) : txOutcome (addressed sel s) j = txOutcome s (1 + j) :=
  txOutcome_moved ..

theorem answers_addressed (sel : Byte) (s : State) (off n : Nat) : answers (addressed sel s) off n = answers s (1 + off) n :=
  answers_moved ..

/-- The units of a frame are its selector and its payload. -/
theorem wireUnits_frame (s : State) (sel : Byte) (o : List Byte) (n : Nat) :
    wireUnits (sel :: o) (answers s 0 (1 + n)) = wireUnits [sel] (answers s 0 1) ++ wireUnits o (answers s 1 n) := by
  rw [← answers_append, ← wireUnits_append (by rfl)]
  rfl

/-- A frame whose selector went out, whatever its payload (R141). -/
theorem frameWith_selector_ok {sel : Byte} {payload : State → Flow} {s : State} (h : txOutcome s 0 = .ok) :
    frameWith sel payload s = (payload (addressed sel s)).andThen fun s rcv => .going (release s) rcv := by
  have hsel : transfer [sel] (select s) = .going (addressed sel s) (answers s 0 1) := transfer_ok (s := select s) h
  rw [frameWith, hsel, Flow.andThen]
  simp only [release_release]

/-- A frame whose selector fails after `p` units, whatever its payload (R112, R141, R176). -/
theorem frameWith_selector_fail {sel : Byte} {payload : State → Flow} {s : State} {p : Nat} (h : txOutcome s 0 = .fail p) :
    frameWith sel payload s = .dead (died s ([.csa] ++ wireUnits ([sel].take p) (answers s 0 (min p 1)) ++ [.csr])
      (min p 1) 1) := by
  rw [frameWith, transfer_fail (s := select s) h, Flow.andThen, fatalEntry_moved rfl, List.length_take]
  simp [died, select, emit, answers]

/-- WDATAN none of whose transactions fails is a whole write with release behind the selector. -/
theorem close_frameBuffer_ok {sel : Byte} {n : Nat} {s : State} (hchunk : 1 ≤ s.config.chunk) (hn : 1 ≤ n)
    (hok : PlatformOk s (1 + chunkCount s.config.chunk n)) :
    ∃ o u, SentFrom s 0 n o ∧
      (frameBuffer sel n s).close (protocolEnd false) = written n false (addressed sel s) o u := by
  obtain ⟨o, u, ho, hsend⟩ := sendBuffer_ok (s := addressed sel s) true hchunk hn fun j hj =>
    (txOutcome_addressed sel s j).trans (hok _ (Nat.add_lt_add_left hj 1))
  refine ⟨o, u, ho, ?_⟩
  rw [frameBuffer, frameWith_selector_ok (hok 0 (by omega)), hsend]
  exact finish_echoed n false (s := addressed sel s) o u rfl

/-- WDATAN whose chunk `k` is the first transaction to fail (R112, R144, R176). -/
theorem close_frameBuffer_fail {sel : Byte} {n k p : Nat} {s : State} (hchunk : 1 ≤ s.config.chunk)
    (hk : k < chunkCount s.config.chunk n) (hok : PlatformOk s (1 + k)) (hfail : txOutcome s (1 + k) = .fail p) :
    let lo := k * s.config.chunk
    let len := min s.config.chunk (n - lo)
    ∃ o u, SentFrom s 0 (lo + min p len) o ∧ (frameBuffer sel n s).close (protocolEnd false) = fatalEntry
      (bufMoved (addressed sel s) (wireUnits o (answers s 1 (lo + min p len))) (lo + min p len) (k + 1)
        (Memory.forget (Memory.setRange s.buf 0 (answers s 1 lo)) lo len) u) := by
  obtain ⟨o, u, ho, hsend⟩ := sendBuffer_fail (s := addressed sel s) (size := n) true hchunk hk
    (fun j hj => (txOutcome_addressed sel s j).trans (hok _ (Nat.add_lt_add_left hj 1)))
    ((txOutcome_addressed sel s k).trans hfail)
  refine ⟨o, u, ho, ?_⟩
  rw [frameBuffer, frameWith_selector_ok (hok 0 (by omega)), hsend, answers_addressed, answers_addressed]
  rfl

/-- Settles O23: without failure by `close_frameBuffer_ok`, with one by `frameWith_selector_fail` and `close_frameBuffer_fail`. -/
theorem wdatanSendsBufferInOneFrame : Obligations.WdatanSendsBufferInOneFrame := by
  intro n
  refine ⟨fun hn => decodeOfEncodeIsIdentity (.wdatan n) (decide_eq_true hn),
    checksInOrder_of_exec fun s => by rw [Bool.decide_and]; rfl, fun s hwf hst hcs hn hmax => ?_⟩
  have hchunk := chunk_pos_of_wf hwf
  have hexec := exec_protocol_of_checks (i := .wdatan n) rfl hst hcs (by simp [protocolArgsOk, sizeOk, hn, hmax])
  refine ⟨fun hok => ?_, fun p hfail => ?_, fun k p hk hok hfail => ?_⟩
  · obtain ⟨o, u, ho, hend⟩ := close_frameBuffer_ok (sel := s.config.selDW) hchunk hn hok
    refine ⟨_, o, hexec.trans (congrArg _ hend), ho.sendsBuf, fun j => ?_, ?_⟩
    · rw [hostBufRead_written, answers_addressed]
      rfl
    · rw [wireUnits_frame, written, answers_addressed]
      simp [completed, addressed, moved, Nat.add_assoc]
  · exact hexec.trans (congrArg (fun f => Host.Outcome.next (Flow.close f _)) (frameWith_selector_fail hfail))
  · obtain ⟨o, u, ho, hend⟩ := close_frameBuffer_fail (sel := s.config.selDW) hchunk hk hok hfail
    refine ⟨_, o, hexec.trans (congrArg _ hend), ho.sendsBuf, fun j => ?_, ?_⟩
    · have hread := get_forget_setRange (addressed s.config.selDW s) (k * s.config.chunk)
        (min s.config.chunk (n - k * s.config.chunk)) j
      rw [answers_addressed] at hread
      rw [hostBufRead, fatalEntry_buf]
      exact hread
    · rw [fatalEntry_bufMoved rfl, wireUnits_frame]
      simp [died, addressed, moved, Nat.add_assoc]

end Sys2Proof.Machine

/-! SUPPORT. What a register-protocol operation depends on (42_register_protocol.md R149): two runs that agree on the parameters, on
chip-select, on the draws and, where it is sent, on `BUF`, stay alike. -/

namespace Sys2Proof.Machine

/-- Two runs are alike: what the wire depends on is equal, `BUF` where it `matters`, and since the traces were `a` and `b` the same
events happened. -/
structure Alike (matters : Prop) (a b : List Event) (s t : State) : Prop where
  config : s.config = t.config
  cs : s.cs = t.cs
  env : s.env = t.env
  buf : matters → s.buf = t.buf
  trace : ∃ E, s.trace = a ++ E ∧ t.trace = b ++ E

/-- Parts of two runs go alike: both go on, with the same bytes received, or both end. -/
def Flow.Alike (matters : Prop) (a b : List Event) : Flow → Flow → Prop
  | .going s rcv, .going t rcv' => Machine.Alike matters a b s t ∧ rcv = rcv'
  | .dead s, .dead t => Machine.Alike matters a b s t
  | .going _ _, .dead _ | .dead _, .going _ _ => False

section Alike

variable {matters : Prop} {a b : List Event} {s t : State}

theorem Flow.Alike.andThen {f g : Flow} {k k' : State → List Byte → Flow} (h : Flow.Alike matters a b f g)
    (hk : ∀ s t rcv, Machine.Alike matters a b s t → Flow.Alike matters a b (k s rcv) (k' t rcv)) :
    Flow.Alike matters a b (f.andThen k) (g.andThen k') := by
  cases f with
  | going s rcv =>
    cases g with
    | going t rcv' => obtain ⟨h, rfl⟩ := h; exact hk s t rcv h
    | dead t => exact h.elim
  | dead s =>
    cases g with
    | going t rcv' => exact h.elim
    | dead t => exact h

/-! ### The shared operations -/

theorem Alike.answers (h : Alike matters a b s t) (off n : Nat) : answers s off n = answers t off n := by
  simp only [Machine.answers, h.env]

theorem Alike.txOutcome (h : Alike matters a b s t) (j : Nat) : txOutcome s j = txOutcome t j := by
  simp only [Machine.txOutcome, h.env]

theorem Alike.moved (h : Alike matters a b s t) (evs : List Event) (units txs : Nat) :
    Alike matters a b (moved s evs units txs) (moved t evs units txs) := by
  obtain ⟨hconfig, hcs, henv, hbuf, E, hs, ht⟩ := h
  exact ⟨hconfig, hcs, by simp only [Machine.moved, henv], hbuf, E ++ evs,
    by simp only [Machine.moved, hs, List.append_assoc], by simp only [Machine.moved, ht, List.append_assoc]⟩

theorem Alike.select (h : Alike matters a b s t) : Alike matters a b (select s) (select t) := by
  obtain ⟨hconfig, -, henv, hbuf, E, hs, ht⟩ := h
  exact ⟨hconfig, rfl, henv, hbuf, E ++ [.csa], by rw [select_trace, hs, List.append_assoc],
    by rw [select_trace, ht, List.append_assoc]⟩

theorem Alike.release (h : Alike matters a b s t) : Alike matters a b (release s) (release t) := by
  cases hcs : t.cs with
  | false => rw [release_idle hcs, release_idle (h.cs.trans hcs)]; exact h
  | true =>
    have hdown : Alike matters a b { s with cs := false } { t with cs := false } := { h with cs := rfl }
    rw [release_moved hcs, release_moved (h.cs.trans hcs)]
    exact hdown.moved _ 0 0

theorem Alike.fatalEntry (h : Alike matters a b s t) : Alike matters a b (fatalEntry s) (fatalEntry t) :=
  { h.release with }

theorem Alike.transfer (h : Alike matters a b s t) (o : List Byte) :
    Flow.Alike matters a b (transfer o s) (transfer o t) := by
  cases hd : Machine.txOutcome t 0 with
  | ok =>
    rw [transfer_ok hd, transfer_ok ((h.txOutcome 0).trans hd), h.answers]
    exact ⟨h.moved _ _ _, rfl⟩
  | fail p =>
    rw [transfer_fail hd, transfer_fail ((h.txOutcome 0).trans hd), h.answers]
    exact (h.moved _ _ _).fatalEntry

theorem Alike.sendPieces (h : Alike matters a b s t) (chunk left : Nat) (pay rcv : List Byte) :
    Flow.Alike matters a b (sendPieces chunk left pay rcv s) (sendPieces chunk left pay rcv t) := by
  induction left generalizing pay rcv s t with
  | zero => exact ⟨h, rfl⟩
  | succ left ih => exact (h.transfer _).andThen fun _ _ _ h => ih h _ _

/-- Where `BUF` is equal, the same byte is sent from it, and the draws stay equal. -/
theorem Alike.fetchByte (h : Alike matters a b s t) (hbuf : matters) (lo : Nat) :
    ∃ s' t' v, fetchByte lo s = (s', v) ∧ fetchByte lo t = (t', v) ∧ Alike matters a b s' t' := by
  unfold Machine.fetchByte
  rw [h.buf hbuf, h.env]
  cases Memory.get t.buf lo with
  | some v => exact ⟨s, t, v, rfl, rfl, h⟩
  | none => exact ⟨_, _, _, rfl, rfl, { h with env := rfl, buf := fun _ => rfl }⟩

theorem Alike.fetchBytes (h : Alike matters a b s t) (hbuf : matters) (lo n : Nat) :
    ∃ s' t' o, fetchBytes lo n s = (s', o) ∧ fetchBytes lo n t = (t', o) ∧ Alike matters a b s' t' := by
  induction n generalizing lo s t with
  | zero => exact ⟨s, t, [], rfl, rfl, h⟩
  | succ n ih =>
    obtain ⟨s₁, t₁, v, hs₁, ht₁, h₁⟩ := h.fetchByte hbuf lo
    obtain ⟨s₂, t₂, o, hs₂, ht₂, h₂⟩ := ih h₁ (lo + 1)
    exact ⟨s₂, t₂, v :: o, by simp only [Machine.fetchBytes, hs₁, hs₂], by simp only [Machine.fetchBytes, ht₁, ht₂], h₂⟩

/-- `BUF` changed alike in both. -/
theorem Alike.mapBuf (h : Alike matters a b s t) (f : List Host.Cell → List Host.Cell) :
    Alike matters a b { s with buf := f s.buf } { t with buf := f t.buf } :=
  { h with buf := fun hbuf => congrArg f (h.buf hbuf) }

theorem Alike.sendChunk (h : Alike matters a b s t) (hbuf : matters) (lo n : Nat) :
    Flow.Alike matters a b (sendChunk lo n s) (sendChunk lo n t) := by
  obtain ⟨s', t', o, hs, ht, h⟩ := h.fetchBytes hbuf lo n
  cases hd : Machine.txOutcome t' 0 with
  | ok =>
    simp only [Machine.sendChunk, hs, ht, transact_ok hd, transact_ok ((h.txOutcome 0).trans hd), h.answers]
    exact ⟨(h.moved _ _ _).mapBuf (Memory.setRange · lo _), rfl⟩
  | fail p =>
    simp only [Machine.sendChunk, hs, ht, transact_fail hd, transact_fail ((h.txOutcome 0).trans hd), h.answers]
    exact ((h.moved _ _ _).mapBuf (Memory.forget · lo n)).fatalEntry

theorem Alike.sendChunks (h : Alike matters a b s t) (hbuf : matters) (chunk size left k : Nat) :
    Flow.Alike matters a b (sendChunks true chunk size left k s) (sendChunks true chunk size left k t) := by
  induction left generalizing k s t with
  | zero => exact ⟨h, rfl⟩
  | succ left ih =>
    refine (h.sendChunk hbuf _ _).andThen fun _ _ _ h => ?_
    simp only [ite_self, if_true]
    exact ih h (k + 1)

theorem Alike.frameWith (h : Alike matters a b s t) (sel : Byte) {payload payload' : State → Flow}
    (hpay : ∀ s t, Alike matters a b s t → Flow.Alike matters a b (payload s) (payload' t)) :
    Flow.Alike matters a b (frameWith sel payload s) (frameWith sel payload' t) :=
  (h.select.transfer [sel]).andThen fun s t _ h => (hpay s t h).andThen fun _ _ _ h => ⟨h.release.release, rfl⟩

theorem Alike.frame (h : Alike matters a b s t) (sel : Config → Byte) (pay : Config → List Byte) :
    Flow.Alike matters a b (frame (sel s.config) (pay s.config) s) (frame (sel t.config) (pay t.config) t) := by
  rw [h.config]
  exact h.frameWith _ fun _ _ h => by rw [sendBytes, sendBytes, h.config]; exact h.sendPieces _ _ _ _

theorem Alike.frameBuffer (h : Alike matters a b s t) (hbuf : matters) (n : Nat) :
    Flow.Alike matters a b (frameBuffer s.config.selDW n s) (frameBuffer t.config.selDW n t) := by
  rw [h.config]
  exact h.frameWith _ fun _ _ h => by rw [sendBuffer, sendBuffer, h.config]; exact h.sendChunks hbuf _ _ _ _

/-! ### The operations (R149) -/

theorem Alike.commandFrame (h : Alike matters a b s t) (addr : Byte) :
    Flow.Alike matters a b (commandFrame addr s) (commandFrame addr t) :=
  h.frame Config.selCW fun _ => [addr]

theorem Alike.dataFrame (h : Alike matters a b s t) (v : Byte) : Flow.Alike matters a b (dataFrame v s) (dataFrame v t) :=
  h.frame Config.selDW fun _ => [v]

theorem Alike.readFrame (h : Alike matters a b s t) : Flow.Alike matters a b (readFrame s) (readFrame t) :=
  h.frame Config.selDR fun p => [p.dummy]

theorem Alike.registerWrite (h : Alike matters a b s t) (addr v : Byte) :
    Flow.Alike matters a b (registerWrite addr v s) (registerWrite addr v t) :=
  (h.commandFrame addr).andThen fun _ _ _ h => h.dataFrame v

theorem Alike.protocolFlow (h : Alike matters a b s t) {i : Instr} (hbuf : (∃ n, i = .wdatan n) → matters) :
    Flow.Alike matters a b (protocolFlow i s) (protocolFlow i t) := by
  cases i with
  | wcmd addr => exact h.commandFrame addr
  | wdata v => exact h.dataFrame v
  | wdatan n => exact h.frameBuffer (hbuf ⟨n, rfl⟩) n
  | wdataw w => exact h.frame Config.selDW fun p => wordUnits p w
  | rdata => exact h.readFrame
  | rstatus => exact h.frame Config.selSR fun p => [p.dummy]
  | wreg addr v => exact h.registerWrite addr v
  | wreg16 addr v => exact (h.registerWrite addr _).andThen fun _ _ _ h => h.registerWrite _ _
  | rreg addr => exact (h.commandFrame addr).andThen fun _ _ _ h => h.readFrame
  | _ => exact ⟨h, rfl⟩

end Alike
/-! ### The end of an operation (R149) -/

/-- Two operations, from `s₁` to `t₁` and from `s₂` to `t₂`, ended alike: the same status, lifecycle, events and response, and a
`RESULT` and a `CFG` that both left alone or wrote alike. -/
structure SameEffect (matters : Prop) (s₁ s₂ t₁ t₂ : State) : Prop where
  alike : Alike matters s₁.trace s₂.trace t₁ t₂
  st : t₁.st = t₂.st
  lastst : t₁.lastst = t₂.lastst
  rsps : ∃ w, t₁.rsps = s₁.rsps ++ [w] ∧ t₂.rsps = s₂.rsps ++ [w]
  result : (t₁.result = s₁.result ∧ t₂.result = s₂.result) ∨ t₁.result = t₂.result
  cfg : (t₁.cfg = s₁.cfg ∧ t₂.cfg = s₂.cfg) ∨ t₁.cfg = t₂.cfg

section Ends

variable {matters : Prop} {N : Nat} {s₁ s₂ u₁ u₂ : State}

theorem Alike.finish (h : Alike matters s₁.trace s₂.trace u₁ u₂) (h₁ : Worked N s₁ u₁) (h₂ : Worked N s₂ u₂)
    (hst : s₁.st = s₂.st) (c : Status) (r : Option HalfWord) : SameEffect matters s₁ s₂ (finish c r u₁) (finish c r u₂) where
  alike := { h with }
  st := h₁.st.trans (hst.trans h₂.st.symm)
  lastst := rfl
  rsps := ⟨response c r, by rw [finish_rsps, h₁.rsps], by rw [finish_rsps, h₂.rsps]⟩
  result := by
    cases r with
    | none => exact .inl ⟨h₁.result, h₂.result⟩
    | some v => exact .inr rfl
  cfg := .inl ⟨h₁.cfg, h₂.cfg⟩

/-- Parts of two operations that went alike end them alike. -/
theorem Flow.Alike.close {f₁ f₂ : Flow} (h : Flow.Alike matters s₁.trace s₂.trace f₁ f₂) (h₁ : Fate N s₁ false f₁)
    (h₂ : Fate N s₂ false f₂) (hst : s₁.st = s₂.st) (reads : Bool) :
    SameEffect matters s₁ s₂ (f₁.close (protocolEnd reads)) (f₂.close (protocolEnd reads)) := by
  cases f₁ with
  | going u₁ rcv =>
    cases f₂ with
    | going u₂ rcv' =>
      obtain ⟨h, rfl⟩ := h
      exact h.finish h₁.1 h₂.1 hst .ok _
    | dead t₂ => exact h.elim
  | dead t₁ =>
    cases f₂ with
    | going u₂ rcv' => exact h.elim
    | dead t₂ =>
      obtain ⟨u₁, hu₁, -, rfl⟩ := h₁
      obtain ⟨u₂, hu₂, -, rfl⟩ := h₂
      exact
        { alike := h
          st := rfl
          lastst := rfl
          rsps := ⟨response .fatal none, by rw [Flow.close, fatalEntry_rsps, hu₁.rsps],
            by rw [Flow.close, fatalEntry_rsps, hu₂.rsps]⟩
          result := .inl ⟨(fatalEntry_result u₁).trans hu₁.result, (fatalEntry_result u₂).trans hu₂.result⟩
          cfg := .inr rfl }

end Ends

theorem reach_eq_zero {i : Instr} (hp : isProtocol i = true) (hi : ∀ n, i ≠ .wdatan n) : reach i = 0 := by
  cases i with
  | wdatan n => exact absurd rfl (hi n)
  | write => cases hp
  | _ => rfl

/-- The argument check looks at the operands and the parameters alone. -/
theorem protocolArgsOk_of_config {s t : State} (h : s.config = t.config) (i : Instr) : protocolArgsOk i s = protocolArgsOk i t := by
  cases i with
  | wdatan n => simp only [protocolArgsOk, sizeOk, h]
  | _ => rfl

/-- A register-protocol operation has the same effect from states that agree on what it depends on (R149). -/
theorem exec_sameEffect {i : Instr} {matters : Prop} {s₁ s₂ : State} (hp : isProtocol i = true) (hst : s₁.st = s₂.st)
    (h : Alike matters s₁.trace s₂.trace s₁ s₂) (hbuf : (∃ n, i = .wdatan n) → matters) :
    ∃ t₁ t₂, exec i s₁ = .next t₁ ∧ exec i s₂ = .next t₂ ∧ SameEffect matters s₁ s₂ t₁ t₂ := by
  refine ⟨_, _, exec_protocol hp s₁, exec_protocol hp s₂, ?_⟩
  have hchecks : trafficFailure (some false) (protocolArgsOk i s₁) s₁ = trafficFailure (some false) (protocolArgsOk i s₂) s₂ := by
    simp only [trafficFailure, firstFailure, hst, h.cs, protocolArgsOk_of_config h.config]
  rw [protocolOp, protocolOp, hchecks]
  cases hf : trafficFailure (some false) (protocolArgsOk i s₂) s₂ with
  | some c => exact h.finish (Worked.refl 0 s₁) (Worked.refl 0 s₂) hst c none
  | none =>
    obtain ⟨-, -, hcs, -⟩ := firstFailure_none hf
    have hcs : s₂.cs = false := hcs false rfl
    exact (h.protocolFlow hbuf).close (protocolFlow_fate i (h.cs.trans hcs)) (protocolFlow_fate i hcs) hst _

/-- Settles O41, by `exec_sameEffect`; an operation other than WDATAN leaves `BUF` alone. -/
theorem protocolOperationIsStateless : Obligations.ProtocolOperationIsStateless := by
  intro i s₁ s₂ hp hconfig hst hcs hbuf henv
  obtain ⟨t₁, t₂, h₁, h₂, heffect⟩ := exec_sameEffect hp hst
    ⟨hconfig, hcs, henv, hbuf, [], (List.append_nil _).symm, (List.append_nil _).symm⟩ id
  obtain ⟨⟨-, hcs', henv', hbuf', htrace⟩, hst', hlast, hrsps, hresult, hcfg⟩ := heffect
  have hkept (hi : ∀ n, i ≠ .wdatan n) : t₁.buf = s₁.buf ∧ t₂.buf = s₂.buf :=
    have hreach := reach_eq_zero hp hi
    ⟨(onlyBufferWritesTouchBuf i s₁ t₁ h₁).1 hreach, (onlyBufferWritesTouchBuf i s₂ t₂ h₂).1 hreach⟩
  exact ⟨t₁, t₂, h₁, h₂, hst', hcs', hlast, henv', hbuf', hkept, htrace, hrsps, hresult, hcfg⟩

end Sys2Proof.Machine

/-! SUPPORT. A composite and its expansion into primitives (30_encoding.md R94, 42_register_protocol.md R153): the frames are the same,
and what the expansion leaves in between, a status and a response, no later primitive looks at. -/

namespace Sys2Proof.Machine

/-- A register-protocol operation does not look at `LASTST`, `SEQ` and the responses, and leaves its own at its end (R149): from another
status it ends in the same state, but for the earlier responses. -/
theorem exec_of_status {i : Instr} (hp : isProtocol i = true) (s : State) (l : Status) (q : Seq) (rsps : List CmdWord) :
    ∃ t w, exec i s = .next t ∧ t.rsps = s.rsps ++ [w] ∧
      exec i { s with lastst := l, seq := q, rsps := rsps } = .next { t with rsps := rsps ++ [w] } := by
  obtain ⟨t, t', ht, ht', ⟨hconfig, hcs, henv, hbuf, E, hE, hE'⟩, hst, hlast, ⟨w, hw, hw'⟩, hresult, hcfg⟩ :=
    exec_sameEffect (matters := True) (s₁ := s) (s₂ := { s with lastst := l, seq := q, rsps := rsps }) hp rfl
      ⟨rfl, rfl, rfl, fun _ => rfl, [], (List.append_nil _).symm, (List.append_nil _).symm⟩ fun _ => trivial
  refine ⟨t, w, ht, hw, ht'.trans (congrArg Host.Outcome.next ?_)⟩
  have hseq : t'.seq = t.seq := (exec_seqIdle ht').trans (exec_seqIdle ht).symm
  have hhost : t'.host = t.host := (exec_framed ht').host.trans (exec_framed ht).host.symm
  have hepochs : t'.epochs = t.epochs := (exec_framed ht').epochs.trans (exec_framed ht).epochs.symm
  have hresult : t'.result = t.result := hresult.elim (fun h => h.2.trans h.1.symm) Eq.symm
  have hcfg : t'.cfg = t.cfg := hcfg.elim (fun h => h.2.trans h.1.symm) Eq.symm
  cases t
  cases t'
  simp only [State.mk.injEq]
  exact ⟨hconfig.symm, hst.symm, hcfg, hcs.symm, (hbuf trivial).symm, hresult, hlast.symm, hseq, hE'.trans hE.symm, hw', hhost,
    hepochs, henv.symm⟩

/-- In FATAL one register-protocol operation after another is refused (R174, R180). -/
theorem runOps_of_fatal {is : List Instr} {s : State} (hp : ∀ i ∈ is, isProtocol i = true) (hst : s.st = .fatal)
    (hseq : s.seq = .idle) :
    ∃ l ws, runOps is s = .next { s with lastst := l, rsps := s.rsps ++ ws } ∧ ws.length = is.length := by
  induction is generalizing s with
  | nil => exact ⟨s.lastst, [], by rw [List.append_nil]; rfl, rfl⟩
  | cons i is ih =>
    obtain ⟨hi, hp⟩ := List.forall_mem_cons.1 hp
    have hexec : exec i s = .next (refusedWith .errDead s) :=
      (exec_protocol hi s).trans (congrArg _ (checked_of_failure (firstFailure_of_fatal hst)))
    obtain ⟨l, ws, hrun, hlen⟩ := ih (s := refusedWith .errDead s) hp hst rfl
    refine ⟨l, (Status.errDead.code ++ 0#24 : BitVec 32) :: ws,
      (runOps_cons hexec).trans (hrun.trans (congrArg _ ?_)), congrArg (· + 1) hlen⟩
    simp [refusedWith, hseq]

/-- `t`, where a composite ends, and `u`, where its expansion ends, are equal but for the responses, and after a failure but for
`LASTST` too (R153). -/
def Expands (t u : State) : Prop :=
  (t.lastst = .ok → t = { u with rsps := t.rsps }) ∧
  (t.lastst ≠ .ok → t.lastst = .fatal ∧ t = { u with rsps := t.rsps, lastst := t.lastst })

/-- Primitives issued one after another lead where their frames in turn and one end do. The expansion starts from the state `s` the
composite is in, with whatever status and responses. -/
theorem runOps_expands {is : List Instr} {j : Instr} {s : State} (hprim : ∀ i ∈ is ++ [j], isPrimitive i = true)
    (hres : ∀ i ∈ is, hasResult i = false) (hst : s.st = .opened) (hcs : s.cs = false) (l : Status) (q : Seq)
    (rsps : List CmdWord) :
    ∃ u ws, runOps (is ++ [j]) { s with lastst := l, seq := q, rsps := rsps } = .next u ∧ u.rsps = rsps ++ ws ∧
      ws.length = (is ++ [j]).length ∧ Expands ((inTurn is j s).close (protocolEnd (hasResult j))) u := by
  induction is generalizing s l q rsps with
  | nil =>
    have hj := hprim j (by simp)
    obtain ⟨t, w, ht, -, hu⟩ := exec_of_status (isProtocol_of_isPrimitive hj) s l q rsps
    cases (exec_protocol_of_checks (isProtocol_of_isPrimitive hj) hst hcs (protocolArgsOk_of_isPrimitive hj s)).symm.trans ht
    refine ⟨_, [w], runOps_cons hu, rfl, rfl, fun _ => rfl, fun hno => ⟨?_, rfl⟩⟩
    obtain ⟨u, -, ⟨r, -, e⟩ | ⟨-, e⟩⟩ := (protocolFlow_fate j hcs).close (k := protocolEnd (hasResult j))
    · exact absurd (congrArg State.lastst e) hno
    · exact congrArg State.lastst e
  | cons i is ih =>
    obtain ⟨hi, hprim⟩ := List.forall_mem_cons.1 hprim
    obtain ⟨hnone, hres⟩ := List.forall_mem_cons.1 hres
    obtain ⟨t, w, ht, -, hu⟩ := exec_of_status (isProtocol_of_isPrimitive hi) s l q rsps
    have hexec := exec_protocol_of_checks (isProtocol_of_isPrimitive hi) hst hcs (protocolArgsOk_of_isPrimitive hi s)
    have hfate := protocolFlow_fate i hcs
    rw [hnone] at hexec
    rw [inTurn, List.cons_append]
    cases hflow : protocolFlow i s with
    | going v rcv =>
      rw [hflow] at hexec hfate
      cases hexec.symm.trans ht
      obtain ⟨hv, hvcs⟩ := hfate
      obtain ⟨u, ws, hrun, hrsps, hlen, hexp⟩ := ih hprim hres (hv.st.trans hst) hvcs .ok .idle (rsps ++ [w])
      exact ⟨u, w :: ws, (runOps_cons hu).trans hrun, by rw [hrsps, List.append_assoc]; rfl, congrArg (· + 1) hlen, hexp⟩
    | dead d =>
      rw [hflow] at hexec hfate
      cases hexec.symm.trans ht
      obtain ⟨v, -, -, rfl⟩ := hfate
      obtain ⟨l', ws, hrun, hlen⟩ := runOps_of_fatal (s := { fatalEntry v with rsps := rsps ++ [w] })
        (fun k hk => isProtocol_of_isPrimitive (hprim k hk)) rfl rfl
      exact ⟨_, w :: ws, (runOps_cons hu).trans hrun, List.append_assoc .., congrArg (· + 1) hlen, nofun, fun _ => ⟨rfl, rfl⟩⟩

/-- A composite whose part on the wire is the primitives `is` and then `j`, against those primitives issued one after another. -/
theorem exec_expands {i j : Instr} {is : List Instr} {s : State} (hp : isProtocol i = true) (hargs : protocolArgsOk i s = true)
    (hflow : protocolFlow i s = inTurn is j s) (hprim : ∀ k ∈ is ++ [j], isPrimitive k = true)
    (hres : ∀ k ∈ is, hasResult k = false) (hread : hasResult j = hasResult i) (hst : s.st = .opened) (hcs : s.cs = false) :
    ∃ t u w ws, exec i s = .next t ∧ runOps (is ++ [j]) s = .next u ∧ t.rsps = s.rsps ++ [w] ∧ u.rsps = s.rsps ++ ws ∧
      ws.length = (is ++ [j]).length ∧ Expands t u := by
  obtain ⟨t, w, ht, hw, -⟩ := exec_of_status hp s s.lastst s.seq s.rsps
  obtain ⟨u, ws, hrun, hrsps, hlen, hexp⟩ := runOps_expands hprim hres hst hcs s.lastst s.seq s.rsps
  rw [hread, ← hflow] at hexp
  cases (exec_protocol_of_checks hp hst hcs hargs).symm.trans ht
  exact ⟨_, u, w, ws, ht, hrun, hw, hrsps, hlen, hexp⟩

/-- Settles O47: the three composites by `exec_expands`. -/
theorem compositeEqualsExpansion : Obligations.CompositeEqualsExpansion := by
  intro addr hi lo next s _ hst hcs p hmem haddr
  obtain rfl | rfl | rfl : p = _ ∨ p = _ ∨ p = _ := by simpa using hmem
  · exact exec_expands (is := [.wcmd addr]) (j := .wdata lo) rfl rfl rfl (by simp [isPrimitive]) (by simp [hasResult]) rfl hst hcs
  · exact exec_expands (is := [.wcmd addr]) (j := .rdata) rfl rfl rfl (by simp [isPrimitive]) (by simp [hasResult]) rfl hst hcs
  · obtain ⟨hne, hnext⟩ := haddr addr (hi ++ lo) rfl
    obtain rfl : next = nextAddr addr := BitVec.eq_of_toNat_eq (hnext.trans (nextAddr_toNat hne).symm)
    have hflow := protocolFlow_wreg16 addr (hi ++ lo) s
    rw [lo8_append, hi8_append] at hflow
    exact exec_expands (is := [.wcmd addr, .wdata lo, .wcmd (nextAddr addr)]) (j := .wdata hi) rfl
      (decide_eq_true (toNat_le_iff_ne_last.2 hne)) hflow (by simp [isPrimitive]) (by simp [hasResult]) rfl hst hcs

end Sys2Proof.Machine

/-! SUPPORT. The order of the checks over all operations and how a refusal, a success and a fatal entry end (60_exceptions.md R172 to
R180). -/

namespace Sys2Proof.Machine

open Sys2Proof.Claims

/-! ### The checks of any operation (R174, R175, R178) -/

/-- The lifecycle check (R174): OPEN, or CLOSED for an INIT. -/
def lifecycleOk (i : Instr) (s : State) : Bool := isInit i && decide (s.st = .closed) || decide (s.st = .opened)

/-- The argument check (R175). -/
def argsOk : Instr → State → Bool
  | .write size _, s => sizeOk size s
  | i, s => protocolArgsOk i s

/-- The status of the first check that fails (R178). -/
def opFailure (i : Instr) (s : State) : Option Status := firstFailure (lifecycleOk i s) (needsCs i) (argsOk i s) s

theorem lifecycleOk_iff {i : Instr} {s : State} :
    lifecycleOk i s = true ↔ s.st = .opened ∨ (s.st = .closed ∧ isInit i = true) := by
  simp [lifecycleOk, or_comm, and_comm]

theorem argsOk_iff {i : Instr} {s : State} : argsOk i s = true ↔ ¬ badArgs s.config.bufMax i := by
  cases i with
  | write size hold =>
    rw [argsOk, sizeOk, badArgs, Bool.and_eq_true, decide_eq_true_iff, decide_eq_true_iff]
    omega
  | wdatan n => exact protocolArgsOk_iff (i := .wdatan n) rfl s
  | wreg16 addr v => exact protocolArgsOk_iff (i := .wreg16 addr v) rfl s
  | _ => simp [argsOk, protocolArgsOk, badArgs]

/-- Every operation is its checks and what it runs behind them. -/
theorem exec_checked (i : Instr) : ∃ run, ∀ s, exec i s = .next (checked (opFailure i s) run s) := by
  cases i <;> exact ⟨_, fun _ => rfl⟩

theorem exec_of_failure {i : Instr} {s : State} {c : Status} (h : opFailure i s = some c) :
    exec i s = .next (refusedWith c s) := by
  obtain ⟨run, hexec⟩ := exec_checked i
  exact (hexec s).trans (congrArg _ (checked_of_failure h))

/-- In FATAL every operation is refused (R174). -/
theorem exec_of_fatal (i : Instr) {s : State} (hst : s.st = .fatal) : exec i s = .next (refusedWith .errDead s) :=
  exec_of_failure (firstFailure_of_fatal hst)

/-- In FAILED every operation is refused, in CLOSED every one but INIT (R174). -/
theorem exec_of_lifecycle {i : Instr} {s : State} (hst : s.st = .failed ∨ (s.st = .closed ∧ isInit i = false)) :
    exec i s = .next (refusedWith .errState s) := by
  have hlife : lifecycleOk i s = false := by
    obtain hst | ⟨hst, hinit⟩ := hst <;> simp [lifecycleOk, *]
  have hlive : s.st ≠ .fatal := by
    obtain hst | ⟨hst, -⟩ := hst <;> simp [hst]
  apply exec_of_failure
  rw [opFailure, hlife]
  exact firstFailure_of_lifecycle hlive

section PastLifecycle

variable {i : Instr} {s : State} (hlife : s.st = .opened ∨ (s.st = .closed ∧ isInit i = true))
include hlife

theorem opFailure_of_lifecycleOk : s.st ≠ .fatal ∧ opFailure i s = firstFailure true (needsCs i) (argsOk i s) s :=
  ⟨by obtain hst | ⟨hst, -⟩ := hlife <;> simp [hst], by rw [opFailure, lifecycleOk_iff.2 hlife]⟩

/-- The other chip-select level is looked at before the arguments (R175). -/
theorem exec_of_cs (hcs : needsCs i = some (!s.cs)) : exec i s = .next (refusedWith .errSeq s) := by
  obtain ⟨hlive, hfail⟩ := opFailure_of_lifecycleOk hlife
  exact exec_of_failure (hfail.trans (firstFailure_of_cs hlive hcs))

theorem exec_of_badArgs (hcs : needsCs i ≠ some (!s.cs)) (hargs : badArgs s.config.bufMax i) :
    exec i s = .next (refusedWith .errArg s) := by
  obtain ⟨hlive, hfail⟩ := opFailure_of_lifecycleOk hlife
  have hbad : argsOk i s = false := Bool.eq_false_iff.2 fun h => argsOk_iff.1 h hargs
  rw [hbad] at hfail
  exact exec_of_failure (hfail.trans (firstFailure_of_args hlive hcs))

end PastLifecycle

/-! ### Past the checks (R113, R176, R178) -/

/-- An operation whose part on the wire went through ends as `k` says, else with ST_FATAL. -/
theorem Fate.close_lastst {N : Nat} {s : State} {cs : Bool} {f : Flow} {k : State → List Byte → State} (h : Fate N s cs f)
    (hk : ∀ u r, (k u r).lastst = .ok) : (f.close k).lastst = .ok ∨ (f.close k).lastst = .fatal := by
  obtain ⟨u, -, ⟨r, -, e⟩ | ⟨-, e⟩⟩ := h.close (k := k) <;> rw [e]
  · exact .inl (hk u r)
  · exact .inr rfl

/-- An operation but INIT whose checks pass is not refused. -/
theorem exec_of_checks {i : Instr} {s : State} (hinit : isInit i = false) (hst : s.st = .opened)
    (hcs : needsCs i ≠ some (!s.cs)) (hargs : ¬ badArgs s.config.bufMax i) :
    ∃ t, exec i s = .next t ∧ (t.lastst = .ok ∨ t.lastst = .fatal) := by
  have hlevel {b : Bool} (h : some b ≠ some (!s.cs)) : s.cs = b := by simpa using Ne.symm h
  have hok : argsOk i s = true := argsOk_iff.2 hargs
  cases i with
  | init => cases hinit
  | beginFrame => exact ⟨_, exec_begin_of_checks hst (hlevel hcs), .inl rfl⟩
  | endFrame => exact ⟨_, exec_end_of_checks hst, .inl rfl⟩
  | write size hold =>
    obtain ⟨cs, hfate⟩ := sendBuffer_hold_fate (size := size) hold (hlevel hcs)
    exact ⟨_, congrArg Host.Outcome.next (checked_of_traffic hst hcs hok), hfate.close_lastst fun _ _ => rfl⟩
  | xferb b =>
    exact ⟨_, exec_xferb_of_checks b hst (hlevel hcs), (transfer_fate 0 (hlevel hcs) _).close_lastst fun _ _ => rfl⟩
  | xferw w =>
    exact ⟨_, exec_xferw_of_checks w hst (hlevel hcs), (transfer_fate 0 (hlevel hcs) _).close_lastst fun _ _ => rfl⟩
  | _ =>
    exact ⟨_, exec_protocol_of_checks rfl hst (hlevel hcs) hok, (protocolFlow_fate _ (hlevel hcs)).close_lastst fun _ _ => rfl⟩

/-- Past its checks an INIT ends with ST_OK or ST_INITFAIL, any other operation with ST_OK or ST_FATAL (R178). -/
theorem exec_accepted {i : Instr} {s : State} (hlife : s.st = .opened ∨ (s.st = .closed ∧ isInit i = true))
    (hcs : needsCs i ≠ some (!s.cs)) (hargs : ¬ badArgs s.config.bufMax i) :
    ∃ t, exec i s = .next t ∧
      if isInit i then t.lastst = .ok ∨ t.lastst = .initFail else t.lastst = .ok ∨ t.lastst = .fatal := by
  cases hinit : isInit i with
  | false =>
    have hst : s.st = .opened := by simpa [hinit] using hlife
    exact exec_of_checks hinit hst hcs hargs
  | true =>
    cases i with
    | init m b w d =>
      have hlevel : s.cs = false := by simpa [needsCs] using hcs
      refine ⟨_, exec_init_of_checks m b w d (hlife.symm.imp_left And.left) hlevel, ?_⟩
      obtain ⟨-, -, e⟩ | ⟨-, e⟩ := runInit_cases (initConfig m b w d) s <;> rw [e]
      · exact .inl rfl
      · exact .inr rfl
    | _ => cases hinit

/-! ### From the code back to what happened (R172, R176) -/

/-- A refusal of an operation the idle sequencer took up leaves `SEQ` as it found it (R36, R172). -/
theorem refusedWith_of_idle {s : State} (hseq : s.seq = .idle) (c : Status) (q : Seq) :
    refusedWith c { s with seq := q } = { s with lastst := c, rsps := s.rsps ++ [(c.code ++ 0#24 : BitVec 32)] } := by
  simp [refusedWith, hseq]

/-- An operation that ends with a refusal code was refused. -/
theorem exec_refused {i : Instr} {s t : State} (h : exec i s = .next t)
    (hcode : t.lastst ∈ [Status.errCmd, .errState, .errSeq, .errArg, .errDead]) : t = refusedWith t.lastst s := by
  obtain ⟨t', e, hcases⟩ := exec_cases i s
  cases e.symm.trans h
  obtain ⟨c, -, rfl⟩ | ⟨m, b, w, d, -, -, -, rfl⟩ | ⟨-, -, -, -, u, -, hend⟩ := hcases
  · exact refuse_refusedWith c s
  · obtain ⟨-, -, e⟩ | ⟨-, e⟩ := runInit_cases (initConfig m b w d) s <;> simp [e] at hcode
  · obtain ⟨r, -, -, rfl⟩ | ⟨-, rfl⟩ := hend <;> simp at hcode

/-- An operation that ends with ST_FATAL worked on the wire with the channel OPEN and then ran the fatal entry with select asserted. -/
theorem exec_died {i : Instr} {s t : State} (h : exec i s = .next t) (hcode : t.lastst = .fatal) :
    s.st = .opened ∧ ∃ u, Worked (reach i) s u ∧ u.cs = true ∧ t = fatalEntry u := by
  obtain ⟨t', e, hcases⟩ := exec_cases i s
  cases e.symm.trans h
  obtain ⟨c, hc, rfl⟩ | ⟨m, b, w, d, -, -, -, rfl⟩ | ⟨-, hst, -, -, u, hu, hend⟩ := hcases
  · cases (hcode : c = .fatal)
    simp at hc
  · obtain ⟨-, -, e⟩ | ⟨-, e⟩ := runInit_cases (initConfig m b w d) s <;> simp [e] at hcode
  · obtain ⟨r, -, -, rfl⟩ | ⟨hcs, rfl⟩ := hend
    · cases hcode
    · exact ⟨hst, u, hu, hcs, rfl⟩

/-- In FAILED and FATAL every operation is refused (R174, R180). -/
theorem exec_of_stopped (i : Instr) {s : State} (hst : s.st = .failed ∨ s.st = .fatal) :
    ∃ c, exec i s = .next (refusedWith c s) := by
  obtain hst | hst := hst
  · exact ⟨_, exec_of_lifecycle (.inl hst)⟩
  · exact ⟨_, exec_of_fatal i hst⟩

/-! ### The obligations -/

/-- Settles O9, by `exec_of_fatal` and `exec_of_lifecycle`. -/
theorem lifecycleRefusals : Obligations.LifecycleRefusals := fun i _ =>
  ⟨exec_of_fatal i, fun hst hinit => exec_of_lifecycle (.inr ⟨hst, hinit⟩), fun hst => exec_of_lifecycle (.inl hst)⟩

/-- Settles O10: the refusals by `exec_of_cs` and `exec_of_badArgs`, the ends past them by `exec_accepted`. -/
theorem chipSelectAndArgumentRefusals : Obligations.ChipSelectAndArgumentRefusals := by
  intro i s hst
  refine ⟨exec_of_cs (.inl hst), exec_of_badArgs (.inl hst), fun hcs hargs => ?_⟩
  obtain ⟨t, ht, hend⟩ := exec_accepted (.inl hst) hcs hargs
  refine ⟨t, ht, ?_, fun m b w d hi hlegal => ?_⟩
  · split at hend <;> obtain h | h := hend <;> simp [h]
  · subst hi
    have hlevel : s.cs = false := by simpa [needsCs] using hcs
    cases (exec_init_of_checks m b w d (.inr hst) hlevel).symm.trans ht
    exact (runInit_fails (.inl hlegal)).2.1

/-- Settles O11: a legal word was refused by `exec_refused`, an illegal one by the decoder; either way `SEQ` is idle again. -/
theorem refusalChangesNothing : Obligations.RefusalChangesNothing := by
  intro w s t hseq h hcode
  obtain ⟨i, -, hi⟩ | ⟨e, -, rfl⟩ := command_cases h
  · exact (exec_refused hi hcode).trans (refusedWith_of_idle hseq _ _)
  · exact (refuse_refusedWith .errCmd s).trans (refusedWith_of_idle hseq .errCmd s.seq)

/-- Settles O12: the one response by `command_response`, each clause by the lemma on its check. -/
theorem firstFailingCheckDecides : Obligations.FirstFailingCheckDecides := by
  intro s w rest hseq hhost
  obtain ⟨t, ht⟩ := command_next w { s with host := rest }
  obtain ⟨result, hrsps, -⟩ := command_response ht
  refine ⟨t, by rw [step_idle hseq]; simpa only [hostAction, hhost] using ht, by simp [hrsps], ?_⟩
  obtain ⟨i, hi, hexec⟩ | ⟨e, he, rfl⟩ := command_cases ht
  · refine ⟨fun hillegal => absurd (exists_decode_eq_ok_iff.1 ⟨i, hi⟩) hillegal, fun j hj => ?_⟩
    cases hi.symm.trans hj
    have code {c : Status} (h : exec i { s with host := rest, seq := .running i } =
        .next (refusedWith c { s with host := rest, seq := .running i })) : t.lastst = c := by
      cases hexec.symm.trans h
      rfl
    refine ⟨fun hst => code (exec_of_fatal i hst), fun hst => code (exec_of_lifecycle hst), fun hlife =>
      ⟨fun hcs => code (exec_of_cs hlife hcs), fun hcs hargs => code (exec_of_badArgs hlife hcs hargs), fun hcs hargs => ?_⟩⟩
    obtain ⟨t', ht', hend⟩ := exec_accepted (s := { s with host := rest, seq := .running i }) hlife hcs hargs
    cases hexec.symm.trans ht'
    exact hend
  · exact ⟨fun _ => rfl, fun i hi => nomatch he.symm.trans hi⟩

/-- Settles O30, by `exec_cases` and `exec_seqIdle`. -/
theorem everyOperationEnds : Obligations.EveryOperationEnds := fun i s =>
  let ⟨t, h, _⟩ := exec_cases i s
  ⟨t, h, exec_seqIdle h⟩

/-- Settles O34, by the cases of a step: a command word is refused (`exec_of_stopped`), and a write of `BUF` touches nothing else. -/
theorem failureStatesLeftOnlyByReset : Obligations.FailureStatesLeftOnlyByReset := by
  intro s t hseq hst h
  cases step_stepped h with
  | running hrun => rw [hseq] at hrun; cases hrun
  | waiting => exact .inl ⟨rfl, rfl, rfl, rfl, rfl⟩
  | @command w rest _ _ _ hw =>
    obtain ⟨i, -, hi⟩ | ⟨e, -, rfl⟩ := command_cases hw
    · obtain ⟨c, hc⟩ := exec_of_stopped i (s := { s with host := rest, seq := .running i }) hst
      cases hi.symm.trans hc
      exact .inl ⟨rfl, rfl, rfl, rfl, rfl⟩
    · exact .inl ⟨rfl, rfl, rfl, rfl, rfl⟩
  | bufWrite => exact .inl ⟨rfl, rfl, rfl, rfl, rfl⟩
  | reset _ hhost => exact .inr ⟨.inl ⟨_, hhost⟩, rfl⟩
  | resetDuring _ hhost => exact .inr ⟨.inr ⟨_, _, _, hhost⟩, rfl⟩

/-- Settles O35: the fatal entry by `exec_died`, the dead channel behind it by `exec_of_fatal`. -/
theorem fatalEntryReleasesThenDies : Obligations.FatalEntryReleasesThenDies := by
  intro i s t h hcode
  obtain ⟨hst, u, hu, hcs, rfl⟩ := exec_died h hcode
  obtain ⟨E, htrace, -⟩ := hu.trace
  refine ⟨hst, rfl, fatalEntry_cs u, rfl, (fatalEntry_result u).trans hu.result, ?_, ⟨E, ?_⟩, fun j => exec_of_fatal j rfl⟩
  · rw [fatalEntry_rsps, hu.rsps]
    rfl
  · rw [fatalEntry_trace, if_pos hcs, htrace]

end Sys2Proof.Machine

/-! SUPPORT. Reset of an idle block and reset in mid-operation (70_reset_and_hazards.md R200, R203): which state each leaves, and where
the events of a cut operation leave chip-select. -/

namespace Sys2Proof.Machine

/-! ### The host's resets (R38, R200) -/

theorem step_of_reset {s : State} {rest : List HostAction} (hseq : s.seq = .idle) (hhost : s.host = .reset :: rest) :
    step s = .next (resetBlock { s with host := rest }) := by
  rw [step_idle hseq]
  simp only [hostAction, hhost]

/-- A command word with a reset during it: `done` is where the word alone would have led. -/
theorem step_of_resetDuring {s done : State} {w : CmdWord} {k : Nat} {rest : List HostAction} (hseq : s.seq = .idle)
    (hhost : s.host = .resetDuring w k :: rest) (hdone : command w { s with host := rest } = .next done) :
    step s = .next (resetDuringOp { s with host := rest } done k) := by
  rw [step_idle hseq]
  simp only [hostAction, hhost, commandThenReset, hdone]

/-! ### What a cut operation leaves (R200) -/

/-- The epoch a cut operation closes holds the first `k` of the events it would have added. -/
theorem resetDuringOp_of_append {s d : State} {E : List Event} (h : d.trace = s.trace ++ E) (k : Nat) :
    resetDuringOp s d k = { State.reset with
      config := s.config, host := s.host, env := d.env, epochs := s.epochs ++ [closeTrace (s.trace ++ E.take k)] } := by
  rw [resetDuringOp, h, List.drop_left]

/-- A refused word puts no event on the wire and draws nothing, so a reset during it is a reset at once. -/
theorem resetDuringOp_refuse (s : State) (c : Status) (k : Nat) : resetDuringOp s (refuse c s) k = resetBlock s := by
  have htrace : (refuse c s).trace = s.trace ++ [] := (List.append_nil s.trace).symm
  rw [resetDuringOp_of_append htrace, List.take_nil, List.append_nil]
  rfl

/-- Any beginning of what a trace in order goes on with leads chip-select from `cs` to where the events so far say (R41 c, d). -/
theorem wireScan_take_of_append {t E : List Event} {cs c : Bool} (ht : wireScan false t = some cs)
    (hE : wireScan false (t ++ E) = some c) (k : Nat) : wireScan cs (E.take k) = some (traceCs (t ++ E.take k)) := by
  have hcut : t ++ E.take k <+: t ++ E := (List.prefix_append_right_inj t).2 (List.take_prefix k E)
  obtain ⟨c', hc'⟩ := wireScan_of_prefix hcut hE
  rw [traceCs_of_wireScan hc']
  rwa [wireScan_append, ht, Option.bind_some] at hc'

/-! ### The obligations -/

/-- Settles O8: the host's resets by `step_of_reset` and `step_of_resetDuring`, an operation's events by `exec_framed`, and their
order by `wireOrdered_kept`. -/
theorem resetRestartsFromAnyState : Obligations.ResetRestartsFromAnyState := by
  intro s hseq
  refine ⟨fun rest hhost => step_of_reset hseq hhost, fun w k rest e hhost hw => ?_, traceCs_of_wireScan,
    fun w k rest i hhost hw => ?_⟩
  · have hdone : command w { s with host := rest } = .next (refuse .errCmd { s with host := rest }) := by
      simp only [command, hw]
    rw [step_of_resetDuring hseq hhost hdone, resetDuringOp_refuse]
    rfl
  · obtain ⟨d, hd, -⟩ := everyOperationEnds i { s with host := rest, seq := .running i }
    have hdone : command w { s with host := rest } = .next d := by
      simpa only [command, hw, issue] using hd
    obtain ⟨E, hE⟩ := (exec_framed hd).trace
    refine ⟨d, hd, _, E, step_of_resetDuring hseq hhost hdone, hE.symm, resetDuringOp_of_append hE.symm k, fun hs => ?_⟩
    have hordered : WireOrdered d := wireOrdered_kept.exec (wireOrdered_kept.waiting (.running i) rest hs) hd
    rw [WireOrdered, ← hE] at hordered
    exact wireScan_take_of_append hs hordered k

/-- Settles O7, field by field: after reset `BUF` has no cell to read, `CS_ACTIVE_LOW` is true, and `CFG` gives `SCLK` no level. -/
theorem resetLeavesSpecState : Obligations.ResetLeavesSpecState := by
  have hbuf : ∀ j, hostBufRead j State.reset = none := fun _ => rfl
  exact ⟨rfl, rfl, rfl, rfl, hbuf, rfl, rfl, rfl, rfl, rfl, rfl⟩

end Sys2Proof.Machine
